-- ==== Sys2Proof/Word.lean ====
section
/-!
DEFINITION. The 32-bit word of the core: the command word (30_encoding.md R100) and the two host-readable
registers `STATUS` and `ERRCMD` (10_state.md R37, R52).

Limbs and values are NUMBERS in the spec (00_scope.md R10, R11) of widths `W` and `n = N*W` that are
parameters of the instance, so they are `Nat` here, kept in range by the register writes of Machine/Ops.lean.
-/

namespace Sys2Proof

/-- A 32-bit word, bit 31 the most significant (30_encoding.md R100). -/
abbrev Word32 := BitVec 32

end Sys2Proof
end

