-- ==== Sys2Proof/Config.lean ====
section
/-!
DEFINITION. What one instance of the core fixes (00_scope.md R6: the parameters `W`, `N` and `MONT_ALG`), and the sources of
free values: the opaque constants the model draws from wherever the spec lets a value be anything (R16).

`HOST_MAP` is carried as an opaque constant (log entry 26). `MONT_ALG` is carried beside `W` and `N` (log entry 27); the
multiplier it selects is `Sys2Proof.Machine.builtMul` (Machine/Reference.lean).
-/

namespace Sys2Proof

/-- `MONT_ALG`: which multiplier datapath is built (00_scope.md R6, 44_field_mont.md R236). -/
inductive MontAlg where
  /-- Interleaved operand scanning (44_field_mont.md R234). -/
  | cios
  /-- Schoolbook product, then reduction (44_field_mont.md R235). -/
  | sos
deriving DecidableEq, Repr

/-- The parameters of an instance (00_scope.md R6): limb width `W`, limbs per value register `N`, and `MONT_ALG`. -/
structure Geometry where
  W : Nat
  N : Nat
  montAlg : MontAlg
deriving DecidableEq, Repr

/-- `n = N*W`, the width in bits of a value register (00_scope.md R6). -/
def Geometry.n (g : Geometry) : Nat := g.N * g.W

/-- The instances the spec admits: `W` is 32 or 64, `N` at least 1, `N*W` at most 4096, either multiplier (00_scope.md R6,
D2). -/
abbrev Geometry.legal (g : Geometry) : Prop :=
  (g.W = 32 ∨ g.W = 64) ∧ 1 ≤ g.N ∧ g.n ≤ 4096

/-- The geometry of `State.reset`. DESIGN CHOICE (log entry 1, unsafe for a claim that leans on it): the spec
leaves `W`, `N` and `MONT_ALG` open; one 32-bit limb is the instance of most of its vectors, and `CIOS` is a choice
nothing observes. -/
def Config.geometry : Geometry := ⟨32, 1, .cios⟩

/-- FREE VALUE: the `k`-th unspecified value of an instance (00_scope.md R16; 93_implementation_defined.md U1 to U9). It
takes the instance because `MONT_ALG` selects among the values of U3. No body, so nothing about it can be proved. DESIGN
CHOICE of form (log entries 6, 27, safe). -/
opaque Config.unspecified : Geometry → Nat → Nat

/-- FREE VALUE: the RNG's answer to the `k`-th draw (42_bigint.md R190, the oracle parameter `RNG` of R6).
DESIGN CHOICE of form (log entry 6, safe). -/
opaque Config.rng : Nat → Nat

/-- The selectors of the host register space (20_memory.md R70). -/
inductive Machine.Sel where
  | l (k : Fin 16)
  | f (k : Fin 16)
  | px (k : Fin 16)
  | py (k : Fin 16)
  | pz (k : Fin 16)
  | mod
  | rr
  | rone
  | ca
  | cb
  | mprime
  | status
  | errcmd
  | cmd
deriving DecidableEq, Repr

/-- OPEN PARAMETER `HOST_MAP` (00_scope.md R6, 20_memory.md R80): the physical address of element `i` of a selector in
an instance of the given geometry. No body: the spec fixes no address. What R80 asks of it is `HostMap.Proper`
(Machine/HostPort.lean). DESIGN CHOICE of form (log entry 26, safe). -/
opaque Config.hostMap : Geometry → Machine.Sel → Nat → Nat

end Sys2Proof
end

