-- ==== Sys2Proof/Syntax.lean ====
section
/-!
DEFINITION. The commands of the core, one constructor per row of spec/opcode_table.json (30_encoding.md R104), with
their operands in the order of the fields `rd`, `ra`, `rb`, `imm` (R101, R108); and the pseudo-instructions of R109.
-/

namespace Sys2Proof

/-- A 4-bit register index (30_encoding.md R102). The file it indexes (`l`, `f` or `p`) is the command's format's. -/
abbrev Reg := Fin 16

/-- A command. `k` is the 12-bit count of a `.K` format (its bound is checked by `Instr.wellFormed`), `rh` the second
destination of `LMUL`, `ws` the workspace base of a `.W` format (30_encoding.md R103, R105). -/
inductive Instr where
  -- System commands (48_system.md).
  /-- `NOP`, format `---.0`: no operation (R330). -/
  | nop
  /-- `CFG`, format `---.0`: commit the configuration (R331). -/
  | cfg
  /-- `CLRERR`, format `---.0`: clear the fault record (R333). -/
  | clrerr
  -- Limb primitives (40_limb.md).
  /-- `LADD`, format `LLL.0`: limb add, carry-in 0 (R136). -/
  | ladd (rd ra rb : Reg)
  /-- `LADC`, format `LLL.0`: limb add with carry-in `STATUS.C` (R137). -/
  | ladc (rd ra rb : Reg)
  /-- `LSUB`, format `LLL.0`: limb subtract, borrow-in 0 (R138). -/
  | lsub (rd ra rb : Reg)
  /-- `LSBB`, format `LLL.0`: limb subtract with borrow-in `STATUS.C` (R139). -/
  | lsbb (rd ra rb : Reg)
  /-- `LMUL`, format `LLL.H`: full-width limb multiply, low half to `rd`, high half to `rh` (R140). -/
  | lmul (rd ra rb rh : Reg)
  /-- `LCLZ`, format `LL-.0`: count leading zeros (R141). -/
  | lclz (rd ra : Reg)
  /-- `LSHL`, format `LL-.K`: limb shift left by `k` (R142). -/
  | lshl (rd ra : Reg) (k : Nat)
  /-- `LSHR`, format `LL-.K`: limb logical shift right by `k` (R143). -/
  | lshr (rd ra : Reg) (k : Nat)
  -- Limb sequences (41_limbseq.md).
  /-- `SADD`, format `FFF.0`: limb-sequence add (R155). -/
  | sadd (rd ra rb : Reg)
  /-- `SSUB`, format `FFF.0`: limb-sequence subtract (R156). -/
  | ssub (rd ra rb : Reg)
  /-- `SSHL`, format `FF-.K`: shift left by `k` bits (R157). -/
  | sshl (rd ra : Reg) (k : Nat)
  /-- `SSHR`, format `FF-.K`: logical shift right by `k` bits (R158). -/
  | sshr (rd ra : Reg) (k : Nat)
  /-- `SCMP`, format `-FF.0`: compare (R159). -/
  | scmp (ra rb : Reg)
  /-- `SAND`, format `FFF.0`: bitwise AND (R160). -/
  | sand (rd ra rb : Reg)
  /-- `SOR`, format `FFF.0`: bitwise OR (R161). -/
  | sor (rd ra rb : Reg)
  /-- `SXOR`, format `FFF.0`: bitwise exclusive OR (R162). -/
  | sxor (rd ra rb : Reg)
  /-- `SNOT`, format `FF-.0`: bitwise complement (R163). -/
  | snot (rd ra : Reg)
  /-- `SPOW2`, format `F--.K`: set to `2^e`, `e = k` (R164). -/
  | spow2 (rd : Reg) (k : Nat)
  -- BigInt operations and sampling (42_bigint.md).
  /-- `BISZ`, format `-F-.0`: is_zero (R182). -/
  | bisz (ra : Reg)
  /-- `BZERO`, format `F--.0`: set_zero (R183). -/
  | bzero (rd : Reg)
  /-- `BONE`, format `F--.0`: set_one (R184). -/
  | bone (rd : Reg)
  /-- `BMSB`, format `LF-.0`: most_significant_bit, `rd` in `l` (R186). -/
  | bmsb (rd ra : Reg)
  /-- `BSAMP`, format `F--.0`: sample (R192). -/
  | bsamp (rd : Reg)
  /-- `BSAMPNZ`, format `F--.0`: sample_non_zero (R193). -/
  | bsampnz (rd : Reg)
  /-- `BSAMPU`, format `FF-.0`: sample(upper), `ra` the upper bound (R194). -/
  | bsampu (rd ra : Reg)
  /-- `BSAMPR`, format `FFF.0`: sample(lower, upper) (R195). -/
  | bsampr (rd ra rb : Reg)
  /-- `BSAMPUI`, format `FF-.0`: sample_inclusive(upper) (R196). -/
  | bsampui (rd ra : Reg)
  /-- `BSAMPRI`, format `FFF.0`: sample_inclusive(lower, upper) (R197). -/
  | bsampri (rd ra rb : Reg)
  /-- `BMOV`, format `FF-.0`: copy a value register (R185). -/
  | bmov (rd ra : Reg)
  -- Add-group (43_addgroup.md).
  /-- `GADD`, format `FFF.0`: modular add (R216). -/
  | gadd (rd ra rb : Reg)
  /-- `GSUB`, format `FFF.0`: modular subtract (R217). -/
  | gsub (rd ra rb : Reg)
  /-- `GNEG`, format `FF-.0`: modular negate (R218). -/
  | gneg (rd ra : Reg)
  /-- `GMP2`, format `FF-.K`: multiply by `2^k` modulo `M`, carry-aware (R219). -/
  | gmp2 (rd ra : Reg) (k : Nat)
  /-- `GMP2CF`, format `FF-.K`: multiply by `2^k` modulo `M`, carry-free (R220). -/
  | gmp2cf (rd ra : Reg) (k : Nat)
  -- Field (44_field_mont.md, 45_field_inv_sqrt.md).
  /-- `FTOM`, format `FF-.0`: to_montgomery (R238). -/
  | ftom (rd ra : Reg)
  /-- `FFROMM`, format `FF-.0`: from_montgomery (R239). -/
  | ffromm (rd ra : Reg)
  /-- `FMUL`, format `FFF.0`: Montgomery multiplication (R237). -/
  | fmul (rd ra rb : Reg)
  /-- `FPOW`, format `FFF.W`: pow, `rb` the exponent in `f` (R241). -/
  | fpow (rd ra rb ws : Reg)
  /-- `FPOWL`, format `FFL.W`: pow, `rb` the exponent in `l` (R242). -/
  | fpowl (rd ra rb ws : Reg)
  /-- `FINV`, format `FF-.W`: field inversion (R261). -/
  | finv (rd ra ws : Reg)
  /-- `FSQRT`, format `FF-.W`: modular square root (R271). -/
  | fsqrt (rd ra ws : Reg)
  -- Points and scalar multiplication (46_point.md, 47_scalar_mul.md).
  /-- `PISINF`, format `-P-.0`: is_inf (R286). -/
  | pisinf (ra : Reg)
  /-- `PSETINF`, format `P--.0`: set_inf (R287). -/
  | psetinf (rd : Reg)
  /-- `PONC`, format `-P-.W`: on_curve (R288). -/
  | ponc (ra ws : Reg)
  /-- `PEQ`, format `-PP.W`: point equality (R290). -/
  | peq (ra rb ws : Reg)
  /-- `PNEG`, format `PP-.0`: negate (R291). -/
  | pneg (rd ra : Reg)
  /-- `PADDD`, format `PPP.W`: add_distinct (R292). -/
  | paddd (rd ra rb ws : Reg)
  /-- `PDBL`, format `PP-.W`: doubling (R293). -/
  | pdbl (rd ra ws : Reg)
  /-- `PADD`, format `PPP.W`: generic add (R294). -/
  | padd (rd ra rb ws : Reg)
  /-- `PSMUL`, format `PPF.W`: scalar multiplication, `ra` the point, `rb` the scalar (R321). -/
  | psmul (rd ra rb ws : Reg)
  /-- `PTOAFF`, format `P--.W`: to_affine in place (R295). -/
  | ptoaff (rd ws : Reg)
  /-- `PFROMAFF`, format `P--.0`: from_affine in place (R296). -/
  | pfromaff (rd : Reg)
  /-- `PMOV`, format `PP-.0`: copy a point register (R297). -/
  | pmov (rd ra : Reg)
deriving DecidableEq, Repr

/-! Pseudo-instructions (30_encoding.md R109): each expands to exactly one command. -/

/-- `SADDI fa, fb`: the document's `add_inplace`. -/
def Instr.saddi (fa fb : Reg) : Instr := .sadd fa fa fb
/-- `GADDI fa, fb`. -/
def Instr.gaddi (fa fb : Reg) : Instr := .gadd fa fa fb
/-- `GSUBI fa, fb`. -/
def Instr.gsubi (fa fb : Reg) : Instr := .gsub fa fa fb
/-- `GDBL fd, fa`: `add_self(a)` is `mul_pow2<1>` (43_addgroup.md R221). -/
def Instr.gdbl (fd fa : Reg) : Instr := .gmp2 fd fa 1
/-- `BPOW2 fd, e`. -/
def Instr.bpow2 (fd : Reg) (e : Nat) : Instr := .spow2 fd e
/-- `BCMP fa, fb`. -/
def Instr.bcmp (fa fb : Reg) : Instr := .scmp fa fb

end Sys2Proof
end

