-- ==== Sys2Proof/WellFormed.lean ====
section
/-!
DEFINITION. Well-formedness of a command: what the types of its operands do not already say. A register index is a
`Fin 16`, and no value of a 4-bit field is out of range (30_encoding.md R102); a count must fit the 12 bits of `imm`
(R100, R103).
-/

namespace Sys2Proof

/-- The count of a `.K` format fits `imm` (30_encoding.md R103); every other command is well formed. -/
def Instr.wellFormed : Instr → Bool
  | .nop => true
  | .cfg => true
  | .clrerr => true
  | .ladd _ _ _ => true
  | .ladc _ _ _ => true
  | .lsub _ _ _ => true
  | .lsbb _ _ _ => true
  | .lmul _ _ _ _ => true
  | .lclz _ _ => true
  | .lshl _ _ k => k < 4096
  | .lshr _ _ k => k < 4096
  | .sadd _ _ _ => true
  | .ssub _ _ _ => true
  | .sshl _ _ k => k < 4096
  | .sshr _ _ k => k < 4096
  | .scmp _ _ => true
  | .sand _ _ _ => true
  | .sor _ _ _ => true
  | .sxor _ _ _ => true
  | .snot _ _ => true
  | .spow2 _ k => k < 4096
  | .bisz _ => true
  | .bzero _ => true
  | .bone _ => true
  | .bmsb _ _ => true
  | .bsamp _ => true
  | .bsampnz _ => true
  | .bsampu _ _ => true
  | .bsampr _ _ _ => true
  | .bsampui _ _ => true
  | .bsampri _ _ _ => true
  | .bmov _ _ => true
  | .gadd _ _ _ => true
  | .gsub _ _ _ => true
  | .gneg _ _ => true
  | .gmp2 _ _ k => k < 4096
  | .gmp2cf _ _ k => k < 4096
  | .ftom _ _ => true
  | .ffromm _ _ => true
  | .fmul _ _ _ => true
  | .fpow _ _ _ _ => true
  | .fpowl _ _ _ _ => true
  | .finv _ _ _ => true
  | .fsqrt _ _ _ => true
  | .pisinf _ => true
  | .psetinf _ => true
  | .ponc _ _ => true
  | .peq _ _ _ => true
  | .pneg _ _ => true
  | .paddd _ _ _ _ => true
  | .pdbl _ _ _ => true
  | .padd _ _ _ _ => true
  | .psmul _ _ _ _ => true
  | .ptoaff _ _ => true
  | .pfromaff _ => true
  | .pmov _ _ => true

end Sys2Proof
end

