-- ==== Sys2Proof/Decode.lean ====
section
/-!
DEFINITION. Decoding a command word (30_encoding.md R100 to R106), total, rejecting by name; then the encoder written
from the same tables (R104: `cmd = op*2^24 + rd*2^20 + ra*2^16 + rb*2^12 + imm`).
-/

namespace Sys2Proof

/-- Why a word is illegal: the cases (a) to (d) of 30_encoding.md R106. All raise `ILLEGAL_CMD`. -/
inductive DecodeReject where
  /-- (a) `op` is not in the table of R104. -/
  | unassignedOp
  /-- (b) a register field the format marks `-` is not 0. -/
  | registerFieldNotZero
  /-- (c) the format is `.0` and `imm` is not 0. -/
  | immNotZero
  /-- (d) the format is `.H` or `.W` and `imm[11:4]` is not 0. -/
  | immHighNotZero
deriving DecidableEq, Repr

/-- The five fields of a command word (30_encoding.md R100). -/
structure Fields where
  op : Nat
  rd : Nat
  ra : Nat
  rb : Nat
  imm : Nat
deriving DecidableEq, Repr

/-- Cut a command word into its fields (30_encoding.md R100). -/
def fieldsOf (w : Word32) : Fields :=
  let v := w.toNat
  ⟨v / 2 ^ 24, v / 2 ^ 20 % 16, v / 2 ^ 16 % 16, v / 2 ^ 12 % 16, v % 2 ^ 12⟩

/-- The register a 4-bit field names (30_encoding.md R102); of a longer field, the one its low 4 bits name (R103). -/
def regOf (v : Nat) : Reg := ⟨v % 16, Nat.mod_lt _ (by decide)⟩

/-- Format `.K` (30_encoding.md R101, R106): the unused register fields must be zero, `imm` is a count. -/
def formK (unused : List Nat) (i : Instr) : Except DecodeReject Instr :=
  if unused.all (· == 0) then .ok i else .error .registerFieldNotZero

/-- Format `.0`: the unused register fields and `imm` must be zero. -/
def form0 (unused : List Nat) (imm : Nat) (i : Instr) : Except DecodeReject Instr :=
  if unused.all (· == 0) then if imm = 0 then .ok i else .error .immNotZero
  else .error .registerFieldNotZero

/-- Formats `.H` and `.W`: the unused register fields and `imm[11:4]` must be zero. -/
def formHW (unused : List Nat) (imm : Nat) (i : Instr) : Except DecodeReject Instr :=
  if unused.all (· == 0) then if imm / 16 = 0 then .ok i else .error .immHighNotZero
  else .error .registerFieldNotZero

/-- The command a word's fields name (30_encoding.md R104, R106). -/
def decodeFields (f : Fields) : Except DecodeReject Instr :=
  match f.op with
  | 0x00 => form0 [f.rd, f.ra, f.rb] f.imm .nop
  | 0x01 => form0 [f.rd, f.ra, f.rb] f.imm .cfg
  | 0x02 => form0 [f.rd, f.ra, f.rb] f.imm .clrerr
  | 0x10 => form0 [] f.imm (.ladd (regOf f.rd) (regOf f.ra) (regOf f.rb))
  | 0x11 => form0 [] f.imm (.ladc (regOf f.rd) (regOf f.ra) (regOf f.rb))
  | 0x12 => form0 [] f.imm (.lsub (regOf f.rd) (regOf f.ra) (regOf f.rb))
  | 0x13 => form0 [] f.imm (.lsbb (regOf f.rd) (regOf f.ra) (regOf f.rb))
  | 0x14 => formHW [] f.imm (.lmul (regOf f.rd) (regOf f.ra) (regOf f.rb) (regOf f.imm))
  | 0x15 => form0 [f.rb] f.imm (.lclz (regOf f.rd) (regOf f.ra))
  | 0x16 => formK [f.rb] (.lshl (regOf f.rd) (regOf f.ra) f.imm)
  | 0x17 => formK [f.rb] (.lshr (regOf f.rd) (regOf f.ra) f.imm)
  | 0x20 => form0 [] f.imm (.sadd (regOf f.rd) (regOf f.ra) (regOf f.rb))
  | 0x21 => form0 [] f.imm (.ssub (regOf f.rd) (regOf f.ra) (regOf f.rb))
  | 0x22 => formK [f.rb] (.sshl (regOf f.rd) (regOf f.ra) f.imm)
  | 0x23 => formK [f.rb] (.sshr (regOf f.rd) (regOf f.ra) f.imm)
  | 0x24 => form0 [f.rd] f.imm (.scmp (regOf f.ra) (regOf f.rb))
  | 0x25 => form0 [] f.imm (.sand (regOf f.rd) (regOf f.ra) (regOf f.rb))
  | 0x26 => form0 [] f.imm (.sor (regOf f.rd) (regOf f.ra) (regOf f.rb))
  | 0x27 => form0 [] f.imm (.sxor (regOf f.rd) (regOf f.ra) (regOf f.rb))
  | 0x28 => form0 [f.rb] f.imm (.snot (regOf f.rd) (regOf f.ra))
  | 0x29 => formK [f.ra, f.rb] (.spow2 (regOf f.rd) f.imm)
  | 0x30 => form0 [f.rd, f.rb] f.imm (.bisz (regOf f.ra))
  | 0x31 => form0 [f.ra, f.rb] f.imm (.bzero (regOf f.rd))
  | 0x32 => form0 [f.ra, f.rb] f.imm (.bone (regOf f.rd))
  | 0x33 => form0 [f.rb] f.imm (.bmsb (regOf f.rd) (regOf f.ra))
  | 0x34 => form0 [f.ra, f.rb] f.imm (.bsamp (regOf f.rd))
  | 0x35 => form0 [f.ra, f.rb] f.imm (.bsampnz (regOf f.rd))
  | 0x36 => form0 [f.rb] f.imm (.bsampu (regOf f.rd) (regOf f.ra))
  | 0x37 => form0 [] f.imm (.bsampr (regOf f.rd) (regOf f.ra) (regOf f.rb))
  | 0x38 => form0 [f.rb] f.imm (.bsampui (regOf f.rd) (regOf f.ra))
  | 0x39 => form0 [] f.imm (.bsampri (regOf f.rd) (regOf f.ra) (regOf f.rb))
  | 0x3A => form0 [f.rb] f.imm (.bmov (regOf f.rd) (regOf f.ra))
  | 0x40 => form0 [] f.imm (.gadd (regOf f.rd) (regOf f.ra) (regOf f.rb))
  | 0x41 => form0 [] f.imm (.gsub (regOf f.rd) (regOf f.ra) (regOf f.rb))
  | 0x42 => form0 [f.rb] f.imm (.gneg (regOf f.rd) (regOf f.ra))
  | 0x43 => formK [f.rb] (.gmp2 (regOf f.rd) (regOf f.ra) f.imm)
  | 0x44 => formK [f.rb] (.gmp2cf (regOf f.rd) (regOf f.ra) f.imm)
  | 0x50 => form0 [f.rb] f.imm (.ftom (regOf f.rd) (regOf f.ra))
  | 0x51 => form0 [f.rb] f.imm (.ffromm (regOf f.rd) (regOf f.ra))
  | 0x52 => form0 [] f.imm (.fmul (regOf f.rd) (regOf f.ra) (regOf f.rb))
  | 0x53 => formHW [] f.imm (.fpow (regOf f.rd) (regOf f.ra) (regOf f.rb) (regOf f.imm))
  | 0x54 => formHW [] f.imm (.fpowl (regOf f.rd) (regOf f.ra) (regOf f.rb) (regOf f.imm))
  | 0x55 => formHW [f.rb] f.imm (.finv (regOf f.rd) (regOf f.ra) (regOf f.imm))
  | 0x56 => formHW [f.rb] f.imm (.fsqrt (regOf f.rd) (regOf f.ra) (regOf f.imm))
  | 0x60 => form0 [f.rd, f.rb] f.imm (.pisinf (regOf f.ra))
  | 0x61 => form0 [f.ra, f.rb] f.imm (.psetinf (regOf f.rd))
  | 0x62 => formHW [f.rd, f.rb] f.imm (.ponc (regOf f.ra) (regOf f.imm))
  | 0x63 => formHW [f.rd] f.imm (.peq (regOf f.ra) (regOf f.rb) (regOf f.imm))
  | 0x64 => form0 [f.rb] f.imm (.pneg (regOf f.rd) (regOf f.ra))
  | 0x65 => formHW [] f.imm (.paddd (regOf f.rd) (regOf f.ra) (regOf f.rb) (regOf f.imm))
  | 0x66 => formHW [f.rb] f.imm (.pdbl (regOf f.rd) (regOf f.ra) (regOf f.imm))
  | 0x67 => formHW [] f.imm (.padd (regOf f.rd) (regOf f.ra) (regOf f.rb) (regOf f.imm))
  | 0x68 => formHW [] f.imm (.psmul (regOf f.rd) (regOf f.ra) (regOf f.rb) (regOf f.imm))
  | 0x69 => formHW [f.ra, f.rb] f.imm (.ptoaff (regOf f.rd) (regOf f.imm))
  | 0x6A => form0 [f.ra, f.rb] f.imm (.pfromaff (regOf f.rd))
  | 0x6B => form0 [f.rb] f.imm (.pmov (regOf f.rd) (regOf f.ra))
  | _ => .error .unassignedOp

/-- Decode a command word. -/
def decode (w : Word32) : Except DecodeReject Instr := decodeFields (fieldsOf w)

/-- Put fields together (30_encoding.md R104). -/
def pack (op : Nat) (rd ra rb : Reg) (imm : Nat) : Word32 :=
  BitVec.ofNat 32 (op * 2 ^ 24 + rd.val * 2 ^ 20 + ra.val * 2 ^ 16 + rb.val * 2 ^ 12 + imm)

/-- The command word of a well-formed command (30_encoding.md R104); unused fields are 0 (R106). -/
def encode : Instr → Word32
  | .nop => pack 0x00 0 0 0 0
  | .cfg => pack 0x01 0 0 0 0
  | .clrerr => pack 0x02 0 0 0 0
  | .ladd rd ra rb => pack 0x10 rd ra rb 0
  | .ladc rd ra rb => pack 0x11 rd ra rb 0
  | .lsub rd ra rb => pack 0x12 rd ra rb 0
  | .lsbb rd ra rb => pack 0x13 rd ra rb 0
  | .lmul rd ra rb rh => pack 0x14 rd ra rb rh
  | .lclz rd ra => pack 0x15 rd ra 0 0
  | .lshl rd ra k => pack 0x16 rd ra 0 k
  | .lshr rd ra k => pack 0x17 rd ra 0 k
  | .sadd rd ra rb => pack 0x20 rd ra rb 0
  | .ssub rd ra rb => pack 0x21 rd ra rb 0
  | .sshl rd ra k => pack 0x22 rd ra 0 k
  | .sshr rd ra k => pack 0x23 rd ra 0 k
  | .scmp ra rb => pack 0x24 0 ra rb 0
  | .sand rd ra rb => pack 0x25 rd ra rb 0
  | .sor rd ra rb => pack 0x26 rd ra rb 0
  | .sxor rd ra rb => pack 0x27 rd ra rb 0
  | .snot rd ra => pack 0x28 rd ra 0 0
  | .spow2 rd k => pack 0x29 rd 0 0 k
  | .bisz ra => pack 0x30 0 ra 0 0
  | .bzero rd => pack 0x31 rd 0 0 0
  | .bone rd => pack 0x32 rd 0 0 0
  | .bmsb rd ra => pack 0x33 rd ra 0 0
  | .bsamp rd => pack 0x34 rd 0 0 0
  | .bsampnz rd => pack 0x35 rd 0 0 0
  | .bsampu rd ra => pack 0x36 rd ra 0 0
  | .bsampr rd ra rb => pack 0x37 rd ra rb 0
  | .bsampui rd ra => pack 0x38 rd ra 0 0
  | .bsampri rd ra rb => pack 0x39 rd ra rb 0
  | .bmov rd ra => pack 0x3A rd ra 0 0
  | .gadd rd ra rb => pack 0x40 rd ra rb 0
  | .gsub rd ra rb => pack 0x41 rd ra rb 0
  | .gneg rd ra => pack 0x42 rd ra 0 0
  | .gmp2 rd ra k => pack 0x43 rd ra 0 k
  | .gmp2cf rd ra k => pack 0x44 rd ra 0 k
  | .ftom rd ra => pack 0x50 rd ra 0 0
  | .ffromm rd ra => pack 0x51 rd ra 0 0
  | .fmul rd ra rb => pack 0x52 rd ra rb 0
  | .fpow rd ra rb ws => pack 0x53 rd ra rb ws
  | .fpowl rd ra rb ws => pack 0x54 rd ra rb ws
  | .finv rd ra ws => pack 0x55 rd ra 0 ws
  | .fsqrt rd ra ws => pack 0x56 rd ra 0 ws
  | .pisinf ra => pack 0x60 0 ra 0 0
  | .psetinf rd => pack 0x61 rd 0 0 0
  | .ponc ra ws => pack 0x62 0 ra 0 ws
  | .peq ra rb ws => pack 0x63 0 ra rb ws
  | .pneg rd ra => pack 0x64 rd ra 0 0
  | .paddd rd ra rb ws => pack 0x65 rd ra rb ws
  | .pdbl rd ra ws => pack 0x66 rd ra 0 ws
  | .padd rd ra rb ws => pack 0x67 rd ra rb ws
  | .psmul rd ra rb ws => pack 0x68 rd ra rb ws
  | .ptoaff rd ws => pack 0x69 rd 0 0 ws
  | .pfromaff rd => pack 0x6A rd 0 0 0
  | .pmov rd ra => pack 0x6B rd ra 0 0

/-- What the decoder reads from an instruction of `nbits` bits `w`, numbered as spec/opcode_table.json numbers them
(one 32-bit word per command, 30_encoding.md R107). -/
def decodeTableWord (nbits w : Nat) : Option Instr :=
  (decode (BitVec.ofNat 32 (w % 2 ^ nbits))).toOption

end Sys2Proof
end

