-- ==== Sys2Proof/Machine/State.lean ====
section
/-!
DEFINITION. The state of the core as plain data (10_state.md R30), the host's actions, and the state after reset.
Values are numbers: a limb below `2^W`, a value register below `2^n` (00_scope.md R11; log entry 2); the writes of
Machine/Ops.lean keep them there and `Sys2Proof.Safety.InRange` says so.
-/

namespace Sys2Proof.Machine

/-- The fault codes of the core (60_exceptions.md R341). A fault of the core is architectural: a NEXT state with
`STATUS.ERR` and `ERRCMD` written, never a stop of the model. -/
inductive FaultCode where
  | illegalCmd
  | nocfg
  | precondWs
  | precondOperand
  | precondRange
  | precondVariant
  | badcfg
  | undefinedInverse
deriving DecidableEq, Repr

/-- The three-way result of a compare (10_state.md R39). -/
inductive Cmp where
  | eq
  | lt
  | gt
deriving DecidableEq, Repr

/-- The fields of `STATUS` (10_state.md R37); the reserved bits read as 0 and are never written, so they are no field
(log entry 24). The 32-bit word the host reads is `Status.word` (Machine/Flags.lean). -/
structure Status where
  /-- `C`, the carry or borrow out (R38). -/
  c : Bool
  /-- `CMP`, the result of the last `SCMP` (R39). -/
  cmp : Cmp
  /-- `T`, the Boolean result (R49). -/
  t : Bool
  /-- `CFGOK`, configuration committed (R50). -/
  cfgok : Bool
  /-- `ERR`, the fault code, 0 for none (R51). -/
  err : BitVec 8
deriving DecidableEq, Repr

/-- A point register: Jacobian coordinates (10_state.md R33, R48). -/
structure Point where
  x : Nat
  y : Nat
  z : Nat
deriving DecidableEq, Repr

/-- What the host does between commands (20_memory.md R71, R72, R74; 70_reset_and_hazards.md R370). -/
inductive HostAction where
  /-- `HostWrite(sel, i, v)` (R71). -/
  | write (sel : Sel) (i v : Nat)
  /-- `HostRead(sel, i)` (R72). -/
  | read (sel : Sel) (i : Nat)
  /-- `HostIssue(cmd)` (R74). -/
  | issue (w : Word32)
  /-- The reset input is asserted (R370). -/
  | reset
deriving DecidableEq, Repr

/-- The state. Every register the spec names, then the model's own four fields (log entries 1, 5, 6). -/
structure State where
  /-- Limb registers `l[0..15]` (10_state.md R31). -/
  l : Vector Nat 16
  /-- Value registers `f[0..15]`, each as its value `val(f[i])` (R32). -/
  f : Vector Nat 16
  /-- Point registers `p[0..15]` (R33). -/
  p : Vector Point 16
  /-- `MOD` (R40). -/
  mod : Nat
  /-- `MPRIME` (R41). -/
  mprime : Nat
  /-- `RR` (R42). -/
  rr : Nat
  /-- `RONE` (R43). -/
  rone : Nat
  /-- `CA` (R44). -/
  ca : Nat
  /-- `CB` (R45). -/
  cb : Nat
  /-- `STATUS` (R37). -/
  status : Status
  /-- `ERRCMD` (R52). -/
  errcmd : Word32
  /-- The model's own: the parameters of the instance (00_scope.md R6); no step writes it. -/
  geom : Geometry
  /-- The model's own: how many free values have been taken. -/
  draws : Nat
  /-- The model's own: the host's pending actions, oldest first (10_state.md R55). -/
  hostIn : List HostAction
  /-- The model's own: what host reads have returned, oldest first (20_memory.md R72). -/
  hostOut : List Nat
deriving DecidableEq, Repr

/-- Limb width `W` of the state's instance (00_scope.md R6). -/
def State.W (s : State) : Nat := s.geom.W

/-- Width `n = N*W` of a value register (00_scope.md R6). -/
def State.n (s : State) : Nat := s.geom.n

/-- Why the model stops on a fault. No command does: the core's own faults are architectural (60_exceptions.md R345). -/
inductive Fault where
  /-- A host read of an element that is not in the host register space, or not readable (20_memory.md R70, R72).
  Raised by `hostRead`. Safe: the spec says nothing of what such a read returns. -/
  | noSuchElement
deriving DecidableEq, Repr

/-- Why the model refuses. -/
inductive Refusal where
  /-- An instruction without a meaning, by its mnemonic. Raised by no arm: every command has its meaning. Safe. -/
  | notModelled (mnemonic : String)
  /-- A host write of a value that does not fit the element's width (20_memory.md R71, R78, R79: outside the spec).
  Raised by `hostWrite`. Safe. -/
  | hostAccessWidth
  /-- A physical access at an address where the host address map places no element (20_memory.md R78: outside the spec,
  "model: refuse"). Raised by `busTo`. Safe. -/
  | noElementAt
  /-- A physical access at an element's address that is not one naturally aligned word of the element's width
  (20_memory.md R78: outside the spec, "model: refuse"). Raised by `busTo`. Safe. -/
  | notAlignedWord
deriving DecidableEq, Repr

/-- `STATUS` after reset: the word 0 (10_state.md R54). -/
def Status.reset : Status := ⟨false, .eq, false, false, 0⟩

/-- The state after reset of an instance (10_state.md R54). The spec leaves every data and configuration register
unspecified: DESIGN CHOICE zero (log entry 3, unsafe). -/
def State.resetOf (g : Geometry) : State where
  l := Vector.replicate 16 0
  f := Vector.replicate 16 0
  p := Vector.replicate 16 ⟨0, 0, 0⟩
  mod := 0
  mprime := 0
  rr := 0
  rone := 0
  ca := 0
  cb := 0
  status := Status.reset
  errcmd := 0
  geom := g
  draws := 0
  hostIn := []
  hostOut := []

/-- The machine right after reset (70_reset_and_hazards.md R370), of the instance `Config.geometry`. -/
def State.reset : State := State.resetOf Config.geometry

end Sys2Proof.Machine
end

