-- ==== Sys2Proof/Machine/LimbArith.lean ====
section
/-!
DEFINITION. Numbers, limbs and bytes (00_scope.md R11; 20_memory.md R75 to R77), and the limb primitives of
40_limb.md R130 to R135. `W` is the limb width.
-/

namespace Sys2Proof.Machine

/-- `val(a)` of a limb sequence written least significant limb first (00_scope.md R11, 20_memory.md R75). -/
def ofLimbs (W : Nat) : List Nat → Nat
  | [] => 0
  | x :: xs => x + 2 ^ W * ofLimbs W xs

/-- The literal `{t_(N-1), ..., t_0}`: most significant limb first at the call site, stored least significant first
(20_memory.md R77, 30_encoding.md R110). -/
def literal (W : Nat) (ts : List Nat) : Nat := ofLimbs W ts.reverse

/-- `seq(v).limb[i]` (00_scope.md R11). -/
def limbOf (W v i : Nat) : Nat := v / 2 ^ (W * i) % 2 ^ W

/-- The `N` limbs of a value, least significant first. -/
def toLimbs (W N v : Nat) : List Nat := (List.range N).map (limbOf W v)

/-- The value with limb `i` replaced by `x`, every other limb kept (20_memory.md R71). -/
def setLimb (W v i x : Nat) : Nat :=
  v / 2 ^ (W * (i + 1)) * 2 ^ (W * (i + 1)) + x * 2 ^ (W * i) + v % 2 ^ (W * i)

/-- Byte `j` of a value, `val[8j+7 : 8j]` (20_memory.md R76). -/
def byteOf (v j : Nat) : Nat := v / 2 ^ (8 * j) % 2 ^ 8

/-- 1-based position of the highest set bit, 0 for 0 (41_limbseq.md R165). -/
def bitLength (v : Nat) : Nat := if v = 0 then 0 else Nat.log2 v + 1

/-- `addc(a, b, cin)` (40_limb.md R130): the sum modulo `2^W` and the carry out. -/
def addc (W a b : Nat) (cin : Bool) : Nat × Bool :=
  let s := a + b + cin.toNat
  (s % 2 ^ W, decide (2 ^ W ≤ s))

/-- `subb(a, b, bin)` (40_limb.md R131): the difference modulo `2^W` and the borrow out. -/
def subb (W a b : Nat) (bin : Bool) : Nat × Bool :=
  ((a + 2 ^ W - (b + bin.toNat)) % 2 ^ W, decide (a < b + bin.toNat))

/-- `mulw(a, b)` (40_limb.md R132): the product's high and low half. -/
def mulw (W a b : Nat) : Nat × Nat := (a * b / 2 ^ W, a * b % 2 ^ W)

/-- `clz(a)` (40_limb.md R133): `W` for 0, else the zero bits above the highest set bit. -/
def clz (W a : Nat) : Nat := W - bitLength a

/-- `shl(a, k)` (40_limb.md R134): 0 for `k ≥ W`. -/
def shl (W a k : Nat) : Nat := if k < W then a * 2 ^ k % 2 ^ W else 0

/-- `shr(a, k)` (40_limb.md R134): 0 for `k ≥ W`. -/
def shr (W a k : Nat) : Nat := if k < W then a / 2 ^ k else 0

/-- `mac(t, a, b, c)` (40_limb.md R135): high and low limb of `t + a*b + c`. -/
def mac (W t a b c : Nat) : Nat × Nat := ((t + a * b + c) / 2 ^ W, (t + a * b + c) % 2 ^ W)

end Sys2Proof.Machine
end

