-- ==== Sys2Proof/Machine/Flags.lean ====
section
/-!
DEFINITION. `STATUS` (10_state.md R37 to R39, R49 to R51): the codes of its fields, its 32-bit word, one writer per
field; and the checks of `CFG` (48_system.md R332) that `CFGOK` records.
-/

namespace Sys2Proof.Machine

/-- The value of `STATUS.CMP` (10_state.md R39). -/
def Cmp.code : Cmp → Nat
  | .eq => 0
  | .lt => 1
  | .gt => 2

/-- The value of `STATUS.ERR` (60_exceptions.md R341). -/
def FaultCode.code : FaultCode → BitVec 8
  | .illegalCmd => 1
  | .nocfg => 2
  | .precondWs => 3
  | .precondOperand => 4
  | .precondRange => 5
  | .precondVariant => 6
  | .badcfg => 7
  | .undefinedInverse => 8

/-- The word the host reads from `STATUS` (10_state.md R37): bit 0 `C`, bits 2:1 `CMP`, bit 3 `T`, bit 4 `CFGOK`,
bits 15:8 `ERR`, the others 0. -/
def Status.word (q : Status) : Word32 :=
  BitVec.ofNat 32
    (q.c.toNat + q.cmp.code * 2 + q.t.toNat * 2 ^ 3 + q.cfgok.toNat * 2 ^ 4 + q.err.toNat * 2 ^ 8)

/-- `STATUS.C <- v` (R38). -/
def State.setC (v : Bool) (s : State) : State := { s with status := { s.status with c := v } }

/-- `STATUS.CMP <- v` (R39). -/
def State.setCmp (v : Cmp) (s : State) : State := { s with status := { s.status with cmp := v } }

/-- `STATUS.T <- v` (R49). -/
def State.setT (v : Bool) (s : State) : State := { s with status := { s.status with t := v } }

/-- `STATUS.CFGOK <- v` (R50). -/
def State.setCfgok (v : Bool) (s : State) : State := { s with status := { s.status with cfgok := v } }

/-- The seven checks of `CFG` (48_system.md R332), in the order of its table. -/
def State.configChecks (s : State) : Bool :=
  s.mod % 2 == 1 &&
  decide (3 ≤ s.mod) &&
  (s.mprime * limbOf s.W s.mod 0 + 1) % 2 ^ s.W == 0 &&
  decide (s.rr < s.mod) &&
  decide (s.rone < s.mod) &&
  decide (s.ca < s.mod) &&
  decide (s.cb < s.mod)

end Sys2Proof.Machine
end

