-- ==== Sys2Proof/Machine/SeqArith.lean ====
section
/-!
DEFINITION. The functions on limb sequences of 41_limbseq.md R150 to R165, on values: `n` is the width in bits. Where
the spec gives a limb procedure and an equivalent equation on values, the equation is the definition here and the
procedure stands in Machine/Reference.lean (log entry 2).
-/

namespace Sys2Proof.Machine

/-- `SeqAdd(a, b)` (R150): `val(out) + c*2^n = val(a) + val(b)`. -/
def seqAdd (n a b : Nat) : Nat × Bool := ((a + b) % 2 ^ n, decide (2 ^ n ≤ a + b))

/-- `SeqSub(a, b)` (R151): `val(out) - w*2^n = val(a) - val(b)`. -/
def seqSub (n a b : Nat) : Nat × Bool := ((a + 2 ^ n - b) % 2 ^ n, decide (a < b))

/-- `SeqCmp(a, b)` (R152): the comparison of the values. -/
def seqCmp (a b : Nat) : Cmp := if a < b then .lt else if a = b then .eq else .gt

/-- `SeqShl(a, K)` (R153): 0 for `K ≥ n`. -/
def seqShl (n a K : Nat) : Nat := if K < n then a * 2 ^ K % 2 ^ n else 0

/-- `SeqShr(a, K)` (R154): 0 for `K ≥ n`. -/
def seqShr (n a K : Nat) : Nat := if K < n then a / 2 ^ K else 0

/-- Bitwise AND (R160). -/
def seqAnd (a b : Nat) : Nat := a &&& b

/-- Bitwise OR (R161). -/
def seqOr (a b : Nat) : Nat := a ||| b

/-- Bitwise exclusive OR (R162). -/
def seqXor (a b : Nat) : Nat := a ^^^ b

/-- Bitwise complement of all `n` bits (R163). -/
def seqNot (n a : Nat) : Nat := 2 ^ n - 1 - a

/-- `SeqIsZero(a)` (R165). -/
def seqIsZero (a : Nat) : Bool := a == 0

/-- `SeqMsb(a)` (R165): the bit length of the value. -/
def seqMsb (a : Nat) : Nat := bitLength a

end Sys2Proof.Machine
end

