-- ==== Sys2Proof/Machine/GroupArith.lean ====
section
/-!
DEFINITION. The add-group functions of 43_addgroup.md R211 to R215, as the literal algorithms, so that they have a
value on every register content (R210). `n` is the width, `M` the modulus.
-/

namespace Sys2Proof.Machine

/-- The conditional subtraction of `M` that ends `GAdd` and each step of `GMp2` (R211, R214): borrow ignored. -/
def reduceOnce (n M : Nat) (carry : Bool) (v : Nat) : Nat :=
  if carry || seqCmp v M != .lt then (seqSub n v M).1 else v

/-- `GAdd(a, b)` (R211). -/
def gAdd (n M a b : Nat) : Nat := reduceOnce n M (seqAdd n a b).2 (seqAdd n a b).1

/-- `GSub(a, b)` (R212): on borrow, add `M`, carry ignored. -/
def gSub (n M a b : Nat) : Nat :=
  if (seqSub n a b).2 then (seqAdd n (seqSub n a b).1 M).1 else (seqSub n a b).1

/-- `GNeg(a)` (R213). -/
def gNeg (n M a : Nat) : Nat := if seqIsZero a then 0 else (seqSub n M a).1

/-- Whether the top bit of an `n`-bit value is set (R214, R220): `v.limb[N-1][W-1]`. -/
def topBit (n v : Nat) : Bool := v.testBit (n - 1)

/-- One iteration of `GMp2` (R214): shift left one bit, subtract `M` if the bit shifted out is 1 or the result is not
below `M`. -/
def gDouble (n M t : Nat) : Nat := reduceOnce n M (topBit n t) (seqShl n t 1)

/-- `GMp2(a, K)` (R214): `K` iterations. -/
def gMp2 (n M a : Nat) : Nat → Nat
  | 0 => a
  | K + 1 => gDouble n M (gMp2 n M a K)

/-- One iteration of `GMp2Cf` (R215): the bit shifted out is not examined. -/
def gDoubleCf (n M t : Nat) : Nat := reduceOnce n M false (seqShl n t 1)

/-- `GMp2Cf(a, K)` (R215; 90_conflicts.md C1: the per-bit loop). -/
def gMp2Cf (n M a : Nat) : Nat → Nat
  | 0 => a
  | K + 1 => gDoubleCf n M (gMp2Cf n M a K)

end Sys2Proof.Machine
end

