-- ==== Sys2Proof/Machine/MontArith.lean ====
section
/-!
DEFINITION. The Montgomery functions of 44_field_mont.md and 45_field_inv_sqrt.md: the product by its contract (R232,
R236: the algorithm is not observable), exponentiation (R240), the inverse by its contract (R260) and the square root
by the reference procedure (R272). `n` is the width, `M` the modulus. Each is meant inside its contract; the commands
of Machine/FieldCmds.lean and Machine/PointCmds.lean take a free value outside it (log entries 10 to 16).
-/

namespace Sys2Proof.Machine

/-- `R⁻¹ mod M` for odd `M`: `(M+1)/2` is the inverse of 2, and `R = 2^n` (00_scope.md R6). DEDUCED, log entry 11. -/
def rInv (n M : Nat) : Nat := ((M + 1) / 2) ^ n % M

/-- `MontMul(a, b) = a*b*R⁻¹ mod M` (R232). -/
def montMul (n M a b : Nat) : Nat := a * b * rInv n M % M

/-- `mont(1) = R mod M`, what `RONE` must hold (00_scope.md R8, 10_state.md R43). -/
def montOne (n M : Nat) : Nat := 2 ^ n % M

/-- `R² mod M`, what `RR` must hold (00_scope.md R8, 10_state.md R42). -/
def montRR (n M : Nat) : Nat := 2 ^ (2 * n) % M

/-- The loop of `Pow` (R240) over the exponent's bits `i-1 .. 0`, `acc` the running value. -/
def powLoop (n M base e acc : Nat) : Nat → Nat
  | 0 => acc
  | i + 1 =>
    let sq := montMul n M acc acc
    powLoop n M base e (if e.testBit i then montMul n M sq base else sq) i

/-- `Pow(base, e)` (R240): square-and-multiply from the top bit down, starting from `one` (the register `RONE`). When
`one` is not `R mod M` the result depends on the scanning direction, which R240 says the document does not fix: the
direction of R240's reference is the model's choice there (DESIGN CHOICE, log entry 25, unsafe). -/
def montPow (n M one base e : Nat) : Nat := powLoop n M base e one (bitLength e)

/-- Extended Euclid modulo `M`: `t0`, `t1` are the multiples of `a` that `r0`, `r1` stand for. -/
def modInvLoop (M : Nat) : Nat → Nat → Nat → Nat → Nat → Nat
  | 0, _, _, t0, _ => t0
  | fuel + 1, r0, r1, t0, t1 =>
    if r1 = 0 then t0
    else modInvLoop M fuel r1 (r0 % r1) t1 ((t0 + (M - r0 / r1 * t1 % M)) % M)

/-- `a⁻¹ mod M` for `gcd(a, M) = 1` (00_scope.md R10). -/
def modInv (M a : Nat) : Nat := modInvLoop M (a + 1) M a 0 1

/-- `MontInv(a) = a⁻¹ * R² mod M` (R260). -/
def montInv (n M a : Nat) : Nat := modInv M a * 2 ^ (2 * n) % M

/-- `x^(2^k)` by `k` successive squarings (R272). -/
def montSquarings (n M x : Nat) : Nat → Nat
  | 0 => x
  | k + 1 => montMul n M (montSquarings n M x k) (montSquarings n M x k)

/-- The exponent of 2 in `v`, for `v` not 0 and `fuel` at least its bit length (`s` of `M - 1 = q*2^s`, R272). -/
def twoPart : Nat → Nat → Nat
  | 0, _ => 0
  | fuel + 1, v => if v % 2 = 1 then 0 else twoPart fuel (v / 2) + 1

/-- Euler's criterion (R271, R272): `Pow(a, (M-1)/2) = ONE`. -/
def isResidue (n M a : Nat) : Bool := montPow n M (montOne n M) a ((M - 1) / 2) == montOne n M

/-- The first non-residue from `z` on (R272 draws one; which one is used is not observable, log entry 15). -/
def findNonresidue (n M : Nat) : Nat → Nat → Nat
  | 0, z => z
  | fuel + 1, z => if isResidue n M z then findNonresidue n M fuel (z + 1) else z

/-- The least `i` from `i` on with `t^(2^i) = ONE`, `x = t^(2^i)` (R272); at most `fuel` tries. -/
def orderLog (n M : Nat) : Nat → Nat → Nat → Nat
  | 0, _, i => i
  | fuel + 1, x, i => if x = montOne n M then i else orderLog n M fuel (montMul n M x x) (i + 1)

/-- The loop of Tonelli and Shanks (R272); `m` strictly decreases, so `m` iterations suffice. -/
def sqrtLoop (n M : Nat) : Nat → Nat → Nat → Nat → Nat → Nat
  | 0, _, r, _, _ => r
  | fuel + 1, c, r, t, m =>
    if t = montOne n M then r
    else
      let i := orderLog n M m t 0
      let b := montSquarings n M c (m - i - 1)
      let c' := montMul n M b b
      sqrtLoop n M fuel c' (montMul n M r b) (montMul n M t c') i

/-- One square root of the residue `a` modulo the odd prime `M` (R272): the short branch for `M = 3 mod 4`, else the
loop. -/
def montSqrt (n M a : Nat) : Nat :=
  let one := montOne n M
  if M % 4 = 3 then montPow n M one a ((M + 1) / 4)
  else
    let s := twoPart (M - 1) (M - 1)
    let q := (M - 1) / 2 ^ s
    let z := findNonresidue n M M 1
    sqrtLoop n M s (montPow n M one z q) (montPow n M one a ((q + 1) / 2)) (montPow n M one a q) s

end Sys2Proof.Machine
end

