-- ==== Sys2Proof/Machine/PointArith.lean ====
section
/-!
DEFINITION. The point functions of 46_point.md R281 to R289 and the scalar multiplication of 47_scalar_mul.md R321,
R322, on values: `n` the width, `M` the modulus, `ca`, `cb` the curve coefficients in Montgomery form. Each is meant
for coordinates below `M` (R283 d).
-/

namespace Sys2Proof.Machine

/-- `IsInf(P)` (R281): `z = 0`; `x` and `y` are not looked at. -/
def Point.isInf (P : Point) : Bool := seqIsZero P.z

/-- `u²` in the shorthand of 46_point.md. -/
def montSq (n M u : Nat) : Nat := montMul n M u u

/-- `u³ = u² ⊗ u`. -/
def montCube (n M u : Nat) : Nat := montMul n M (montSq n M u) u

/-- The cross-multiplied coordinates `A, B, C, D` of R284. -/
structure Cross where
  A : Nat
  B : Nat
  C : Nat
  D : Nat
deriving DecidableEq, Repr

/-- `ABCD(P, Q)` (R284). -/
def abcd (n M : Nat) (P Q : Point) : Cross where
  A := montMul n M P.x (montSq n M Q.z)
  B := montMul n M Q.x (montSq n M P.z)
  C := montMul n M P.y (montCube n M Q.z)
  D := montMul n M Q.y (montCube n M P.z)

/-- `AddInner(P, Q, A, B, C, D)` (R285). -/
def addInner (n M : Nat) (P Q : Point) (k : Cross) : Point :=
  let E := gSub n M k.B k.A
  let F := gSub n M k.D k.C
  let E2 := montSq n M E
  let E3 := montCube n M E
  let G := montMul n M k.A E2
  let x3 := gSub n M (gSub n M (gSub n M (montSq n M F) G) G) E3
  { x := x3
    y := gSub n M (montMul n M F (gSub n M G x3)) (montMul n M k.C E3)
    z := montMul n M (montMul n M P.z Q.z) E }

/-- `Dbl(P)` (R289). -/
def dbl (n M ca : Nat) (P : Point) : Point :=
  let x2 := montSq n M P.x
  let y2 := montSq n M P.y
  let S := gMp2 n M (montMul n M P.x y2) 2
  let T := gAdd n M (gAdd n M (gAdd n M x2 x2) x2) (montMul n M ca (montSq n M (montSq n M P.z)))
  let x' := gSub n M (gSub n M (montSq n M T) S) S
  { x := x'
    y := gSub n M (montMul n M T (gSub n M S x')) (gMp2 n M (montSq n M y2) 3)
    z := gMp2 n M (montMul n M P.y P.z) 1 }

/-- The curve equation of `PONC` (R288) for a point that is not infinite: `y² = x³ + A*x*z⁴ + B*z⁶`. -/
def onCurve (n M ca cb : Nat) (P : Point) : Bool :=
  let z2 := montSq n M P.z
  let z4 := montSq n M z2
  let z6 := montMul n M z4 z2
  let rhs := gAdd n M
    (gAdd n M (montCube n M P.x) (montMul n M ca (montMul n M P.x z4))) (montMul n M cb z6)
  montSq n M P.y == rhs

/-- The test of `PEQ` (R290). -/
def pointEq (n M : Nat) (P Q : Point) : Bool :=
  if P.isInf && Q.isInf then true
  else if P.isInf || Q.isInf then false
  else if P.z = Q.z then P.x == Q.x && P.y == Q.y
  else (abcd n M P Q).A == (abcd n M P Q).B && (abcd n M P Q).C == (abcd n M P Q).D

/-- `Add(P, Q)` (47_scalar_mul.md R322) on finite or infinite points; `none` is the explicit infinity. -/
def addFull (n M ca : Nat) (P Q : Point) : Option Point :=
  if P.isInf then some Q
  else if Q.isInf then some P
  else
    let k := abcd n M P Q
    if k.A = k.B ∧ k.C = k.D then some (dbl n M ca P)
    else if k.A = k.B ∧ k.C = gNeg n M k.D then none
    else some (addInner n M P Q k)

/-- One step of the loop of R321 with the accumulator `acc` (`none` is infinity): double, and add `P` if the bit is
set. -/
def smulStep (n M ca : Nat) (P : Point) (bit : Bool) (acc : Option Point) : Option Point :=
  let d := acc.map (dbl n M ca)
  if bit then
    match d with
    | none => some P
    | some a => addFull n M ca a P
  else d

/-- The loop of R321 over the bits `i-1 .. 0` of `k`. -/
def smulLoop (n M ca : Nat) (P : Point) (k : Nat) (acc : Option Point) : Nat → Option Point
  | 0 => acc
  | i + 1 => smulLoop n M ca P k (smulStep n M ca P (k.testBit i) acc) i

/-- The accumulator `PSMUL` ends with (R321): infinity for `k = 0`, else `P` at the top set bit and the loop over the
bits below it. -/
def smul (n M ca : Nat) (P : Point) (k : Nat) : Option Point :=
  if seqMsb k = 0 then none else smulLoop n M ca P k (some P) (seqMsb k - 1)

end Sys2Proof.Machine
end

