-- ==== Sys2Proof/Machine/Ops.lean ====
section
/-!
DEFINITION. The operations over registers, taking a fault and returning from one, and the free values. A register write
stores `seq(v)`, the value modulo the register's size (00_scope.md R11), so no register leaves its range.
-/

namespace Sys2Proof.Machine

/-- `l[r]` (00_scope.md R12). -/
def State.readL (s : State) (r : Reg) : Nat := s.l[r]

/-- `val(f[r])` (00_scope.md R12). -/
def State.readF (s : State) (r : Reg) : Nat := s.f[r]

/-- `p[r]` (00_scope.md R12). -/
def State.readP (s : State) (r : Reg) : Point := s.p[r]

/-- `l[r] <- v`. -/
def State.writeL (r : Reg) (v : Nat) (s : State) : State := { s with l := s.l.set r (v % 2 ^ s.W) }

/-- `f[r] <- seq(v)`: all `N` limbs. -/
def State.writeF (r : Reg) (v : Nat) (s : State) : State := { s with f := s.f.set r (v % 2 ^ s.n) }

/-- `p[r] <- (x, y, z)`: all three components. -/
def State.writeP (r : Reg) (q : Point) (s : State) : State :=
  { s with p := s.p.set r ⟨q.x % 2 ^ s.n, q.y % 2 ^ s.n, q.z % 2 ^ s.n⟩ }

/-- `p[r].z <- seq(v)`; `x` and `y` stay. -/
def State.writePz (r : Reg) (v : Nat) (s : State) : State :=
  { s with p := s.p.set r { s.p[r] with z := v % 2 ^ s.n } }

/-- `p[r].x <- seq(x); p[r].y <- seq(y)`; `z` stays (46_point.md R295). -/
def State.writePxy (r : Reg) (x y : Nat) (s : State) : State :=
  { s with p := s.p.set r { s.p[r] with x := x % 2 ^ s.n, y := y % 2 ^ s.n } }

/-! ### Free values (00_scope.md R16; log entry 6) -/

/-- The `k`-th free value from here on: `unspecified` of any width, taken modulo the width where it is stored. -/
def State.free (s : State) (k : Nat) : Nat := Config.unspecified s.geom (s.draws + k)

/-- A free Boolean. -/
def State.freeBit (s : State) (k : Nat) : Bool := s.free k % 2 == 1

/-- A free point: three free components. -/
def State.freePoint (s : State) (k : Nat) : Point := ⟨s.free k, s.free (k + 1), s.free (k + 2)⟩

/-- `draw([lo, lo + size))` attributed to the RNG (42_bigint.md R190, R191), for `size` at least 1. -/
def State.rngDraw (s : State) (lo size : Nat) : Nat := lo + Config.rng s.draws % size

/-- The free values up to here are taken: later draws are fresh. -/
def State.tookDraws (k : Nat) (s : State) : State := { s with draws := s.draws + k }

/-! ### Faults (60_exceptions.md R345) -/

/-- Fault entry: `STATUS.ERR <- code(E)`, `ERRCMD <- cmd`, and `CFGOK <- 0` for `BADCFG`; nothing else (R344, R345).
No random limb is requested: `draws` stays. -/
def State.raise (e : FaultCode) (cmd : Word32) (s : State) : State :=
  { s with
    status := { s.status with err := e.code, cfgok := if e = .badcfg then false else s.status.cfgok }
    errcmd := cmd }

/-- The return from a fault (60_exceptions.md R347; 48_system.md R333): `STATUS.ERR <- 0`, nothing else. -/
def State.clearErr (s : State) : State := { s with status := { s.status with err := 0 } }

/-- The families `G*`, `F*`, `P*` fault with `NOCFG` while `CFGOK = 0` (60_exceptions.md R342, rank 2 of R346). -/
def requireCfg (i : Instr) (s : State) (body : State) : Host.Outcome State Fault Refusal :=
  .next (if s.status.cfgok then body else s.raise .nocfg (encode i))

/-! ### Workspace (70_reset_and_hazards.md R380 to R383) -/

/-- The window `f[ws .. ws+k-1]` holds register `r`. -/
def inWindow (ws : Reg) (k : Nat) (r : Reg) : Bool := decide (ws.val ≤ r.val ∧ r.val < ws.val + k)

/-- The capacity check (R382): the window lies in `f[0..15]` and holds no `f` operand of the command. -/
def windowOk (ws : Reg) (k : Nat) (operands : List Reg) : Bool :=
  decide (ws.val + k ≤ 16) && operands.all fun r => !inWindow ws k r

/-- Every slot of the window becomes `unspecified_n` (R383, U1). -/
def State.scratch (ws : Reg) (k : Nat) (s : State) : State :=
  { s with
    f := Vector.ofFn fun r : Fin 16 =>
      if inWindow ws k r then s.free (r.val - ws.val) % 2 ^ s.n else s.f[r]
    draws := s.draws + k }

/-- A command with a workspace of `k` slots and the `f` operands given (rank 3 of R346): `PRECOND_WS`, or `body`. -/
def requireWs (i : Instr) (ws : Reg) (k : Nat) (operands : List Reg) (s : State) (body : State) : State :=
  if windowOk ws k operands then body else s.raise .precondWs (encode i)

end Sys2Proof.Machine
end

