-- ==== Sys2Proof/Machine/Operands.lean ====
section
/-!
DEFINITION. The operands of the field and point commands: which are inside the contract of the Montgomery functions,
and the free values that take the place of a result outside it (44_field_mont.md R233, 46_point.md R283 e;
93_implementation_defined.md U3 to U6). And the declared workspace capacities (70_reset_and_hazards.md R381).
-/

namespace Sys2Proof.Machine

/-! ### `WS_ARITY` (R381) -/

/-- `FPOW`, `FPOWL`: 1 slot. -/
def wsPow : Nat := 1
/-- `FINV`: 3 slots. -/
def wsInv : Nat := 3
/-- `FSQRT`: 5 slots. -/
def wsSqrt : Nat := 5
/-- `PONC`: 4 slots. -/
def wsOnc : Nat := 4
/-- `PEQ`: 4 slots. -/
def wsEq : Nat := 4
/-- `PADDD`, `PADD`: 5 slots. -/
def wsAdd : Nat := 5
/-- `PDBL`: 2 slots. -/
def wsDbl : Nat := 2
/-- `PSMUL`: 5 slots. -/
def wsSmul : Nat := 5
/-- `PTOAFF`: 5 slots. -/
def wsToAff : Nat := 5

/-! ### Field operands -/

/-- A field operand inside the contract of `MontMul` (R232, R233): below `M`, with a configuration that passes the
checks of `CFG` (always so while `CFGOK = 1`: `Sys2Proof.Safety.CfgSound`; log entry 17). -/
def State.fieldOk (s : State) (a : Nat) : Bool := s.configChecks && decide (a < s.mod)

/-- `MontMul(a, b)`, or a free value outside the contract (U3; log entry 10). -/
def State.mulOrFree (s : State) (a b : Nat) : Nat :=
  if s.fieldOk a && s.fieldOk b then montMul s.n s.mod a b else s.free 0

/-- `Pow(base, e)` from the register `RONE` (R240; `RONE` for `e = 0`, R241), or a free value for a base outside the
contract, whatever the exponent (60_exceptions.md R352, U3; log entries 10, 12). Under an accepted but untrue
`RONE` (48_system.md R332) the loop of R240's reference is run on the register as it is (DESIGN CHOICE, log entry 25). -/
def State.powOrFree (s : State) (base e : Nat) : Nat :=
  if s.fieldOk base then montPow s.n s.mod s.rone base e
  else s.free 0

/-- The inverse is determined: the operand is inside the contract and prime to `M`, and `RR` is the true constant the
inverter's correction multiplies by (R260, R261, R264, R8; U4; log entry 14). -/
def State.invOk (s : State) (a : Nat) : Bool :=
  s.fieldOk a && Nat.gcd a s.mod == 1 && s.rr == montRR s.n s.mod

/-- The root of 0 is determined: `M` is prime (R271; U5; log entry 15). The test for a residue, and with it `RONE`, has
no part in it (R272). -/
def State.zeroRootOk (s : State) : Bool := decide (Nat.Prime s.mod)

/-- The square root is determined up to its sign: `M` prime, operand below `M`, `RONE` the true constant (R271, R8;
U5; log entry 15). -/
def State.sqrtOk (s : State) (a : Nat) : Bool :=
  s.fieldOk a && s.rone == montOne s.n s.mod && decide (Nat.Prime s.mod)

/-- Either root of a residue: `draw` of the two (R270, R271). -/
def State.drawRoot (s : State) (a : Nat) : Nat :=
  let r := montSqrt s.n s.mod a
  if s.freeBit 0 then gNeg s.n s.mod r else r

/-! ### Point operands -/

/-- All three coordinates below `M`, under a configuration that passes the checks of `CFG` (R283 d). -/
def State.coordsOk (s : State) (P : Point) : Bool :=
  s.configChecks && decide (P.x < s.mod ∧ P.y < s.mod ∧ P.z < s.mod)

/-- A point operand inside the contract (R283 d, e; U6): infinity, whose `x` and `y` "carry no meaning and may hold
anything" (R281), or all coordinates below `M` (log entry 13). -/
def State.pointOk (s : State) (P : Point) : Bool := P.isInf || s.coordsOk P

end Sys2Proof.Machine
end

