-- ==== Sys2Proof/Machine/BigIntCmds.lean ====
section
/-!
DEFINITION. BigInt commands and random sampling (42_bigint.md R182 to R197). None needs a configuration. A sample is a
`draw` from the exact range (R190, R191; log entry 20).
-/

namespace Sys2Proof.Machine

/-- `f[rd] <- draw([lo, lo + size))`, one draw taken from the RNG (R190, R191). -/
def sampleResult (rd : Reg) (lo size : Nat) (s : State) : State :=
  (s.writeF rd (s.rngDraw lo size)).tookDraws 1

/-- `BISZ` (R182). -/
def execBisz (ra : Reg) (s : State) : Host.Outcome State Fault Refusal :=
  .next (s.setT (seqIsZero (s.readF ra)))

/-- `BZERO` (R183). -/
def execBzero (rd : Reg) (s : State) : Host.Outcome State Fault Refusal := .next (s.writeF rd 0)

/-- `BONE` (R184): the integer 1, not `RONE`. -/
def execBone (rd : Reg) (s : State) : Host.Outcome State Fault Refusal := .next (s.writeF rd 1)

/-- `BMOV` (R185). -/
def execBmov (rd ra : Reg) (s : State) : Host.Outcome State Fault Refusal := .next (s.writeF rd (s.readF ra))

/-- `BMSB` (R186). -/
def execBmsb (rd ra : Reg) (s : State) : Host.Outcome State Fault Refusal :=
  .next (s.writeL rd (seqMsb (s.readF ra)))

/-- `BSAMP` (R192): `draw([0, 2^n))`. -/
def execBsamp (rd : Reg) (s : State) : Host.Outcome State Fault Refusal := .next (sampleResult rd 0 (2 ^ s.n) s)

/-- `BSAMPNZ` (R193): `draw([1, 2^n))`. -/
def execBsampnz (rd : Reg) (s : State) : Host.Outcome State Fault Refusal :=
  .next (sampleResult rd 1 (2 ^ s.n - 1) s)

/-- `BSAMPU` (R194): `draw([0, upper))`; `PRECOND_RANGE` when `upper = 0`. -/
def execBsampu (rd ra : Reg) (s : State) : Host.Outcome State Fault Refusal :=
  .next (if seqIsZero (s.readF ra) then s.raise .precondRange (encode (.bsampu rd ra))
    else sampleResult rd 0 (s.readF ra) s)

/-- `BSAMPR` (R195): `draw([lower, upper))`; `PRECOND_RANGE` unless `lower < upper`. -/
def execBsampr (rd ra rb : Reg) (s : State) : Host.Outcome State Fault Refusal :=
  .next (if seqCmp (s.readF ra) (s.readF rb) ≠ .lt then s.raise .precondRange (encode (.bsampr rd ra rb))
    else sampleResult rd (s.readF ra) (s.readF rb - s.readF ra) s)

/-- `BSAMPUI` (R196): `draw([0, upper])`. -/
def execBsampui (rd ra : Reg) (s : State) : Host.Outcome State Fault Refusal :=
  .next (sampleResult rd 0 (s.readF ra + 1) s)

/-- `BSAMPRI` (R197): `draw([lower, upper])`; `PRECOND_RANGE` when `lower > upper`. -/
def execBsampri (rd ra rb : Reg) (s : State) : Host.Outcome State Fault Refusal :=
  .next (if seqCmp (s.readF ra) (s.readF rb) = .gt then s.raise .precondRange (encode (.bsampri rd ra rb))
    else sampleResult rd (s.readF ra) (s.readF rb - s.readF ra + 1) s)

end Sys2Proof.Machine
end

