-- ==== Sys2Proof/Machine/FieldCmds.lean ====
section
/-!
DEFINITION. Field commands (44_field_mont.md R237 to R242; 45_field_inv_sqrt.md R261, R271): `NOCFG` while
`CFGOK = 0`. Where an operand is outside the contract the destination takes a free value (U3 to U5) and everything else
is as the rule says. Each command takes one draw for its result, used or not (log entry 23).
-/

namespace Sys2Proof.Machine

/-- `f[rd] <- v`, the draw for the result taken. -/
def fieldResult (rd : Reg) (v : Nat) (s : State) : State := (s.writeF rd v).tookDraws 1

/-- `FTOM` (R238): `MontMul(f[ra], RR)`. -/
def execFtom (rd ra : Reg) (s : State) : Host.Outcome State Fault Refusal :=
  requireCfg (.ftom rd ra) s (fieldResult rd (s.mulOrFree (s.readF ra) s.rr) s)

/-- `FFROMM` (R239): `MontMul(f[ra], seq(1))`. -/
def execFfromm (rd ra : Reg) (s : State) : Host.Outcome State Fault Refusal :=
  requireCfg (.ffromm rd ra) s (fieldResult rd (s.mulOrFree (s.readF ra) 1) s)

/-- `FMUL` (R237). -/
def execFmul (rd ra rb : Reg) (s : State) : Host.Outcome State Fault Refusal :=
  requireCfg (.fmul rd ra rb) s (fieldResult rd (s.mulOrFree (s.readF ra) (s.readF rb)) s)

/-- `FPOW` (R241): exponent from `f[rb]`. -/
def execFpow (rd ra rb ws : Reg) (s : State) : Host.Outcome State Fault Refusal :=
  requireCfg (.fpow rd ra rb ws) s
    (requireWs (.fpow rd ra rb ws) ws wsPow [rd, ra, rb] s
      ((fieldResult rd (s.powOrFree (s.readF ra) (s.readF rb)) s).scratch ws wsPow))

/-- `FPOWL` (R242): exponent from `l[rb]`. -/
def execFpowl (rd ra rb ws : Reg) (s : State) : Host.Outcome State Fault Refusal :=
  requireCfg (.fpowl rd ra rb ws) s
    (requireWs (.fpowl rd ra rb ws) ws wsPow [rd, ra] s
      ((fieldResult rd (s.powOrFree (s.readF ra) (s.readL rb)) s).scratch ws wsPow))

/-- `FINV` (R261): `UNDEFINED_INVERSE` on zero (R262), before every write. -/
def execFinv (rd ra ws : Reg) (s : State) : Host.Outcome State Fault Refusal :=
  let a := s.readF ra
  requireCfg (.finv rd ra ws) s
    (requireWs (.finv rd ra ws) ws wsInv [rd, ra] s
      (if seqIsZero a then s.raise .undefinedInverse (encode (.finv rd ra ws))
       else (fieldResult rd (if s.invOk a then montInv s.n s.mod a else s.free 0) s).scratch ws wsInv))

/-- `FSQRT` (R271), `M` prime: 0 has the root 0; a residue gets either of its roots and `T = 1`; a non-residue a free value and
`T = 0`; outside the contract value and `T` are free (U5). -/
def execFsqrt (rd ra ws : Reg) (s : State) : Host.Outcome State Fault Refusal :=
  let a := s.readF ra
  let body :=
    if seqIsZero a && s.zeroRootOk then (s.writeF rd 0).setT true
    else if s.sqrtOk a then
      if isResidue s.n s.mod a then (s.writeF rd (s.drawRoot a)).setT true
      else (s.writeF rd (s.free 0)).setT false
    else (s.writeF rd (s.free 0)).setT (s.freeBit 1)
  requireCfg (.fsqrt rd ra ws) s
    (requireWs (.fsqrt rd ra ws) ws wsSqrt [rd, ra] s ((body.tookDraws 2).scratch ws wsSqrt))

end Sys2Proof.Machine
end

