-- ==== Sys2Proof/Machine/GroupCmds.lean ====
section
/-!
DEFINITION. Add-group commands (43_addgroup.md R216 to R220): `NOCFG` while `CFGOK = 0`; the literal algorithms of
R211 to R215 on every register content (R210).
-/

namespace Sys2Proof.Machine

/-- `GADD` (R216). -/
def execGadd (rd ra rb : Reg) (s : State) : Host.Outcome State Fault Refusal :=
  requireCfg (.gadd rd ra rb) s (s.writeF rd (gAdd s.n s.mod (s.readF ra) (s.readF rb)))

/-- `GSUB` (R217). -/
def execGsub (rd ra rb : Reg) (s : State) : Host.Outcome State Fault Refusal :=
  requireCfg (.gsub rd ra rb) s (s.writeF rd (gSub s.n s.mod (s.readF ra) (s.readF rb)))

/-- `GNEG` (R218). -/
def execGneg (rd ra : Reg) (s : State) : Host.Outcome State Fault Refusal :=
  requireCfg (.gneg rd ra) s (s.writeF rd (gNeg s.n s.mod (s.readF ra)))

/-- `GMP2` (R219). -/
def execGmp2 (rd ra : Reg) (k : Nat) (s : State) : Host.Outcome State Fault Refusal :=
  requireCfg (.gmp2 rd ra k) s (s.writeF rd (gMp2 s.n s.mod (s.readF ra) k))

/-- `GMP2CF` (R220): `PRECOND_VARIANT` when the top bit of `MOD` is 1. -/
def execGmp2cf (rd ra : Reg) (k : Nat) (s : State) : Host.Outcome State Fault Refusal :=
  requireCfg (.gmp2cf rd ra k) s
    (if topBit s.n s.mod then s.raise .precondVariant (encode (.gmp2cf rd ra k))
     else s.writeF rd (gMp2Cf s.n s.mod (s.readF ra) k))

end Sys2Proof.Machine
end

