-- ==== Sys2Proof/Machine/LimbCmds.lean ====
section
/-!
DEFINITION. Limb primitive commands (40_limb.md R136 to R143). None needs a configuration.
-/

namespace Sys2Proof.Machine

/-- A limb command that returns a limb and a carry or borrow: `l[rd] <- limb; STATUS.C <- carry`. -/
def limbCarryResult (rd : Reg) (r : Nat × Bool) (s : State) : Host.Outcome State Fault Refusal :=
  .next ((s.writeL rd r.1).setC r.2)

/-- `LADD` (R136). -/
def execLadd (rd ra rb : Reg) (s : State) : Host.Outcome State Fault Refusal :=
  limbCarryResult rd (addc s.W (s.readL ra) (s.readL rb) false) s

/-- `LADC` (R137): carry-in `STATUS.C`. -/
def execLadc (rd ra rb : Reg) (s : State) : Host.Outcome State Fault Refusal :=
  limbCarryResult rd (addc s.W (s.readL ra) (s.readL rb) s.status.c) s

/-- `LSUB` (R138). -/
def execLsub (rd ra rb : Reg) (s : State) : Host.Outcome State Fault Refusal :=
  limbCarryResult rd (subb s.W (s.readL ra) (s.readL rb) false) s

/-- `LSBB` (R139): borrow-in `STATUS.C`. -/
def execLsbb (rd ra rb : Reg) (s : State) : Host.Outcome State Fault Refusal :=
  limbCarryResult rd (subb s.W (s.readL ra) (s.readL rb) s.status.c) s

/-- `LMUL` (R140): low half to `rd`, high half to `rh`; `PRECOND_OPERAND` when they are one register. -/
def execLmul (rd ra rb rh : Reg) (s : State) : Host.Outcome State Fault Refusal :=
  let hl := mulw s.W (s.readL ra) (s.readL rb)
  .next (if rd = rh then s.raise .precondOperand (encode (.lmul rd ra rb rh))
    else (s.writeL rd hl.2).writeL rh hl.1)

/-- `LCLZ` (R141). -/
def execLclz (rd ra : Reg) (s : State) : Host.Outcome State Fault Refusal :=
  .next (s.writeL rd (clz s.W (s.readL ra)))

/-- `LSHL` (R142). -/
def execLshl (rd ra : Reg) (k : Nat) (s : State) : Host.Outcome State Fault Refusal :=
  .next (s.writeL rd (shl s.W (s.readL ra) k))

/-- `LSHR` (R143). -/
def execLshr (rd ra : Reg) (k : Nat) (s : State) : Host.Outcome State Fault Refusal :=
  .next (s.writeL rd (shr s.W (s.readL ra) k))

end Sys2Proof.Machine
end

