-- ==== Sys2Proof/Machine/PointCmds.lean ====
section
/-!
DEFINITION. Point commands (46_point.md R286 to R297) and the scalar multiplier (47_scalar_mul.md R321): `NOCFG` while
`CFGOK = 0` (R283 a). A point outside the contract gives free values in what the command writes (R283 e, U6; log entry
13). The commands that can need it take three draws for their result, used or not (log entry 23).
-/

namespace Sys2Proof.Machine

/-- `PISINF` (R286): `z = 0` says infinity whatever `x` and `y` hold (R281); a finite point with a coordinate not below
`M` is outside the contract (R283 e, U6; log entries 12, 13). -/
def execPisinf (ra : Reg) (s : State) : Host.Outcome State Fault Refusal :=
  let P := s.readP ra
  requireCfg (.pisinf ra) s
    ((s.setT (if s.pointOk P then P.isInf else s.freeBit 0)).tookDraws 1)

/-- `PSETINF` (R287): only `z` is written. -/
def execPsetinf (rd : Reg) (s : State) : Host.Outcome State Fault Refusal :=
  requireCfg (.psetinf rd) s (s.writePz rd 0)

/-- `PONC` (R288): infinity is on the curve. -/
def execPonc (ra ws : Reg) (s : State) : Host.Outcome State Fault Refusal :=
  let P := s.readP ra
  let t :=
    if P.isInf then true
    else if s.coordsOk P then onCurve s.n s.mod s.ca s.cb P
    else s.freeBit 0
  requireCfg (.ponc ra ws) s
    (requireWs (.ponc ra ws) ws wsOnc [] s (((s.setT t).tookDraws 1).scratch ws wsOnc))

/-- `PEQ` (R290). -/
def execPeq (ra rb ws : Reg) (s : State) : Host.Outcome State Fault Refusal :=
  let P := s.readP ra
  let Q := s.readP rb
  let t := if s.pointOk P && s.pointOk Q then pointEq s.n s.mod P Q else s.freeBit 0
  requireCfg (.peq ra rb ws) s
    (requireWs (.peq ra rb ws) ws wsEq [] s (((s.setT t).tookDraws 1).scratch ws wsEq))

/-- `PNEG` (R291): `y` negated, `x` and `z` copied. -/
def execPneg (rd ra : Reg) (s : State) : Host.Outcome State Fault Refusal :=
  let P := s.readP ra
  let r : Point :=
    if s.pointOk P then
      { P with y := if P.y < s.mod then gNeg s.n s.mod P.y else s.free 1 }
    else s.freePoint 0
  requireCfg (.pneg rd ra) s ((s.writeP rd r).tookDraws 3)

/-- `PADDD` (R292): the chord formula on whatever points; an infinite operand gives `z = 0`. -/
def execPaddd (rd ra rb ws : Reg) (s : State) : Host.Outcome State Fault Refusal :=
  let P := s.readP ra
  let Q := s.readP rb
  let r : Point :=
    if s.coordsOk P && s.coordsOk Q then addInner s.n s.mod P Q (abcd s.n s.mod P Q)
    else if s.pointOk P && s.pointOk Q then { s.freePoint 0 with z := 0 }
    else s.freePoint 0
  requireCfg (.paddd rd ra rb ws) s
    (requireWs (.paddd rd ra rb ws) ws wsAdd [] s (((s.writeP rd r).tookDraws 3).scratch ws wsAdd))

/-- `PDBL` (R293): infinity doubles to infinity (R289). -/
def execPdbl (rd ra ws : Reg) (s : State) : Host.Outcome State Fault Refusal :=
  let P := s.readP ra
  let r : Point :=
    if s.coordsOk P then dbl s.n s.mod s.ca P
    else if P.isInf then { s.freePoint 0 with z := 0 }
    else s.freePoint 0
  requireCfg (.pdbl rd ra ws) s
    (requireWs (.pdbl rd ra ws) ws wsDbl [] s (((s.writeP rd r).tookDraws 3).scratch ws wsDbl))

/-- `PADD` (R294): the explicit infinity writes `z` only (R281). -/
def execPadd (rd ra rb ws : Reg) (s : State) : Host.Outcome State Fault Refusal :=
  let P := s.readP ra
  let Q := s.readP rb
  let body :=
    if s.pointOk P && s.pointOk Q then
      match addFull s.n s.mod s.ca P Q with
      | none => s.writePz rd 0
      | some r => s.writeP rd r
    else s.writeP rd (s.freePoint 0)
  requireCfg (.padd rd ra rb ws) s
    (requireWs (.padd rd ra rb ws) ws wsAdd [] s ((body.tookDraws 3).scratch ws wsAdd))

/-- `PSMUL` (47_scalar_mul.md R321): point `p[ra]`, scalar `f[rb]`; an infinite result has `z = 0`, `x` and `y` free
(U9); a point outside the contract gives a free result, for the scalar 0 too (U6; log entry 12). -/
def execPsmul (rd ra rb ws : Reg) (s : State) : Host.Outcome State Fault Refusal :=
  let P := s.readP ra
  let k := s.readF rb
  let inf : Point := { s.freePoint 0 with z := 0 }
  let r : Point :=
    if s.pointOk P then
      if seqIsZero k || P.isInf then inf
      else
        match smul s.n s.mod s.ca P k with
        | none => inf
        | some q => if q.isInf then inf else q
    else s.freePoint 0
  requireCfg (.psmul rd ra rb ws) s
    (requireWs (.psmul rd ra rb ws) ws wsSmul [rb] s (((s.writeP rd r).tookDraws 3).scratch ws wsSmul))

/-- `PTOAFF` (R295), in place: nothing on infinity or when `z = RONE`, else `x/z²`, `y/z³` and `z` left as it is. -/
def execPtoaff (rd ws : Reg) (s : State) : Host.Outcome State Fault Refusal :=
  let P := s.readP rd
  let i := montInv s.n s.mod P.z
  let body :=
    if P.isInf || P.z == s.rone then s
    else if s.coordsOk P && s.invOk P.z then
      s.writePxy rd (montMul s.n s.mod P.x (montSq s.n s.mod i)) (montMul s.n s.mod P.y (montCube s.n s.mod i))
    else s.writePxy rd (s.free 0) (s.free 1)
  requireCfg (.ptoaff rd ws) s
    (requireWs (.ptoaff rd ws) ws wsToAff [] s ((body.tookDraws 2).scratch ws wsToAff))

/-- `PFROMAFF` (R296), in place: `z <- RONE` unless `z = 0`. -/
def execPfromaff (rd : Reg) (s : State) : Host.Outcome State Fault Refusal :=
  let P := s.readP rd
  requireCfg (.pfromaff rd) s
    ((if P.isInf then s else s.writePz rd (if s.coordsOk P then s.rone else s.free 0)).tookDraws 1)

/-- `PMOV` (R297). -/
def execPmov (rd ra : Reg) (s : State) : Host.Outcome State Fault Refusal :=
  let P := s.readP ra
  requireCfg (.pmov rd ra) s ((s.writeP rd (if s.pointOk P then P else s.freePoint 0)).tookDraws 3)

end Sys2Proof.Machine
end

