-- ==== Sys2Proof/Machine/SeqCmds.lean ====
section
/-!
DEFINITION. Limb-sequence commands (41_limbseq.md R155 to R164). None needs a configuration.
-/

namespace Sys2Proof.Machine

/-- A sequence command that returns a value and a carry or borrow: `f[rd] <- value; STATUS.C <- carry`. -/
def seqCarryResult (rd : Reg) (r : Nat × Bool) (s : State) : Host.Outcome State Fault Refusal :=
  .next ((s.writeF rd r.1).setC r.2)

/-- A sequence command whose one result is a value: `f[rd] <- value`. -/
def seqResult (rd : Reg) (v : Nat) (s : State) : Host.Outcome State Fault Refusal := .next (s.writeF rd v)

/-- `SADD` (R155). -/
def execSadd (rd ra rb : Reg) (s : State) : Host.Outcome State Fault Refusal :=
  seqCarryResult rd (seqAdd s.n (s.readF ra) (s.readF rb)) s

/-- `SSUB` (R156). -/
def execSsub (rd ra rb : Reg) (s : State) : Host.Outcome State Fault Refusal :=
  seqCarryResult rd (seqSub s.n (s.readF ra) (s.readF rb)) s

/-- `SSHL` (R157). -/
def execSshl (rd ra : Reg) (k : Nat) (s : State) : Host.Outcome State Fault Refusal :=
  seqResult rd (seqShl s.n (s.readF ra) k) s

/-- `SSHR` (R158). -/
def execSshr (rd ra : Reg) (k : Nat) (s : State) : Host.Outcome State Fault Refusal :=
  seqResult rd (seqShr s.n (s.readF ra) k) s

/-- `SCMP` (R159). -/
def execScmp (ra rb : Reg) (s : State) : Host.Outcome State Fault Refusal :=
  .next (s.setCmp (seqCmp (s.readF ra) (s.readF rb)))

/-- `SAND` (R160). -/
def execSand (rd ra rb : Reg) (s : State) : Host.Outcome State Fault Refusal :=
  seqResult rd (seqAnd (s.readF ra) (s.readF rb)) s

/-- `SOR` (R161). -/
def execSor (rd ra rb : Reg) (s : State) : Host.Outcome State Fault Refusal :=
  seqResult rd (seqOr (s.readF ra) (s.readF rb)) s

/-- `SXOR` (R162). -/
def execSxor (rd ra rb : Reg) (s : State) : Host.Outcome State Fault Refusal :=
  seqResult rd (seqXor (s.readF ra) (s.readF rb)) s

/-- `SNOT` (R163). -/
def execSnot (rd ra : Reg) (s : State) : Host.Outcome State Fault Refusal :=
  seqResult rd (seqNot s.n (s.readF ra)) s

/-- `SPOW2` (R164): `PRECOND_RANGE` when `2^e` is not representable. -/
def execSpow2 (rd : Reg) (e : Nat) (s : State) : Host.Outcome State Fault Refusal :=
  .next (if s.n ≤ e then s.raise .precondRange (encode (.spow2 rd e)) else s.writeF rd (2 ^ e))

end Sys2Proof.Machine
end

