-- ==== Sys2Proof/Machine/SystemCmds.lean ====
section
/-!
DEFINITION. System commands (48_system.md R330 to R333).
-/

namespace Sys2Proof.Machine

/-- `NOP` (R330). -/
def execNop (s : State) : Host.Outcome State Fault Refusal := .next s

/-- `CFG` (R331): `CFGOK <- 1` when the checks of R332 pass, else `CFGOK <- 0` and `BADCFG`. -/
def execCfg (s : State) : Host.Outcome State Fault Refusal :=
  .next (if s.configChecks then s.setCfgok true else s.raise .badcfg (encode .cfg))

/-- `CLRERR` (R333). -/
def execClrerr (s : State) : Host.Outcome State Fault Refusal := .next s.clearErr

end Sys2Proof.Machine
end

