-- ==== Sys2Proof/Machine/Dispatch.lean ====
section
/-!
DEFINITION. Dispatch: one arm per command (30_encoding.md R104).
-/

namespace Sys2Proof.Machine

def exec (i : Instr) (s : State) : Host.Outcome State Fault Refusal :=
  match i with
  | .nop => Sys2Proof.Machine.execNop s
  | .cfg => Sys2Proof.Machine.execCfg s
  | .clrerr => Sys2Proof.Machine.execClrerr s
  | .ladd rd ra rb => Sys2Proof.Machine.execLadd rd ra rb s
  | .ladc rd ra rb => Sys2Proof.Machine.execLadc rd ra rb s
  | .lsub rd ra rb => Sys2Proof.Machine.execLsub rd ra rb s
  | .lsbb rd ra rb => Sys2Proof.Machine.execLsbb rd ra rb s
  | .lmul rd ra rb rh => Sys2Proof.Machine.execLmul rd ra rb rh s
  | .lclz rd ra => Sys2Proof.Machine.execLclz rd ra s
  | .lshl rd ra k => Sys2Proof.Machine.execLshl rd ra k s
  | .lshr rd ra k => Sys2Proof.Machine.execLshr rd ra k s
  | .sadd rd ra rb => Sys2Proof.Machine.execSadd rd ra rb s
  | .ssub rd ra rb => Sys2Proof.Machine.execSsub rd ra rb s
  | .sshl rd ra k => Sys2Proof.Machine.execSshl rd ra k s
  | .sshr rd ra k => Sys2Proof.Machine.execSshr rd ra k s
  | .scmp ra rb => Sys2Proof.Machine.execScmp ra rb s
  | .sand rd ra rb => Sys2Proof.Machine.execSand rd ra rb s
  | .sor rd ra rb => Sys2Proof.Machine.execSor rd ra rb s
  | .sxor rd ra rb => Sys2Proof.Machine.execSxor rd ra rb s
  | .snot rd ra => Sys2Proof.Machine.execSnot rd ra s
  | .spow2 rd k => Sys2Proof.Machine.execSpow2 rd k s
  | .bisz ra => Sys2Proof.Machine.execBisz ra s
  | .bzero rd => Sys2Proof.Machine.execBzero rd s
  | .bone rd => Sys2Proof.Machine.execBone rd s
  | .bmsb rd ra => Sys2Proof.Machine.execBmsb rd ra s
  | .bsamp rd => Sys2Proof.Machine.execBsamp rd s
  | .bsampnz rd => Sys2Proof.Machine.execBsampnz rd s
  | .bsampu rd ra => Sys2Proof.Machine.execBsampu rd ra s
  | .bsampr rd ra rb => Sys2Proof.Machine.execBsampr rd ra rb s
  | .bsampui rd ra => Sys2Proof.Machine.execBsampui rd ra s
  | .bsampri rd ra rb => Sys2Proof.Machine.execBsampri rd ra rb s
  | .bmov rd ra => Sys2Proof.Machine.execBmov rd ra s
  | .gadd rd ra rb => Sys2Proof.Machine.execGadd rd ra rb s
  | .gsub rd ra rb => Sys2Proof.Machine.execGsub rd ra rb s
  | .gneg rd ra => Sys2Proof.Machine.execGneg rd ra s
  | .gmp2 rd ra k => Sys2Proof.Machine.execGmp2 rd ra k s
  | .gmp2cf rd ra k => Sys2Proof.Machine.execGmp2cf rd ra k s
  | .ftom rd ra => Sys2Proof.Machine.execFtom rd ra s
  | .ffromm rd ra => Sys2Proof.Machine.execFfromm rd ra s
  | .fmul rd ra rb => Sys2Proof.Machine.execFmul rd ra rb s
  | .fpow rd ra rb ws => Sys2Proof.Machine.execFpow rd ra rb ws s
  | .fpowl rd ra rb ws => Sys2Proof.Machine.execFpowl rd ra rb ws s
  | .finv rd ra ws => Sys2Proof.Machine.execFinv rd ra ws s
  | .fsqrt rd ra ws => Sys2Proof.Machine.execFsqrt rd ra ws s
  | .pisinf ra => Sys2Proof.Machine.execPisinf ra s
  | .psetinf rd => Sys2Proof.Machine.execPsetinf rd s
  | .ponc ra ws => Sys2Proof.Machine.execPonc ra ws s
  | .peq ra rb ws => Sys2Proof.Machine.execPeq ra rb ws s
  | .pneg rd ra => Sys2Proof.Machine.execPneg rd ra s
  | .paddd rd ra rb ws => Sys2Proof.Machine.execPaddd rd ra rb ws s
  | .pdbl rd ra ws => Sys2Proof.Machine.execPdbl rd ra ws s
  | .padd rd ra rb ws => Sys2Proof.Machine.execPadd rd ra rb ws s
  | .psmul rd ra rb ws => Sys2Proof.Machine.execPsmul rd ra rb ws s
  | .ptoaff rd ws => Sys2Proof.Machine.execPtoaff rd ws s
  | .pfromaff rd => Sys2Proof.Machine.execPfromaff rd s
  | .pmov rd ra => Sys2Proof.Machine.execPmov rd ra s

end Sys2Proof.Machine
end

