-- ==== Sys2Proof/Machine/HostPort.lean ====
section
/-!
DEFINITION. The host's side of the core: the register space of 20_memory.md R70, the four host actions (R71, R72, R74;
70_reset_and_hazards.md R370), the issue of a command word (60_exceptions.md R343), and the physical addresses of a host
address map (20_memory.md R80).
-/

namespace Sys2Proof.Machine

/-- The word of `CLRERR`, the one command executed while `ERR` is not 0 (60_exceptions.md R343). -/
def clrerrWord : Word32 := encode .clrerr

/-- The limb indices of a selector (20_memory.md R70): `N` for a value, 1 otherwise. -/
def Sel.limbs (N : Nat) : Sel → Nat
  | .f _ | .px _ | .py _ | .pz _ | .mod | .rr | .rone | .ca | .cb => N
  | .l _ | .mprime | .status | .errcmd | .cmd => 1

/-- The element width of a selector in bits (R70). -/
def Sel.width (W : Nat) : Sel → Nat
  | .f _ | .px _ | .py _ | .pz _ | .mod | .rr | .rone | .ca | .cb => W
  | .l _ | .mprime => W
  | .status | .errcmd | .cmd => 32

/-- The selector is one of the six configuration registers (R73). -/
def Sel.isConfig : Sel → Bool
  | .mod | .mprime | .rr | .rone | .ca | .cb => true
  | .l _ | .f _ | .px _ | .py _ | .pz _ | .status | .errcmd | .cmd => false

/-- The selector is read only (R70). -/
def Sel.readOnly : Sel → Bool
  | .status | .errcmd => true
  | .l _ | .f _ | .px _ | .py _ | .pz _ | .mod | .mprime | .rr | .rone | .ca | .cb | .cmd => false

/-- The whole register a selector names, as a number; `none` for the write-only command port (R70). -/
def State.regValue (s : State) : Sel → Option Nat
  | .l k => some s.l[k]
  | .f k => some s.f[k]
  | .px k => some s.p[k].x
  | .py k => some s.p[k].y
  | .pz k => some s.p[k].z
  | .mod => some s.mod
  | .mprime => some s.mprime
  | .rr => some s.rr
  | .rone => some s.rone
  | .ca => some s.ca
  | .cb => some s.cb
  | .status => some s.status.word.toNat
  | .errcmd => some s.errcmd.toNat
  | .cmd => none

/-- Limb `i` of the register a selector names, where the host may read it (R70, R72). -/
def State.element (s : State) (sel : Sel) (i : Nat) : Option Nat :=
  if i < sel.limbs s.geom.N then (s.regValue sel).map fun v => limbOf (sel.width s.W) v i else none

/-- Limb `i` of a register written, every other limb kept (R71). `STATUS`, `ERRCMD`: nothing; `CMD` is not here. -/
def State.putLimb (s : State) (sel : Sel) (i v : Nat) : State :=
  match sel with
  | .l k => { s with l := s.l.set k v }
  | .f k => { s with f := s.f.set k (setLimb s.W s.f[k] i v) }
  | .px k => { s with p := s.p.set k { s.p[k] with x := setLimb s.W s.p[k].x i v } }
  | .py k => { s with p := s.p.set k { s.p[k] with y := setLimb s.W s.p[k].y i v } }
  | .pz k => { s with p := s.p.set k { s.p[k] with z := setLimb s.W s.p[k].z i v } }
  | .mod => { s with mod := setLimb s.W s.mod i v }
  | .mprime => { s with mprime := v }
  | .rr => { s with rr := setLimb s.W s.rr i v }
  | .rone => { s with rone := setLimb s.W s.rone i v }
  | .ca => { s with ca := setLimb s.W s.ca i v }
  | .cb => { s with cb := setLimb s.W s.cb i v }
  | .status | .errcmd | .cmd => s

/-- The core is handed a command word (R74): dropped while `ERR` is not 0 unless it is `CLRERR` (60_exceptions.md R343);
an illegal word raises `ILLEGAL_CMD` (30_encoding.md R106); a legal one is executed. -/
def issue (w : Word32) (s : State) : Host.Outcome State Fault Refusal :=
  if s.status.err ≠ 0 ∧ w ≠ clrerrWord then .next s
  else
    match decode w with
    | .error _ => .next (s.raise .illegalCmd w)
    | .ok i => exec i s

/-- `HostWrite(sel, i, v)` (R71, R73): an index that is not the selector's, or a read-only selector, changes nothing
(log entry 7); a value wider than the element is outside the spec (R78, R79; log entry 8); a configuration register
clears `CFGOK`; `CMD` issues the command (R74). -/
def hostWrite (sel : Sel) (i v : Nat) (s : State) : Host.Outcome State Fault Refusal :=
  if sel.readOnly || decide (sel.limbs s.geom.N ≤ i) then .next s
  else if 2 ^ sel.width s.W ≤ v then .refused .hostAccessWidth
  else if sel = .cmd then issue (BitVec.ofNat 32 v) s
  else .next (if sel.isConfig then (s.putLimb sel i v).setCfgok false else s.putLimb sel i v)

/-- `HostRead(sel, i)` (R72): the element's value goes to the host, no state of the core changes; an element that does
not exist, or the command port, is a stop (log entry 8). -/
def hostRead (sel : Sel) (i : Nat) (s : State) : Host.Outcome State Fault Refusal :=
  match s.element sel i with
  | some v => .next { s with hostOut := s.hostOut ++ [v] }
  | none => .fault .noSuchElement

/-- The reset input (70_reset_and_hazards.md R370; 10_state.md R54): `STATUS` and `ERRCMD` 0, every data and
configuration register a fresh free value (U7; log entry 4). The host's own lists and the instance stay. -/
def resetInput (s : State) : State where
  l := Vector.ofFn fun k : Fin 16 => s.free k % 2 ^ s.W
  f := Vector.ofFn fun k : Fin 16 => s.free (16 + k) % 2 ^ s.n
  p := Vector.ofFn fun k : Fin 16 =>
    ⟨s.free (32 + 3 * k) % 2 ^ s.n, s.free (33 + 3 * k) % 2 ^ s.n, s.free (34 + 3 * k) % 2 ^ s.n⟩
  mod := s.free 80 % 2 ^ s.n
  mprime := s.free 81 % 2 ^ s.W
  rr := s.free 82 % 2 ^ s.n
  rone := s.free 83 % 2 ^ s.n
  ca := s.free 84 % 2 ^ s.n
  cb := s.free 85 % 2 ^ s.n
  status := Status.reset
  errcmd := 0
  geom := s.geom
  draws := s.draws + 86
  hostIn := s.hostIn
  hostOut := s.hostOut

/-- What one host action does. -/
def hostAct (a : HostAction) (s : State) : Host.Outcome State Fault Refusal :=
  match a with
  | .write sel i v => hostWrite sel i v s
  | .read sel i => hostRead sel i s
  | .issue w => issue w s
  | .reset => .next (resetInput s)

/-- The host's next action takes effect (R81: one total order); with none pending nothing happens (log entry 5). -/
def hostStep (s : State) : Host.Outcome State Fault Refusal :=
  match s.hostIn with
  | [] => .next s
  | a :: rest => hostAct a { s with hostIn := rest }

/-! ### Physical addresses (20_memory.md R80; log entry 26) -/

/-- A host address map: the physical byte address of element `i` of a selector. -/
abbrev HostMap := Sel → Nat → Nat

/-- Every selector, in the order of the table of R70. -/
def allSels : List Sel :=
  ((List.finRange 16).map .l ++ (List.finRange 16).map .f ++
    (List.finRange 16).flatMap (fun k => [.px k, .py k, .pz k])) ++
  [.mod, .rr, .rone, .ca, .cb, .mprime, .status, .errcmd, .cmd]

/-- Every element of the host register space (R70). -/
def hostElements (N : Nat) : List (Sel × Nat) :=
  allSels.flatMap fun sel => (List.range (sel.limbs N)).map fun i => (sel, i)

/-- What R80 requires of a map: every element has its own address. -/
abbrev HostMap.Proper (m : HostMap) (N : Nat) : Prop := ((hostElements N).map fun e => m e.1 e.2).Nodup

/-- What R80 recommends of a map: limb `i` stands at byte offset `i*W/8` from limb 0. -/
def HostMap.Contiguous (m : HostMap) (W N : Nat) : Prop :=
  ∀ sel i, i < sel.limbs N → m sel i = m sel 0 + i * (W / 8)

/-- The element a map places at a physical address. -/
def HostMap.elementAt (m : HostMap) (N a : Nat) : Option (Sel × Nat) :=
  (hostElements N).find? fun e => m e.1 e.2 == a

/-- An access of the host at a physical byte address, `bits` wide. -/
inductive BusAccess where
  /-- Write `v` at address `a`. -/
  | write (a bits v : Nat)
  /-- Read at address `a`. -/
  | read (a bits : Nat)
deriving DecidableEq, Repr

/-- The physical address of an access. -/
def BusAccess.addr : BusAccess → Nat
  | .write a _ _ => a
  | .read a _ => a

/-- The width of an access in bits. -/
def BusAccess.bits : BusAccess → Nat
  | .write _ bits _ => bits
  | .read _ bits => bits

/-- The host action an access is, on the element its address names. -/
def BusAccess.actionOn (e : Sel × Nat) : BusAccess → HostAction
  | .write _ _ v => .write e.1 e.2 v
  | .read _ _ => .read e.1 e.2

/-- What R78 requires of an access of an element `width` bits wide: one word of that width, at an address that is a
multiple of its bytes. -/
def BusAccess.alignedWord (b : BusAccess) (width : Nat) : Bool := b.bits == width && b.addr % (width / 8) == 0

/-- A physical access arrives through the map `m`: one naturally aligned word of the width of the element at its address
joins the host's pending actions as the access of that element (R78, R80, R81); any other is outside the spec and
refused (R78; log entry 8). -/
def busTo (m : HostMap) (b : BusAccess) (s : State) : Host.Outcome State Fault Refusal :=
  match m.elementAt s.geom.N b.addr with
  | some e =>
    if b.alignedWord (e.1.width s.W) then .next { s with hostIn := s.hostIn ++ [b.actionOn e] }
    else .refused .notAlignedWord
  | none => .refused .noElementAt

/-- A physical access arrives through the instance's own map. -/
def State.busAccess (b : BusAccess) (s : State) : Host.Outcome State Fault Refusal := busTo (Config.hostMap s.geom) b s

/-- `s` with the issue of the `nbits`-bit word `w` as the host's next action. -/
def State.issuing (s : State) (nbits w : Nat) : State :=
  { s with hostIn := .issue (BitVec.ofNat 32 (w % 2 ^ nbits)) :: s.hostIn }

end Sys2Proof.Machine
end

