-- ==== Sys2Proof/Machine/Step.lean ====
section
/-!
DEFINITION. One step of the machine: the host's next action (20_memory.md R81). The core fetches nothing (10_state.md
R36): a command comes to it only as a host action.
-/

namespace Sys2Proof.Machine

/-- One step. -/
def step (s : State) : Host.Outcome State Fault Refusal := hostStep s

/-- `s` with an instruction word where the next step takes its command from: the head of the host's actions. -/
def State.withFetchWord (s : State) (nbits w : Nat) : State := s.issuing nbits w

end Sys2Proof.Machine
end

