-- ==== Sys2Proof/Machine/Reference.lean ====
section
/-!
DEFINITION. The limb-level procedures the spec writes out beside the equations the commands use: the sequence functions
(41_limbseq.md R150 to R154, R165), the two Montgomery multipliers (44_field_mont.md R234, R235), the almost inverse
and its correction (45_field_inv_sqrt.md R263, R264), and the affine reference law (46_point.md R301). No command calls
them (R236: the model defines `MontMul` by R232, and which multiplier is built is not observable); they are what the refinement statements compare the commands' functions
with. Lists of limbs are least significant first (20_memory.md R75).
-/

namespace Sys2Proof.Machine

/-- `SeqAdd` as a ripple of `addc` from limb 0 up (R150), with carry in `c`. -/
def rippleAdd (W : Nat) : List Nat → List Nat → Bool → List Nat × Bool
  | a :: as, b :: bs, c =>
    let r := addc W a b c
    let rest := rippleAdd W as bs r.2
    (r.1 :: rest.1, rest.2)
  | _, _, c => ([], c)

/-- `SeqSub` as a ripple of `subb` from limb 0 up (R151), with borrow in `w`. -/
def rippleSub (W : Nat) : List Nat → List Nat → Bool → List Nat × Bool
  | a :: as, b :: bs, w =>
    let r := subb W a b w
    let rest := rippleSub W as bs r.2
    (r.1 :: rest.1, rest.2)
  | _, _, w => ([], w)

/-- `SeqCmp` from the most significant limb down (R152). -/
def cmpLimbs : List Nat → List Nat → Cmp
  | a :: as, b :: bs =>
    match cmpLimbs as bs with
    | .eq => if a < b then .lt else if b < a then .gt else .eq
    | .lt => .lt
    | .gt => .gt
  | _, _ => .eq

/-- Limb `i` of `SeqShl(a, K)` from the limbs of `a`, `q = K div W`, `r = K mod W` (R153). -/
def shlLimb (W q r : Nat) (a : Nat → Nat) (i : Nat) : Nat :=
  if i < q then 0
  else shl W (a (i - q)) r ||| (if 0 < r ∧ q + 1 ≤ i then shr W (a (i - q - 1)) (W - r) else 0)

/-- Limb `i` of `SeqShr(a, K)` from the `N` limbs of `a` (R154). -/
def shrLimb (W N q r : Nat) (a : Nat → Nat) (i : Nat) : Nat :=
  if N ≤ i + q then 0
  else shr W (a (i + q)) r ||| (if 0 < r ∧ i + q + 1 < N then shl W (a (i + q + 1)) (W - r) else 0)

/-- `SeqMsb` by limbs (R165): from the highest limb that is not 0; `j` is the index of the list's first limb. -/
def msbLimbs (W : Nat) : Nat → List Nat → Nat
  | _, [] => 0
  | j, a :: as =>
    let high := msbLimbs W (j + 1) as
    if high ≠ 0 then high else if a = 0 then 0 else j * W + (W - clz W a)

/-- One row of a multiplier: `t[j] + a[j]*b + C`, limb by limb, with the last carry (the inner loops of R234, R235). -/
def macRow (W : Nat) : List Nat → List Nat → Nat → Nat → List Nat × Nat
  | t :: ts, a :: as, b, c =>
    let r := mac W t a b c
    let rest := macRow W ts as b r.1
    (r.2 :: rest.1, rest.2)
  | _, _, _, c => ([], c)

/-- The factor `m = t[0]*M' mod 2^W` that makes the low limb vanish (R234, R235). -/
def montFactor (W mprime : Nat) (t : List Nat) : Nat := (mulw W (t.headD 0) mprime).2

/-- One outer iteration of CIOS (R234): `t` is the `N` low limbs and limb `N`; limb `N+1` is only its carry. -/
def ciosIter (W mprime : Nat) (mod a : List Nat) (t : List Nat × Nat) (bi : Nat) : List Nat × Nat :=
  let row := macRow W t.1 a bi 0
  let top := addc W t.2 row.2 false
  let row' := macRow W row.1 mod (montFactor W mprime row.1) 0
  let top' := addc W top.1 row'.2 false
  (row'.1.tail ++ [top'.1], (addc W top.2.toNat top'.2.toNat false).1)

/-- The conditional subtraction that ends both multipliers (R234, R235): `u`, with the limb `top` above it. -/
def montFinish (W : Nat) (mod u : List Nat) (top : Nat) : List Nat :=
  if top ≠ 0 ∨ cmpLimbs u mod ≠ .lt then (rippleSub W u mod false).1 else u

/-- `MontMul` by CIOS (R234). -/
def cios (W mprime : Nat) (mod a b : List Nat) : List Nat :=
  let t := b.foldl (ciosIter W mprime mod a) (mod.map fun _ => 0, 0)
  montFinish W mod t.1 t.2

/-- The schoolbook product of R235: `acc` holds the `N` limbs above those already final. -/
def schoolbook (W : Nat) (a : List Nat) : List Nat → List Nat → List Nat
  | [], acc => acc
  | bi :: bs, acc =>
    let row := macRow W acc a bi 0
    row.1.headD 0 :: schoolbook W a bs (row.1.tail ++ [row.2])

/-- A carry run up a list of limbs (the `while` of R235); a carry out of the last limb is dropped. -/
def carryUp (W : Nat) : List Nat → Nat → List Nat
  | [], _ => []
  | x :: xs, c =>
    let r := addc W x c false
    r.1 :: carryUp W xs r.2.toNat

/-- The reduction of R235, `k` rows still to do: each row clears the lowest limb, which is then dropped. -/
def sosReduce (W mprime : Nat) (mod : List Nat) : Nat → List Nat → List Nat
  | 0, T => T
  | k + 1, T =>
    let row := macRow W (T.take mod.length) mod (montFactor W mprime T) 0
    sosReduce W mprime mod k (row.1 ++ carryUp W (T.drop mod.length) row.2).tail

/-- `MontMul` by SOS (R235). -/
def sos (W mprime : Nat) (mod a b : List Nat) : List Nat :=
  let T := sosReduce W mprime mod mod.length (schoolbook W a b (mod.map fun _ => 0) ++ [0])
  montFinish W mod (T.take mod.length) ((T.drop mod.length).headD 0)

/-- `MontMul` by the multiplier that `MONT_ALG` says is built (00_scope.md R6, 44_field_mont.md R236; log entry 27). -/
def builtMul (alg : MontAlg) (W mprime : Nat) (mod a b : List Nat) : List Nat :=
  match alg with
  | .cios => cios W mprime mod a b
  | .sos => sos W mprime mod a b

/-- What the multiplier of the state's instance makes of two register values under the configuration registers; inside
the contract of R232 it is `montMul` for either multiplier (statements CiosMeetsContract and SosMeetsContract). -/
def State.builtMul (s : State) (a b : Nat) : Nat :=
  ofLimbs s.W (Machine.builtMul s.geom.montAlg s.W s.mprime (toLimbs s.W s.geom.N s.mod) (toLimbs s.W s.geom.N a)
    (toLimbs s.W s.geom.N b))

/-- The variables of the almost inverse (R263). -/
structure Almost where
  u : Nat
  v : Nat
  r : Nat
  s : Nat
  k : Nat
deriving DecidableEq, Repr

/-- One step of the almost inverse (R263), for `v > 0`. -/
def almostStep (q : Almost) : Almost :=
  if q.u % 2 = 0 then ⟨q.u / 2, q.v, q.r, 2 * q.s, q.k + 1⟩
  else if q.v % 2 = 0 then ⟨q.u, q.v / 2, 2 * q.r, q.s, q.k + 1⟩
  else if q.v < q.u then ⟨(q.u - q.v) / 2, q.v, q.r + q.s, 2 * q.s, q.k + 1⟩
  else ⟨q.u, (q.v - q.u) / 2, 2 * q.r, q.s + q.r, q.k + 1⟩

/-- The loop of the almost inverse (R263), at most `fuel` steps. -/
def almostLoop : Nat → Almost → Almost
  | 0, q => q
  | fuel + 1, q => if q.v = 0 then q else almostLoop fuel (almostStep q)

/-- Phase I (R263): `(r, k)` with `r = a⁻¹*2^k mod M`; the loop runs at most `2*bitlength(M)` times (R389). -/
def almostInverse (M a : Nat) : Nat × Nat :=
  let q := almostLoop (2 * bitLength M) ⟨M, a, 0, 1, 0⟩
  (M - (if M ≤ q.r then q.r - M else q.r), q.k)

/-- Phase II (R264), on `(r, k)`, with the register `RR`. -/
def almostCorrect (n M rr : Nat) (rk : Nat × Nat) : Nat :=
  let rk' := if rk.2 ≤ n then (montMul n M rk.1 rr, rk.2 + n) else rk
  montMul n M (montMul n M rk'.1 rr) (2 ^ (2 * n - rk'.2))

/-- An affine point of the curve, `none` for the point at infinity (R301), with plain coordinates. -/
abbrev AffPoint := Option (Nat × Nat)

/-- The affine group law of R301 over the field of `M` elements, `A` the plain curve coefficient. -/
def affAdd (M A : Nat) : AffPoint → AffPoint → AffPoint
  | none, Q => Q
  | some P, none => some P
  | some P, some Q =>
    if P.1 = Q.1 ∧ (P.2 + Q.2) % M = 0 then none
    else
      let lam :=
        if P.1 = Q.1 ∧ P.2 = Q.2 then (3 * P.1 * P.1 + A) * modInv M (2 * P.2 % M) % M
        else (Q.2 + M - P.2) * modInv M ((Q.1 + M - P.1) % M) % M
      let x3 := (lam * lam + 2 * M - P.1 - Q.1) % M
      some (x3, (lam * (P.1 + M - x3) + M - P.2) % M)

/-- `[k]P = P + P + ... + P`, `k` terms, `[0]P = O` (R301). -/
def affMul (M A : Nat) (P : AffPoint) : Nat → AffPoint
  | 0 => none
  | k + 1 => affAdd M A (affMul M A P k) P

/-- `unmont(x) = x*R⁻¹ mod M` (00_scope.md R17). -/
def unmont (n M x : Nat) : Nat := x * rInv n M % M

/-- `mont(x) = x*R mod M` (00_scope.md R17). -/
def mont (n M x : Nat) : Nat := x * 2 ^ n % M

/-- The affine point a Jacobian triple stands for (R280): `(unmont(x)/unmont(z)², unmont(y)/unmont(z)³)`. -/
def affineOf (n M : Nat) (P : Point) : AffPoint :=
  if P.isInf then none
  else
    let i := modInv M (unmont n M P.z)
    some (unmont n M P.x * (i * i) % M, unmont n M P.y * (i * i * i) % M)

end Sys2Proof.Machine
end

