-- ==== Sys2Proof/Safety.lean ====
section
/-!
DEFINITION. The terms the statements are made in: the invariant of the machine, a valid configuration, what a command
may change and on what it faults (one line per command), and the readings of register values as field elements and
curve points.
-/

namespace Sys2Proof.Safety

open Sys2Proof.Machine

/-! ### The invariant -/

/-- Every register holds a value of its width (10_state.md R31 to R33, R40 to R45) and the instance is one the spec
admits (00_scope.md R6). -/
abbrev InRange (s : State) : Prop :=
  s.geom.legal ∧
  (∀ r, s.readL r < 2 ^ s.W) ∧ (∀ r, s.readF r < 2 ^ s.n) ∧
  (∀ r, (s.readP r).x < 2 ^ s.n ∧ (s.readP r).y < 2 ^ s.n ∧ (s.readP r).z < 2 ^ s.n) ∧
  s.mprime < 2 ^ s.W ∧
  s.mod < 2 ^ s.n ∧ s.rr < 2 ^ s.n ∧ s.rone < 2 ^ s.n ∧ s.ca < 2 ^ s.n ∧ s.cb < 2 ^ s.n

/-- `ERR` is 0 or one of the codes 1 to 8 (60_exceptions.md R341). -/
abbrev ErrLegal (s : State) : Prop := s.status.err.toNat ≤ 8

/-- The seven checks of `CFG`, written out (48_system.md R332). -/
abbrev ConfigSound (s : State) : Prop :=
  s.mod % 2 = 1 ∧ 3 ≤ s.mod ∧ (s.mprime * (s.mod % 2 ^ s.W) + 1) % 2 ^ s.W = 0 ∧
  s.rr < s.mod ∧ s.rone < s.mod ∧ s.ca < s.mod ∧ s.cb < s.mod

/-- `CFGOK = 1` only over a configuration that passes the checks of `CFG` (10_state.md R50). -/
abbrev CfgSound (s : State) : Prop := s.status.cfgok = true → ConfigSound s

/-- The invariant of the machine. -/
abbrev Invariant (s : State) : Prop := InRange s ∧ ErrLegal s ∧ CfgSound s

/-- A committed configuration, in a state of the invariant: what every `G*`, `F*`, `P*` command needs. -/
abbrev Configured (s : State) : Prop := Invariant s ∧ s.status.cfgok = true

/-- A valid configuration (00_scope.md R8): committed, `M` prime, `RR = R² mod M`, `RONE = R mod M`. -/
abbrev ValidConfig (s : State) : Prop :=
  Configured s ∧ Nat.Prime s.mod ∧ s.rr = 2 ^ (2 * s.n) % s.mod ∧ s.rone = 2 ^ s.n % s.mod

/-! ### Faults -/

/-- `s` with the fault `code` of the command word `w` recorded and nothing else changed, not even the counter of free
values (60_exceptions.md R344, R345). -/
def recorded (code : BitVec 8) (w : Word32) (s : State) : State :=
  { s with status := { s.status with err := code }, errcmd := w }

/-- The workspace window of `k` slots from `ws` does not fit, or holds one of the `f` operands (60_exceptions.md R342,
70_reset_and_hazards.md R382). -/
abbrev WindowBad (ws : Reg) (k : Nat) (operands : List Reg) : Prop :=
  16 < ws.val + k ∨ ∃ r ∈ operands, ws.val ≤ r.val ∧ r.val < ws.val + k

/-- The window fits and holds no `f` operand. -/
abbrev WindowGood (ws : Reg) (k : Nat) (operands : List Reg) : Prop :=
  ws.val + k ≤ 16 ∧ ∀ r ∈ operands, r.val < ws.val ∨ ws.val + k ≤ r.val

/-- The registers of a workspace window (70_reset_and_hazards.md R380). -/
def window (ws : Reg) (k : Nat) : List Reg :=
  (List.finRange 16).filter fun r => ws.val ≤ r.val ∧ r.val < ws.val + k

/-! ### What a command may change -/

/-- Which `l`, `f` and `p` registers and which fields of `STATUS` a command may change. -/
structure Footprint where
  l : List Reg := []
  f : List Reg := []
  p : List Reg := []
  c : Bool := false
  cmp : Bool := false
  t : Bool := false
  cfgok : Bool := false
  err : Bool := false

/-- From `s` to `t` nothing changed but what the footprint names (and the model's counter of free values): every other
register, every other field of `STATUS`, `ERRCMD`, the configuration registers, the instance and the host's lists are as
they were. -/
def Footprint.Frame (fp : Footprint) (s t : State) : Prop :=
  (∀ r, r ∉ fp.l → t.readL r = s.readL r) ∧
  (∀ r, r ∉ fp.f → t.readF r = s.readF r) ∧
  (∀ r, r ∉ fp.p → t.readP r = s.readP r) ∧
  (fp.c = false → t.status.c = s.status.c) ∧
  (fp.cmp = false → t.status.cmp = s.status.cmp) ∧
  (fp.t = false → t.status.t = s.status.t) ∧
  (fp.cfgok = false → t.status.cfgok = s.status.cfgok) ∧
  (fp.err = false → t.status.err = s.status.err) ∧
  t.errcmd = s.errcmd ∧
  t.mod = s.mod ∧ t.mprime = s.mprime ∧ t.rr = s.rr ∧ t.rone = s.rone ∧ t.ca = s.ca ∧ t.cb = s.cb ∧
  t.geom = s.geom ∧ t.hostIn = s.hostIn ∧ t.hostOut = s.hostOut

/-- What the spec declares of a command: does it need a configuration (60_exceptions.md R342), its workspace (base,
arity, `f` operands: 70_reset_and_hazards.md R381), the fault of its own operands (R342), and what it may change (the
*Flags written* and pseudocode lines of its rule). -/
structure Profile where
  config : Bool := false
  ws : Option (Reg × Nat × List Reg) := none
  fault : State → Option (BitVec 8) := fun _ => none
  foot : Footprint := {}

/-- A fault raised where a condition holds. -/
def faultIf (p : Prop) [Decidable p] (code : BitVec 8) : Option (BitVec 8) := if p then some code else none

/-- The profile of every command, in the order of the opcode table. -/
def profile : Instr → Profile
  | .nop => {}
  | .cfg => { fault := fun s => faultIf (¬ ConfigSound s) 7, foot := { cfgok := true } }
  | .clrerr => { foot := { err := true } }
  | .ladd rd _ _ => { foot := { l := [rd], c := true } }
  | .ladc rd _ _ => { foot := { l := [rd], c := true } }
  | .lsub rd _ _ => { foot := { l := [rd], c := true } }
  | .lsbb rd _ _ => { foot := { l := [rd], c := true } }
  | .lmul rd _ _ rh => { fault := fun _ => faultIf (rd = rh) 4, foot := { l := [rd, rh] } }
  | .lclz rd _ => { foot := { l := [rd] } }
  | .lshl rd _ _ => { foot := { l := [rd] } }
  | .lshr rd _ _ => { foot := { l := [rd] } }
  | .sadd rd _ _ => { foot := { f := [rd], c := true } }
  | .ssub rd _ _ => { foot := { f := [rd], c := true } }
  | .sshl rd _ _ => { foot := { f := [rd] } }
  | .sshr rd _ _ => { foot := { f := [rd] } }
  | .scmp _ _ => { foot := { cmp := true } }
  | .sand rd _ _ => { foot := { f := [rd] } }
  | .sor rd _ _ => { foot := { f := [rd] } }
  | .sxor rd _ _ => { foot := { f := [rd] } }
  | .snot rd _ => { foot := { f := [rd] } }
  | .spow2 rd e => { fault := fun s => faultIf (s.n ≤ e) 5, foot := { f := [rd] } }
  | .bisz _ => { foot := { t := true } }
  | .bzero rd => { foot := { f := [rd] } }
  | .bone rd => { foot := { f := [rd] } }
  | .bmsb rd _ => { foot := { l := [rd] } }
  | .bsamp rd => { foot := { f := [rd] } }
  | .bsampnz rd => { foot := { f := [rd] } }
  | .bsampu rd ra => { fault := fun s => faultIf (s.readF ra = 0) 5, foot := { f := [rd] } }
  | .bsampr rd ra rb => { fault := fun s => faultIf (s.readF rb ≤ s.readF ra) 5, foot := { f := [rd] } }
  | .bsampui rd _ => { foot := { f := [rd] } }
  | .bsampri rd ra rb => { fault := fun s => faultIf (s.readF rb < s.readF ra) 5, foot := { f := [rd] } }
  | .bmov rd _ => { foot := { f := [rd] } }
  | .gadd rd _ _ => { config := true, foot := { f := [rd] } }
  | .gsub rd _ _ => { config := true, foot := { f := [rd] } }
  | .gneg rd _ => { config := true, foot := { f := [rd] } }
  | .gmp2 rd _ _ => { config := true, foot := { f := [rd] } }
  | .gmp2cf rd _ _ =>
    { config := true, fault := fun s => faultIf (2 ^ (s.n - 1) ≤ s.mod) 6, foot := { f := [rd] } }
  | .ftom rd _ => { config := true, foot := { f := [rd] } }
  | .ffromm rd _ => { config := true, foot := { f := [rd] } }
  | .fmul rd _ _ => { config := true, foot := { f := [rd] } }
  | .fpow rd ra rb ws => { config := true, ws := some (ws, 1, [rd, ra, rb]), foot := { f := rd :: window ws 1 } }
  | .fpowl rd ra _ ws => { config := true, ws := some (ws, 1, [rd, ra]), foot := { f := rd :: window ws 1 } }
  | .finv rd ra ws =>
    { config := true, ws := some (ws, 3, [rd, ra]), fault := fun s => faultIf (s.readF ra = 0) 8,
      foot := { f := rd :: window ws 3 } }
  | .fsqrt rd ra ws =>
    { config := true, ws := some (ws, 5, [rd, ra]), foot := { f := rd :: window ws 5, t := true } }
  | .pisinf _ => { config := true, foot := { t := true } }
  | .psetinf rd => { config := true, foot := { p := [rd] } }
  | .ponc _ ws => { config := true, ws := some (ws, 4, []), foot := { f := window ws 4, t := true } }
  | .peq _ _ ws => { config := true, ws := some (ws, 4, []), foot := { f := window ws 4, t := true } }
  | .pneg rd _ => { config := true, foot := { p := [rd] } }
  | .paddd rd _ _ ws => { config := true, ws := some (ws, 5, []), foot := { f := window ws 5, p := [rd] } }
  | .pdbl rd _ ws => { config := true, ws := some (ws, 2, []), foot := { f := window ws 2, p := [rd] } }
  | .padd rd _ _ ws => { config := true, ws := some (ws, 5, []), foot := { f := window ws 5, p := [rd] } }
  | .psmul rd _ rb ws => { config := true, ws := some (ws, 5, [rb]), foot := { f := window ws 5, p := [rd] } }
  | .ptoaff rd ws => { config := true, ws := some (ws, 5, []), foot := { f := window ws 5, p := [rd] } }
  | .pfromaff rd => { config := true, foot := { p := [rd] } }
  | .pmov rd _ => { config := true, foot := { p := [rd] } }

/-- The fault a command meets, by the causes of 60_exceptions.md R342 in the order of R346; `none` where it meets
none. -/
def faultOf (i : Instr) (s : State) : Option (BitVec 8) :=
  if (profile i).config = true ∧ s.status.cfgok = false then some 2
  else
    match (profile i).ws with
    | some (ws, k, operands) => if WindowBad ws k operands then some 3 else (profile i).fault s
    | none => (profile i).fault s

/-- The commands run one after the other from `s` and leave `t`. -/
def Runs : List Instr → State → State → Prop
  | [], s, t => t = s
  | i :: rest, s, t => ∃ u, exec i s = .next u ∧ Runs rest u t

/-! ### Command words (30_encoding.md R101, R104) -/

/-- What `imm` holds: nothing, a count, or an index in `imm[3:0]`. -/
inductive ImmUse where
  | zero
  | count
  | index
deriving DecidableEq, Repr

/-- A row of the opcode table: `op`, and which of `rd`, `ra`, `rb` the format uses. -/
structure Row where
  op : Nat
  rd : Bool
  ra : Bool
  rb : Bool
  imm : ImmUse
deriving DecidableEq, Repr

/-- The opcode table with its formats (30_encoding.md R101, R104). -/
def opcodeTable : List Row :=
  [⟨0x00, false, false, false, .zero⟩, ⟨0x01, false, false, false, .zero⟩, ⟨0x02, false, false, false, .zero⟩] ++
  [⟨0x10, true, true, true, .zero⟩, ⟨0x11, true, true, true, .zero⟩, ⟨0x12, true, true, true, .zero⟩,
   ⟨0x13, true, true, true, .zero⟩, ⟨0x14, true, true, true, .index⟩, ⟨0x15, true, true, false, .zero⟩,
   ⟨0x16, true, true, false, .count⟩, ⟨0x17, true, true, false, .count⟩] ++
  [⟨0x20, true, true, true, .zero⟩, ⟨0x21, true, true, true, .zero⟩, ⟨0x22, true, true, false, .count⟩,
   ⟨0x23, true, true, false, .count⟩, ⟨0x24, false, true, true, .zero⟩, ⟨0x25, true, true, true, .zero⟩,
   ⟨0x26, true, true, true, .zero⟩, ⟨0x27, true, true, true, .zero⟩, ⟨0x28, true, true, false, .zero⟩,
   ⟨0x29, true, false, false, .count⟩] ++
  [⟨0x30, false, true, false, .zero⟩, ⟨0x31, true, false, false, .zero⟩, ⟨0x32, true, false, false, .zero⟩,
   ⟨0x33, true, true, false, .zero⟩, ⟨0x34, true, false, false, .zero⟩, ⟨0x35, true, false, false, .zero⟩,
   ⟨0x36, true, true, false, .zero⟩, ⟨0x37, true, true, true, .zero⟩, ⟨0x38, true, true, false, .zero⟩,
   ⟨0x39, true, true, true, .zero⟩, ⟨0x3A, true, true, false, .zero⟩] ++
  [⟨0x40, true, true, true, .zero⟩, ⟨0x41, true, true, true, .zero⟩, ⟨0x42, true, true, false, .zero⟩,
   ⟨0x43, true, true, false, .count⟩, ⟨0x44, true, true, false, .count⟩] ++
  [⟨0x50, true, true, false, .zero⟩, ⟨0x51, true, true, false, .zero⟩, ⟨0x52, true, true, true, .zero⟩,
   ⟨0x53, true, true, true, .index⟩, ⟨0x54, true, true, true, .index⟩, ⟨0x55, true, true, false, .index⟩,
   ⟨0x56, true, true, false, .index⟩] ++
  [⟨0x60, false, true, false, .zero⟩, ⟨0x61, true, false, false, .zero⟩, ⟨0x62, false, true, false, .index⟩,
   ⟨0x63, false, true, true, .index⟩, ⟨0x64, true, true, false, .zero⟩, ⟨0x65, true, true, true, .index⟩,
   ⟨0x66, true, true, false, .index⟩, ⟨0x67, true, true, true, .index⟩, ⟨0x68, true, true, true, .index⟩,
   ⟨0x69, true, false, false, .index⟩, ⟨0x6A, true, false, false, .zero⟩, ⟨0x6B, true, true, false, .zero⟩]

/-- The word has the row's `op` and zeros wherever the row's format wants them (30_encoding.md R106). -/
def Row.Matches (r : Row) (w : Word32) : Prop :=
  (w >>> 24).toNat = r.op ∧
  (r.rd = false → (w >>> 20) &&& 0xF#32 = 0) ∧
  (r.ra = false → (w >>> 16) &&& 0xF#32 = 0) ∧
  (r.rb = false → (w >>> 12) &&& 0xF#32 = 0) ∧
  (r.imm = .zero → w &&& 0xFFF#32 = 0) ∧
  (r.imm = .index → w &&& 0xFF0#32 = 0)

/-- The word matches no row: it is illegal (30_encoding.md R106). -/
def IllegalWord (w : Word32) : Prop := ∀ r ∈ opcodeTable, ¬ r.Matches w

/-! ### Register values as field elements and points -/

/-- The field element a register value stands for (00_scope.md R17: `unmont`). -/
def elem (s : State) (v : Nat) : ZMod s.mod := (unmont s.n s.mod v : ZMod s.mod)

/-- All three coordinates are below `M` (46_point.md R283 d). -/
abbrev Below (s : State) (P : Point) : Prop := P.x < s.mod ∧ P.y < s.mod ∧ P.z < s.mod

/-- The point is infinity or satisfies `y² = x³ + A*x*z⁴ + B*z⁶` (46_point.md R280). -/
def OnCurve (s : State) (P : Point) : Prop :=
  P.z = 0 ∨
  elem s P.y ^ 2 =
    elem s P.x ^ 3 + elem s s.ca * elem s P.x * elem s P.z ^ 4 + elem s s.cb * elem s P.z ^ 6

/-- A point the group law is about: infinity, whatever `x` and `y` hold (46_point.md R281), or coordinates below `M` that
satisfy the curve equation (R280, R283 d). -/
def CurvePoint (s : State) (P : Point) : Prop := P.z = 0 ∨ (Below s P ∧ OnCurve s P)

/-- The affine `X` of two finite points agree: `x₁*z₂² = x₂*z₁²` (46_point.md R284). -/
def SameX (s : State) (P Q : Point) : Prop :=
  elem s P.x * elem s Q.z ^ 2 = elem s Q.x * elem s P.z ^ 2

/-- The affine `Y` of two finite points agree: `y₁*z₂³ = y₂*z₁³` (46_point.md R284). -/
def SameY (s : State) (P Q : Point) : Prop :=
  elem s P.y * elem s Q.z ^ 3 = elem s Q.y * elem s P.z ^ 3

/-- The affine `Y` of two finite points are opposite (46_point.md R284). -/
def OppositeY (s : State) (P Q : Point) : Prop :=
  elem s P.y * elem s Q.z ^ 3 = -(elem s Q.y * elem s P.z ^ 3)

/-- The affine point a point register's value stands for (46_point.md R280). -/
def affine (s : State) (P : Point) : AffPoint := affineOf s.n s.mod P

/-- The plain curve coefficient `A` (46_point.md R282). -/
def coeffA (s : State) : Nat := unmont s.n s.mod s.ca

/-- The curve is not singular: `4*A³ + 27*B²` is not 0 in the field (46_point.md R282). -/
def NonSingular (s : State) : Prop := 4 * elem s s.ca ^ 3 + 27 * elem s s.cb ^ 2 ≠ 0

end Sys2Proof.Safety
end

