-- ==== Sys2Proof/Certificates/Slice0/Obligations.lean ====
section
/-!
DEFINITION. The statements for the provers, in the order of the spec's files. A register's content is read as a number;
`pack op rd ra rb imm` is the word of 30_encoding.md R104; `recorded code w s` is `s` with a fault recorded; a
`Footprint.Frame` says that nothing but what it names has changed.
-/

open Sys2Proof Sys2Proof.Machine Sys2Proof.Safety

/-! ### 30_encoding.md -/

/-- Decoding the word of a well-formed command gives the command back (R101 to R104, R106). -/
def Obligations.DecodeAfterEncode : Prop :=
  ∀ i : Instr, i.wellFormed = true → decode (encode i) = .ok i

/-- A word that decodes is the word of the command it decodes to, and that command is well formed (R100 to R106): no two
words mean the same command and no bit of a legal word is dropped. -/
def Obligations.EncodeAfterDecode : Prop :=
  ∀ (w : Word32) (i : Instr), decode w = .ok i → i.wellFormed = true ∧ encode i = w

/-- Words the spec spells out, with the commands it says they are (R104; 46_point.md R286, R288, R290 to R296;
47_scalar_mul.md R321; 48_system.md R330, R331, R333). -/
def Obligations.SpelledWordsDecode : Prop :=
  decode 0x00000000#32 = .ok .nop ∧
  decode 0x01000000#32 = .ok .cfg ∧
  decode 0x02000000#32 = .ok .clrerr ∧
  decode 0x60000000#32 = .ok (.pisinf 0) ∧
  decode 0x61300000#32 = .ok (.psetinf 3) ∧
  decode 0x62000008#32 = .ok (.ponc 0 8) ∧
  decode 0x63012008#32 = .ok (.peq 1 2 8) ∧
  decode 0x64100000#32 = .ok (.pneg 1 0) ∧
  decode 0x65210008#32 = .ok (.paddd 2 1 0 8) ∧
  decode 0x66100008#32 = .ok (.pdbl 1 0 8) ∧
  decode 0x67201008#32 = .ok (.padd 2 0 1 8) ∧
  decode 0x68101008#32 = .ok (.psmul 1 0 1 8) ∧
  decode 0x69200008#32 = .ok (.ptoaff 2 8) ∧
  decode 0x6A200000#32 = .ok (.pfromaff 2) ∧
  decode 0x6B100000#32 = .ok (.pmov 1 0)

/-- R106: a word is a command exactly when it matches a row of the opcode table, the rows exclude each other, and an
illegal word raises `ILLEGAL_CMD` (code 1) before anything else is looked at. -/
def Obligations.IllegalWordsRecorded : Prop :=
  (∀ w : Word32, IllegalWord w ↔ ∀ i, decode w ≠ .ok i) ∧
  opcodeTable.Pairwise (fun a b => ∀ w, ¬ (a.Matches w ∧ b.Matches w)) ∧
  ∀ (w : Word32) (s : State), s.status.err = 0 → IllegalWord w → issue w s = .next (recorded 1 w s)

/-! ### The step (20_memory.md R74, R81; 60_exceptions.md) -/

/-- A step with the issue of a command as the host's next action runs that command (20_memory.md R74; the stream of host
actions is log entry 5). -/
def Obligations.StepRunsIssuedCommand : Prop :=
  ∀ (w : Word32) (s : State) (rest : List HostAction),
    s.hostIn = .issue w :: rest ∨ s.hostIn = .write .cmd 0 w.toNat :: rest →
    step s = issue w { s with hostIn := rest } ∧
    ∀ i, decode w = .ok i → s.status.err = 0 → step s = exec i { s with hostIn := rest }

/-- R343: while a fault is recorded every word but `CLRERR` is dropped without any change, and `CLRERR` runs. -/
def Obligations.DroppedWhileFaultRecorded : Prop :=
  ∀ (w : Word32) (s : State), s.status.err ≠ 0 →
    (w ≠ 0x02000000#32 → issue w s = .next s) ∧
    (w = 0x02000000#32 → issue w s = .next { s with status := { s.status with err := 0 } })

/-- R342, R345, R346: which fault a command records, in the order of their priority, and what recording it writes; where
no cause applies the command runs and records none. The last clause is not only the spec's: that a command also completes
outside its contract (`FINV`, `PTOAFF`, `FSQRT` under a composite `M` or with an operand that is not prime to `M` or not
below it, field and point commands with an operand of `M` or more), where U3 to U6, R352 and R389 leave refusing or not
ending open, is the model's choice, log entries 10 and 13 to 16; that rejection loops end is log entry 21's reading. -/
def Obligations.FaultCausesAndPriority : Prop :=
  ∀ (w : Word32) (s : State), Invariant s → s.status.err = 0 →
    (IllegalWord w → issue w s = .next (recorded 1 w s)) ∧
    ∀ i, decode w = .ok i →
      (∀ code, faultOf i s = some code →
        issue w s = .next (recorded code w (if i = .cfg then s.setCfgok false else s))) ∧
      (faultOf i s = none → ∃ t, issue w s = .next t ∧ t.status.err = 0)

/-- Where no fault cause applies, every command of the table completes and changes only the registers and flags its rule
names (10_state.md R35, R37 to R39, R49; 70_reset_and_hazards.md R383 for the workspace window). That a command also
completes outside its contract (`FINV`, `PTOAFF`, `FSQRT` under a composite `M` or with an operand that is not prime to `M`
or not below it, field and point commands with an operand of `M` or more), where U3 to U6, R352 and R389 leave refusing or
not ending open, is the model's choice, log entries 10 and 13 to 16; that rejection loops end is log entry 21's reading. -/
def Obligations.CommandsChangeOnlyTheirFootprint : Prop :=
  ∀ (i : Instr) (s : State), Invariant s → faultOf i s = none →
    ∃ t, exec i s = .next t ∧ (profile i).foot.Frame s t

/-! ### 48_system.md -/

/-- R330, R333: `NOP` changes nothing; `CLRERR` clears `ERR` and nothing else. -/
def Obligations.NopAndClearError : Prop :=
  ∀ s : State,
    decode 0x00000000#32 = .ok .nop ∧ exec .nop s = .next s ∧
    decode 0x02000000#32 = .ok .clrerr ∧
    exec .clrerr s = .next { s with status := { s.status with err := 0 } }

/-- R331, R332: `CFG` sets `CFGOK` when the seven checks hold; else it clears `CFGOK` and records `BADCFG` (code 7). -/
def Obligations.ConfigurationCommit : Prop :=
  ∀ s : State,
    decode 0x01000000#32 = .ok .cfg ∧
    (ConfigSound s → exec .cfg s = .next { s with status := { s.status with cfgok := true } }) ∧
    (¬ ConfigSound s →
      exec .cfg s =
        .next { s with status := { s.status with cfgok := false, err := 7 }, errcmd := 0x01000000#32 })

/-! ### 40_limb.md -/

/-- R136, R137 (with `addc`, R130): the defining equation `sum + cout*2^W = a + b + cin`. -/
def Obligations.LimbAdd : Prop :=
  ∀ (rd ra rb : Reg) (s : State), InRange s →
    decode (pack 0x10 rd ra rb 0) = .ok (.ladd rd ra rb) ∧
    decode (pack 0x11 rd ra rb 0) = .ok (.ladc rd ra rb) ∧
    (∃ t, exec (.ladd rd ra rb) s = .next t ∧ t.readL rd < 2 ^ s.W ∧
      t.readL rd + t.status.c.toNat * 2 ^ s.W = s.readL ra + s.readL rb ∧
      Footprint.Frame { l := [rd], c := true } s t) ∧
    (∃ t, exec (.ladc rd ra rb) s = .next t ∧ t.readL rd < 2 ^ s.W ∧
      t.readL rd + t.status.c.toNat * 2 ^ s.W = s.readL ra + s.readL rb + s.status.c.toNat ∧
      Footprint.Frame { l := [rd], c := true } s t)

/-- R138, R139 (with `subb`, R131): the defining equation `diff - bout*2^W = a - b - bin`. -/
def Obligations.LimbSubtract : Prop :=
  ∀ (rd ra rb : Reg) (s : State), InRange s →
    decode (pack 0x12 rd ra rb 0) = .ok (.lsub rd ra rb) ∧
    decode (pack 0x13 rd ra rb 0) = .ok (.lsbb rd ra rb) ∧
    (∃ t, exec (.lsub rd ra rb) s = .next t ∧ t.readL rd < 2 ^ s.W ∧
      t.readL rd + s.readL rb = s.readL ra + t.status.c.toNat * 2 ^ s.W ∧
      Footprint.Frame { l := [rd], c := true } s t) ∧
    (∃ t, exec (.lsbb rd ra rb) s = .next t ∧ t.readL rd < 2 ^ s.W ∧
      t.readL rd + s.readL rb + s.status.c.toNat = s.readL ra + t.status.c.toNat * 2 ^ s.W ∧
      Footprint.Frame { l := [rd], c := true } s t)

/-- R140 (with `mulw`, R132): `hi*2^W + lo = a*b`, or `PRECOND_OPERAND` (code 4) when both halves go to one register. -/
def Obligations.LimbMultiply : Prop :=
  ∀ (rd ra rb rh : Reg) (s : State), InRange s →
    decode (pack 0x14 rd ra rb rh) = .ok (.lmul rd ra rb rh) ∧
    (rd ≠ rh → ∃ t, exec (.lmul rd ra rb rh) s = .next t ∧ t.readL rd < 2 ^ s.W ∧ t.readL rh < 2 ^ s.W ∧
      t.readL rh * 2 ^ s.W + t.readL rd = s.readL ra * s.readL rb ∧
      Footprint.Frame { l := [rd, rh] } s t) ∧
    (rd = rh → exec (.lmul rd ra rb rh) s = .next (recorded 4 (pack 0x14 rd ra rb rh) s))

/-- R141 (with `clz`, R133): `W` for 0, else the number of zero bits above the highest set bit. -/
def Obligations.LimbLeadingZeros : Prop :=
  ∀ (rd ra : Reg) (s : State), InRange s →
    decode (pack 0x15 rd ra 0 0) = .ok (.lclz rd ra) ∧
    ∃ t, exec (.lclz rd ra) s = .next t ∧
      (s.readL ra = 0 → t.readL rd = s.W) ∧
      (s.readL ra ≠ 0 → t.readL rd < s.W ∧ 2 ^ (s.W - 1 - t.readL rd) ≤ s.readL ra ∧
        s.readL ra < 2 ^ (s.W - t.readL rd)) ∧
      Footprint.Frame { l := [rd] } s t

/-- R142, R143 (with `shl`, `shr`, R134): the formulas hold for every count, so a count of `W` or more gives 0. -/
def Obligations.LimbShift : Prop :=
  ∀ (rd ra : Reg) (k : Nat) (s : State), InRange s → k < 4096 →
    decode (pack 0x16 rd ra 0 k) = .ok (.lshl rd ra k) ∧
    decode (pack 0x17 rd ra 0 k) = .ok (.lshr rd ra k) ∧
    (∃ t, exec (.lshl rd ra k) s = .next t ∧ t.readL rd = s.readL ra * 2 ^ k % 2 ^ s.W ∧
      (s.W ≤ k → t.readL rd = 0) ∧ Footprint.Frame { l := [rd] } s t) ∧
    (∃ t, exec (.lshr rd ra k) s = .next t ∧ t.readL rd = s.readL ra / 2 ^ k ∧
      (s.W ≤ k → t.readL rd = 0) ∧ Footprint.Frame { l := [rd] } s t)

/-- R135: `mac` never overflows two limbs and is what the three primitives build, the last carry being 0. The function is
not in the source document; the spec marks the rule as derived from R130 and R132. -/
def Obligations.MacFromPrimitives : Prop :=
  ∀ W t a b c : Nat, t < 2 ^ W → a < 2 ^ W → b < 2 ^ W → c < 2 ^ W →
    (mac W t a b c).1 < 2 ^ W ∧ (mac W t a b c).2 < 2 ^ W ∧
    (mac W t a b c).1 * 2 ^ W + (mac W t a b c).2 = t + a * b + c ∧
    let p := mulw W a b
    let r1 := addc W p.2 t false
    let r2 := addc W r1.1 c false
    addc W p.1 r1.2.toNat r2.2 = ((mac W t a b c).1, false) ∧ r2.1 = (mac W t a b c).2

/-! ### 41_limbseq.md -/

/-- R155, R156: `val(out) + c*2^n = val(a) + val(b)` and `val(out) - w*2^n = val(a) - val(b)`. -/
def Obligations.SequenceAddSubtract : Prop :=
  ∀ (rd ra rb : Reg) (s : State), InRange s →
    decode (pack 0x20 rd ra rb 0) = .ok (.sadd rd ra rb) ∧
    decode (pack 0x21 rd ra rb 0) = .ok (.ssub rd ra rb) ∧
    (∃ t, exec (.sadd rd ra rb) s = .next t ∧ t.readF rd < 2 ^ s.n ∧
      t.readF rd + t.status.c.toNat * 2 ^ s.n = s.readF ra + s.readF rb ∧
      Footprint.Frame { f := [rd], c := true } s t) ∧
    (∃ t, exec (.ssub rd ra rb) s = .next t ∧ t.readF rd < 2 ^ s.n ∧
      t.readF rd + s.readF rb = s.readF ra + t.status.c.toNat * 2 ^ s.n ∧
      (t.status.c = true ↔ s.readF ra < s.readF rb) ∧
      Footprint.Frame { f := [rd], c := true } s t)

/-- R157, R158: shifts of the value; a count of `n` or more writes zero and is no fault. -/
def Obligations.SequenceShift : Prop :=
  ∀ (rd ra : Reg) (k : Nat) (s : State), InRange s → k < 4096 →
    decode (pack 0x22 rd ra 0 k) = .ok (.sshl rd ra k) ∧
    decode (pack 0x23 rd ra 0 k) = .ok (.sshr rd ra k) ∧
    (∃ t, exec (.sshl rd ra k) s = .next t ∧ t.readF rd = s.readF ra * 2 ^ k % 2 ^ s.n ∧
      (s.n ≤ k → t.readF rd = 0) ∧ Footprint.Frame { f := [rd] } s t) ∧
    (∃ t, exec (.sshr rd ra k) s = .next t ∧ t.readF rd = s.readF ra / 2 ^ k ∧
      (s.n ≤ k → t.readF rd = 0) ∧ Footprint.Frame { f := [rd] } s t)

/-- R159: `CMP` is 0 for equal, 1 for less, 2 for greater; no register is written. -/
def Obligations.SequenceCompare : Prop :=
  ∀ (ra rb : Reg) (s : State),
    decode (pack 0x24 0 ra rb 0) = .ok (.scmp ra rb) ∧
    ∃ t, exec (.scmp ra rb) s = .next t ∧
      (t.status.cmp.code = 0 ↔ s.readF ra = s.readF rb) ∧
      (t.status.cmp.code = 1 ↔ s.readF ra < s.readF rb) ∧
      (t.status.cmp.code = 2 ↔ s.readF rb < s.readF ra) ∧
      Footprint.Frame { cmp := true } s t

/-- R160 to R163, limb by limb. -/
def Obligations.SequenceBitwise : Prop :=
  ∀ (rd ra rb : Reg) (s : State), InRange s →
    decode (pack 0x25 rd ra rb 0) = .ok (.sand rd ra rb) ∧
    decode (pack 0x26 rd ra rb 0) = .ok (.sor rd ra rb) ∧
    decode (pack 0x27 rd ra rb 0) = .ok (.sxor rd ra rb) ∧
    decode (pack 0x28 rd ra 0 0) = .ok (.snot rd ra) ∧
    (∃ t, exec (.sand rd ra rb) s = .next t ∧ t.readF rd < 2 ^ s.n ∧
      (∀ i, limbOf s.W (t.readF rd) i = limbOf s.W (s.readF ra) i &&& limbOf s.W (s.readF rb) i) ∧
      Footprint.Frame { f := [rd] } s t) ∧
    (∃ t, exec (.sor rd ra rb) s = .next t ∧ t.readF rd < 2 ^ s.n ∧
      (∀ i, limbOf s.W (t.readF rd) i = limbOf s.W (s.readF ra) i ||| limbOf s.W (s.readF rb) i) ∧
      Footprint.Frame { f := [rd] } s t) ∧
    (∃ t, exec (.sxor rd ra rb) s = .next t ∧ t.readF rd < 2 ^ s.n ∧
      (∀ i, limbOf s.W (t.readF rd) i = limbOf s.W (s.readF ra) i ^^^ limbOf s.W (s.readF rb) i) ∧
      Footprint.Frame { f := [rd] } s t) ∧
    (∃ t, exec (.snot rd ra) s = .next t ∧ t.readF rd = 2 ^ s.n - 1 - s.readF ra ∧
      (∀ i, i < s.geom.N → limbOf s.W (t.readF rd) i = 2 ^ s.W - 1 - limbOf s.W (s.readF ra) i) ∧
      Footprint.Frame { f := [rd] } s t)

/-- R164: `2^e`, as a value and limb by limb, or `PRECOND_RANGE` (code 5) when it is not representable. -/
def Obligations.SequencePowerOfTwo : Prop :=
  ∀ (rd : Reg) (e : Nat) (s : State), InRange s → e < 4096 →
    decode (pack 0x29 rd 0 0 e) = .ok (.spow2 rd e) ∧
    (e < s.n → ∃ t, exec (.spow2 rd e) s = .next t ∧ t.readF rd = 2 ^ e ∧
      (∀ i, limbOf s.W (t.readF rd) i = if i = e / s.W then 2 ^ (e % s.W) else 0) ∧
      Footprint.Frame { f := [rd] } s t) ∧
    (s.n ≤ e → exec (.spow2 rd e) s = .next (recorded 5 (pack 0x29 rd 0 0 e) s))

/-- R150, R151: the ripple over the limbs computes the sum, the difference and the last carry or borrow. -/
def Obligations.RippleAddSubtract : Prop :=
  ∀ W N a b : Nat, a < 2 ^ (N * W) → b < 2 ^ (N * W) →
    rippleAdd W (toLimbs W N a) (toLimbs W N b) false =
      (toLimbs W N (seqAdd (N * W) a b).1, (seqAdd (N * W) a b).2) ∧
    rippleSub W (toLimbs W N a) (toLimbs W N b) false =
      (toLimbs W N (seqSub (N * W) a b).1, (seqSub (N * W) a b).2)

/-- R152, R165: comparing from the most significant limb down compares the values (which the spec derives from R152 and
R75); the highest non-zero limb gives the bit length; the value is zero exactly when every limb is. -/
def Obligations.CompareAndMsbByLimbs : Prop :=
  ∀ W N a b : Nat, a < 2 ^ (N * W) → b < 2 ^ (N * W) →
    cmpLimbs (toLimbs W N a) (toLimbs W N b) = seqCmp a b ∧
    msbLimbs W 0 (toLimbs W N a) = seqMsb a ∧
    (seqIsZero a = true ↔ ∀ x ∈ toLimbs W N a, x = 0)

/-- R153, R154: the limb formulas of the shifts, for every count below `n`; zero from `n` on. -/
def Obligations.ShiftByLimbs : Prop :=
  ∀ W N a K : Nat, 0 < W → a < 2 ^ (N * W) →
    (K < N * W → ∀ i, i < N →
      limbOf W (seqShl (N * W) a K) i = shlLimb W (K / W) (K % W) (limbOf W a) i ∧
      limbOf W (seqShr (N * W) a K) i = shrLimb W N (K / W) (K % W) (limbOf W a) i) ∧
    (K < N * W → seqShl (N * W) a K = a * 2 ^ K % 2 ^ (N * W) ∧ seqShr (N * W) a K = a / 2 ^ K) ∧
    (N * W ≤ K → seqShl (N * W) a K = 0 ∧ seqShr (N * W) a K = 0)

/-! ### 42_bigint.md -/

/-- R182 to R185: the zero test, the two constants and the copy. -/
def Obligations.BigIntTestConstantsCopy : Prop :=
  ∀ (rd ra : Reg) (s : State), InRange s →
    decode (pack 0x30 0 ra 0 0) = .ok (.bisz ra) ∧
    decode (pack 0x31 rd 0 0 0) = .ok (.bzero rd) ∧
    decode (pack 0x32 rd 0 0 0) = .ok (.bone rd) ∧
    decode (pack 0x3A rd ra 0 0) = .ok (.bmov rd ra) ∧
    (∃ t, exec (.bisz ra) s = .next t ∧ (t.status.t = true ↔ s.readF ra = 0) ∧
      Footprint.Frame { t := true } s t) ∧
    (∃ t, exec (.bzero rd) s = .next t ∧ t.readF rd = 0 ∧ Footprint.Frame { f := [rd] } s t) ∧
    (∃ t, exec (.bone rd) s = .next t ∧ t.readF rd = 1 ∧ Footprint.Frame { f := [rd] } s t) ∧
    (∃ t, exec (.bmov rd ra) s = .next t ∧ t.readF rd = s.readF ra ∧ Footprint.Frame { f := [rd] } s t)

/-- R186: the 1-based position of the highest set bit, 0 for zero. -/
def Obligations.BigIntMostSignificantBit : Prop :=
  ∀ (rd ra : Reg) (s : State), InRange s →
    decode (pack 0x33 rd ra 0 0) = .ok (.bmsb rd ra) ∧
    ∃ t, exec (.bmsb rd ra) s = .next t ∧ t.readL rd ≤ s.n ∧
      (s.readF ra = 0 → t.readL rd = 0) ∧
      (s.readF ra ≠ 0 → 1 ≤ t.readL rd ∧ 2 ^ (t.readL rd - 1) ≤ s.readF ra ∧ s.readF ra < 2 ^ t.readL rd) ∧
      Footprint.Frame { l := [rd] } s t

/-- The ranges of the samplers that cannot fault (R192, R193, R196). Which value of the range comes out is the RNG's. -/
def Obligations.SamplersWithoutFault : Prop :=
  ∀ (rd ra : Reg) (s : State), InRange s →
    decode (pack 0x34 rd 0 0 0) = .ok (.bsamp rd) ∧
    decode (pack 0x35 rd 0 0 0) = .ok (.bsampnz rd) ∧
    decode (pack 0x38 rd ra 0 0) = .ok (.bsampui rd ra) ∧
    (∃ t, exec (.bsamp rd) s = .next t ∧ t.readF rd < 2 ^ s.n ∧ Footprint.Frame { f := [rd] } s t) ∧
    (∃ t, exec (.bsampnz rd) s = .next t ∧ 1 ≤ t.readF rd ∧ t.readF rd < 2 ^ s.n ∧
      Footprint.Frame { f := [rd] } s t) ∧
    (∃ t, exec (.bsampui rd ra) s = .next t ∧ t.readF rd ≤ s.readF ra ∧ Footprint.Frame { f := [rd] } s t)

/-- The ranges of the samplers with bounds, and `PRECOND_RANGE` (code 5) on an empty range (R194, R195, R197). -/
def Obligations.SamplersWithBounds : Prop :=
  ∀ (rd ra rb : Reg) (s : State), InRange s →
    decode (pack 0x36 rd ra 0 0) = .ok (.bsampu rd ra) ∧
    decode (pack 0x37 rd ra rb 0) = .ok (.bsampr rd ra rb) ∧
    decode (pack 0x39 rd ra rb 0) = .ok (.bsampri rd ra rb) ∧
    (s.readF ra ≠ 0 → ∃ t, exec (.bsampu rd ra) s = .next t ∧ t.readF rd < s.readF ra ∧
      Footprint.Frame { f := [rd] } s t) ∧
    (s.readF ra = 0 → exec (.bsampu rd ra) s = .next (recorded 5 (pack 0x36 rd ra 0 0) s)) ∧
    (s.readF ra < s.readF rb → ∃ t, exec (.bsampr rd ra rb) s = .next t ∧ s.readF ra ≤ t.readF rd ∧
      t.readF rd < s.readF rb ∧ Footprint.Frame { f := [rd] } s t) ∧
    (s.readF rb ≤ s.readF ra → exec (.bsampr rd ra rb) s = .next (recorded 5 (pack 0x37 rd ra rb 0) s)) ∧
    (s.readF ra ≤ s.readF rb → ∃ t, exec (.bsampri rd ra rb) s = .next t ∧ s.readF ra ≤ t.readF rd ∧
      t.readF rd ≤ s.readF rb ∧ Footprint.Frame { f := [rd] } s t) ∧
    (s.readF rb < s.readF ra → exec (.bsampri rd ra rb) s = .next (recorded 5 (pack 0x39 rd ra rb 0) s))

/-! ### 43_addgroup.md -/

/-- `GADD`, `GSUB`, `GNEG` on operands below `M` (R211 to R213, R216 to R218). -/
def Obligations.GroupAddSubtractNegate : Prop :=
  ∀ (rd ra rb : Reg) (s : State), Configured s →
    decode (pack 0x40 rd ra rb 0) = .ok (.gadd rd ra rb) ∧
    decode (pack 0x41 rd ra rb 0) = .ok (.gsub rd ra rb) ∧
    decode (pack 0x42 rd ra 0 0) = .ok (.gneg rd ra) ∧
    (s.readF ra < s.mod → s.readF rb < s.mod →
      (∃ t, exec (.gadd rd ra rb) s = .next t ∧ t.readF rd = (s.readF ra + s.readF rb) % s.mod ∧
        Footprint.Frame { f := [rd] } s t) ∧
      (∃ t, exec (.gsub rd ra rb) s = .next t ∧ t.readF rd = (s.readF ra + s.mod - s.readF rb) % s.mod ∧
        Footprint.Frame { f := [rd] } s t)) ∧
    (s.readF ra < s.mod →
      ∃ t, exec (.gneg rd ra) s = .next t ∧ t.readF rd = (s.mod - s.readF ra) % s.mod ∧
        Footprint.Frame { f := [rd] } s t)

/-- `GMP2` for every modulus and `GMP2CF` where `M` has a spare top bit give `2^K*a mod M`; else `GMP2CF` raises
`PRECOND_VARIANT` (code 6) (R214, R215, R219, R220; 90_conflicts.md C1). -/
def Obligations.GroupMultiplyByPowerOfTwo : Prop :=
  ∀ (rd ra : Reg) (k : Nat) (s : State), Configured s → k < 4096 →
    decode (pack 0x43 rd ra 0 k) = .ok (.gmp2 rd ra k) ∧
    decode (pack 0x44 rd ra 0 k) = .ok (.gmp2cf rd ra k) ∧
    (s.readF ra < s.mod → ∃ t, exec (.gmp2 rd ra k) s = .next t ∧
      t.readF rd = 2 ^ k * s.readF ra % s.mod ∧ Footprint.Frame { f := [rd] } s t) ∧
    (s.mod < 2 ^ (s.n - 1) → s.readF ra < s.mod → ∃ t, exec (.gmp2cf rd ra k) s = .next t ∧
      t.readF rd = 2 ^ k * s.readF ra % s.mod ∧ Footprint.Frame { f := [rd] } s t) ∧
    (2 ^ (s.n - 1) ≤ s.mod →
      exec (.gmp2cf rd ra k) s = .next (recorded 6 (pack 0x44 rd ra 0 k) s))

/-- R211 to R215: what the algorithms of the add-group leave on EVERY register content, also outside `[0, M)` (R210):
one limb-sequence operation and at most one correction by `M`, carries and borrows beyond `n` bits dropped. -/
def Obligations.GroupAlgorithmsOnAnyContent : Prop :=
  ∀ (rd ra rb : Reg) (k : Nat) (s : State), Configured s →
    let a := s.readF ra
    let b := s.readF rb
    let R := 2 ^ s.n
    (∃ t, exec (.gadd rd ra rb) s = .next t ∧ t.readF rd =
      if R ≤ a + b ∨ s.mod ≤ (a + b) % R then ((a + b) % R + R - s.mod) % R else (a + b) % R) ∧
    (∃ t, exec (.gsub rd ra rb) s = .next t ∧ t.readF rd =
      if a < b then ((a + R - b) % R + s.mod) % R else a - b) ∧
    (∃ t, exec (.gneg rd ra) s = .next t ∧ t.readF rd = if a = 0 then 0 else (s.mod + R - a) % R) ∧
    (∃ t, exec (.gmp2 rd ra k) s = .next t ∧ t.readF rd =
      (fun v => if R ≤ 2 * v ∨ s.mod ≤ 2 * v % R then (2 * v % R + R - s.mod) % R else 2 * v % R)^[k] a) ∧
    (s.mod < 2 ^ (s.n - 1) → ∃ t, exec (.gmp2cf rd ra k) s = .next t ∧ t.readF rd =
      (fun v => if s.mod ≤ 2 * v % R then (2 * v % R + R - s.mod) % R else 2 * v % R)^[k] a)

/-- R222: the laws of the add-group. -/
def Obligations.AddGroupLaws : Prop :=
  ∀ n M a b K : Nat, 0 < n → M < 2 ^ n → a < M → b < M →
    gAdd n M a b < M ∧ gSub n M a a = 0 ∧ gAdd n M a (gNeg n M a) = 0 ∧
    gMp2 n M a 1 = gAdd n M a a ∧
    gMp2 n M a K = (fun x => gAdd n M x x)^[K] a ∧ gMp2 n M a K = 2 ^ K * a % M ∧
    (M < 2 ^ (n - 1) → gMp2Cf n M a K = gMp2 n M a K)

/-! ### 44_field_mont.md -/

/-- `FMUL`, `FTOM`, `FFROMM` on operands below `M`: the product is the one value below `M` that times `R = 2^n` is the
product of the operands (R232, R237 to R239). -/
def Obligations.MontgomeryProducts : Prop :=
  ∀ (rd ra rb : Reg) (s : State), Configured s → s.readF ra < s.mod →
    decode (pack 0x50 rd ra 0 0) = .ok (.ftom rd ra) ∧
    decode (pack 0x51 rd ra 0 0) = .ok (.ffromm rd ra) ∧
    decode (pack 0x52 rd ra rb 0) = .ok (.fmul rd ra rb) ∧
    (s.readF rb < s.mod → ∃ t, exec (.fmul rd ra rb) s = .next t ∧ t.readF rd < s.mod ∧
      t.readF rd * 2 ^ s.n % s.mod = s.readF ra * s.readF rb % s.mod ∧
      Footprint.Frame { f := [rd] } s t) ∧
    (∃ t, exec (.ftom rd ra) s = .next t ∧ t.readF rd < s.mod ∧
      t.readF rd * 2 ^ s.n % s.mod = s.readF ra * s.rr % s.mod ∧
      (s.rr = 2 ^ (2 * s.n) % s.mod → t.readF rd = s.readF ra * 2 ^ s.n % s.mod) ∧
      Footprint.Frame { f := [rd] } s t) ∧
    (∃ t, exec (.ffromm rd ra) s = .next t ∧ t.readF rd < s.mod ∧
      t.readF rd * 2 ^ s.n % s.mod = s.readF ra ∧
      Footprint.Frame { f := [rd] } s t)

/-- R243: the properties (3), (4) and (6) the document asks a test suite to verify, as runs of commands. -/
def Obligations.MontgomeryFormLaws : Prop :=
  ∀ s : State, ValidConfig s →
    (∀ ra r1 r2 : Reg, s.readF ra < s.mod →
      ∃ t, Runs [.ftom r1 ra, .ffromm r2 r1] s t ∧ t.readF r2 = s.readF ra) ∧
    (∀ ra rb r1 r2 r3 : Reg, r1 ≠ rb → r1 ≠ r2 → 2 ^ (2 * s.W) < s.mod →
      s.readF ra < 2 ^ s.W → s.readF rb < 2 ^ s.W →
      ∃ t, Runs [.ftom r1 ra, .ftom r2 rb, .fmul r3 r1 r2, .ffromm r3 r3] s t ∧
        t.readF r3 = s.readF ra * s.readF rb) ∧
    (∀ rd ra rb ws : Reg, WindowGood ws 1 [rd, ra, rb] → s.readF ra < s.mod →
      (s.readF rb = s.mod → ∃ t, exec (.fpow rd ra rb ws) s = .next t ∧ t.readF rd = s.readF ra) ∧
      (s.readF rb = s.mod - 1 → s.readF ra ≠ 0 →
        ∃ t, exec (.fpow rd ra rb ws) s = .next t ∧ t.readF rd = s.rone))

/-- `FPOW` and `FPOWL` complete for every base; for a base below `M` they give the power of the field element, and `RONE`
for the exponent 0 (R240 to R242). For a base of `M` or more the result is any value (60_exceptions.md R352, U3); that the
command completes then, which U3 lets a model refuse, is the model's choice, log entry 10. -/
def Obligations.FieldPower : Prop :=
  ∀ (rd ra rb ws : Reg) (s : State), Configured s → s.rone = 2 ^ s.n % s.mod →
    decode (pack 0x53 rd ra rb ws) = .ok (.fpow rd ra rb ws) ∧
    decode (pack 0x54 rd ra rb ws) = .ok (.fpowl rd ra rb ws) ∧
    (WindowGood ws 1 [rd, ra, rb] → ∃ t, exec (.fpow rd ra rb ws) s = .next t ∧
      (s.readF ra < s.mod → (s.readF rb = 0 → t.readF rd = s.rone) ∧
        t.readF rd < s.mod ∧ elem s (t.readF rd) = elem s (s.readF ra) ^ s.readF rb) ∧
      Footprint.Frame { f := rd :: window ws 1 } s t) ∧
    (WindowGood ws 1 [rd, ra] → ∃ t, exec (.fpowl rd ra rb ws) s = .next t ∧
      (s.readF ra < s.mod → (s.readL rb = 0 → t.readF rd = s.rone) ∧
        t.readF rd < s.mod ∧ elem s (t.readF rd) = elem s (s.readF ra) ^ s.readL rb) ∧
      Footprint.Frame { f := rd :: window ws 1 } s t)

/-- R234: interleaved operand scanning meets the contract of R232. -/
def Obligations.CiosMeetsContract : Prop :=
  ∀ W N M mprime a b : Nat, M % 2 = 1 → M < 2 ^ (N * W) → mprime < 2 ^ W →
    (mprime * (M % 2 ^ W) + 1) % 2 ^ W = 0 → a < M → b < M →
    cios W mprime (toLimbs W N M) (toLimbs W N a) (toLimbs W N b) =
      toLimbs W N (montMul (N * W) M a b)

/-- R235: schoolbook product and reduction meet the contract of R232; with `CiosMeetsContract`, the choice of algorithm is
not observable (R236). -/
def Obligations.SosMeetsContract : Prop :=
  ∀ W N M mprime a b : Nat, M % 2 = 1 → M < 2 ^ (N * W) → mprime < 2 ^ W →
    (mprime * (M % 2 ^ W) + 1) % 2 ^ W = 0 → a < M → b < M →
    sos W mprime (toLimbs W N M) (toLimbs W N a) (toLimbs W N b) =
      toLimbs W N (montMul (N * W) M a b)

/-! ### 45_field_inv_sqrt.md -/

/-- `FINV`: the Montgomery inverse of a non-zero element, `UNDEFINED_INVERSE` (code 8) on zero with nothing else changed
(R260 to R262). That the inverse of a register value is `a⁻¹*R²`, the spec derives (R260). -/
def Obligations.FieldInverse : Prop :=
  ∀ (rd ra ws : Reg) (s : State), WindowGood ws 3 [rd, ra] →
    decode (pack 0x55 rd ra 0 ws) = .ok (.finv rd ra ws) ∧
    (ValidConfig s → 1 ≤ s.readF ra → s.readF ra < s.mod →
      ∃ t, exec (.finv rd ra ws) s = .next t ∧ 1 ≤ t.readF rd ∧ t.readF rd < s.mod ∧
        s.readF ra * t.readF rd % s.mod = 2 ^ (2 * s.n) % s.mod ∧
        elem s (s.readF ra) * elem s (t.readF rd) = 1 ∧
        Footprint.Frame { f := rd :: window ws 3 } s t) ∧
    (s.status.cfgok = true → s.readF ra = 0 →
      exec (.finv rd ra ws) s = .next (recorded 8 (pack 0x55 rd ra 0 ws) s))

/-- `FSQRT`: `T` says whether a root exists; with `T = 1` the destination is one (R270, R271). -/
def Obligations.FieldSquareRoot : Prop :=
  ∀ (rd ra ws : Reg) (s : State), ValidConfig s → s.readF ra < s.mod → WindowGood ws 5 [rd, ra] →
    decode (pack 0x56 rd ra 0 ws) = .ok (.fsqrt rd ra ws) ∧
    ∃ t, exec (.fsqrt rd ra ws) s = .next t ∧
      (t.status.t = true ↔ ∃ r, r < s.mod ∧ montMul s.n s.mod r r = s.readF ra) ∧
      (t.status.t = true → t.readF rd < s.mod ∧
        t.readF rd * t.readF rd % s.mod = s.readF ra * 2 ^ s.n % s.mod) ∧
      (s.readF ra = 0 → t.readF rd = 0) ∧
      Footprint.Frame { f := rd :: window ws 5, t := true } s t

/-- R263, R264, R389: the loop of the almost inverse has ended (`v = 0`) after at most `2*bitlength(M)` steps, with
`r = a⁻¹*2^k`, and the correction reaches the value of R260. -/
def Obligations.AlmostInverseMeetsContract : Prop :=
  ∀ n M a : Nat, Nat.Prime M → M % 2 = 1 → M < 2 ^ n → 1 ≤ a → a < M →
    let rk := almostInverse M a
    let x := almostCorrect n M (2 ^ (2 * n) % M) rk
    (almostLoop (2 * bitLength M) ⟨M, a, 0, 1, 0⟩).v = 0 ∧
    1 ≤ rk.1 ∧ rk.1 < M ∧ rk.1 * a % M = 2 ^ rk.2 % M ∧ bitLength M ≤ rk.2 ∧ rk.2 ≤ 2 * bitLength M ∧
    x = montInv n M a ∧ a * x % M = 2 ^ (2 * n) % M

/-! ### 46_point.md -/

/-- `PISINF`, `PSETINF`, `PMOV`, `PNEG`, `PFROMAFF` (R286, R287, R291, R296, R297). What the commands
make of an infinite point whose `x` or `y` is not below `M` is log entry 13's reading of R281. A finite point
with a coordinate of `M` or more gets no promise (U6); that the commands complete on it, which U6 lets a model refuse, is
the model's choice, log entry 13. -/
def Obligations.PointTestsAndMoves : Prop :=
  ∀ (rd ra : Reg) (s : State), Configured s →
    decode (pack 0x60 0 ra 0 0) = .ok (.pisinf ra) ∧
    decode (pack 0x61 rd 0 0 0) = .ok (.psetinf rd) ∧
    decode (pack 0x64 rd ra 0 0) = .ok (.pneg rd ra) ∧
    decode (pack 0x6A rd 0 0 0) = .ok (.pfromaff rd) ∧
    decode (pack 0x6B rd ra 0 0) = .ok (.pmov rd ra) ∧
    (∃ t, exec (.pisinf ra) s = .next t ∧
      (Below s (s.readP ra) ∨ (s.readP ra).z = 0 → (t.status.t = true ↔ (s.readP ra).z = 0)) ∧
      Footprint.Frame { t := true } s t) ∧
    (∃ t, exec (.psetinf rd) s = .next t ∧ t.readP rd = { s.readP rd with z := 0 } ∧
      Footprint.Frame { p := [rd] } s t) ∧
    (∃ t, exec (.pneg rd ra) s = .next t ∧
      (Below s (s.readP ra) → t.readP rd = { s.readP ra with y := (s.mod - (s.readP ra).y) % s.mod }) ∧
      ((s.readP ra).z = 0 → (t.readP rd).x = (s.readP ra).x ∧ (t.readP rd).z = 0 ∧
        ((s.readP ra).y < s.mod → (t.readP rd).y = (s.mod - (s.readP ra).y) % s.mod)) ∧
      Footprint.Frame { p := [rd] } s t) ∧
    (∃ t, exec (.pfromaff rd) s = .next t ∧
      ((s.readP rd).z = 0 → t.readP rd = s.readP rd) ∧
      (Below s (s.readP rd) → (s.readP rd).z ≠ 0 → t.readP rd = { s.readP rd with z := s.rone }) ∧
      Footprint.Frame { p := [rd] } s t) ∧
    (∃ t, exec (.pmov rd ra) s = .next t ∧
      (Below s (s.readP ra) ∨ (s.readP ra).z = 0 → t.readP rd = s.readP ra) ∧ Footprint.Frame { p := [rd] } s t)

/-- `PONC`: `T` is 1 on infinity, else the curve equation in the field (R280, R288). That it is 1 also where an infinite
point's `x` or `y` is not below `M` is log entry 13's reading of R281. -/
def Obligations.CurveEquationTest : Prop :=
  ∀ (ra ws : Reg) (s : State), Configured s → ws.val + 4 ≤ 16 →
    decode (pack 0x62 0 ra 0 ws) = .ok (.ponc ra ws) ∧
    (Below s (s.readP ra) ∨ (s.readP ra).z = 0 → ∃ t, exec (.ponc ra ws) s = .next t ∧
      (t.status.t = true ↔ OnCurve s (s.readP ra)) ∧
      Footprint.Frame { f := window ws 4, t := true } s t)

/-- `PEQ` decides equality of the points: both infinite, or both finite with the same affine coordinates; the equal-`z`
shortcut is not observable (R290; infinity as in log entry 13). -/
def Obligations.PointEquality : Prop :=
  ∀ (ra rb ws : Reg) (s : State), Configured s → Nat.Prime s.mod → ws.val + 4 ≤ 16 →
    (Below s (s.readP ra) ∨ (s.readP ra).z = 0) → (Below s (s.readP rb) ∨ (s.readP rb).z = 0) →
    decode (pack 0x63 0 ra rb ws) = .ok (.peq ra rb ws) ∧
    ∃ t, exec (.peq ra rb ws) s = .next t ∧
      (t.status.t = true ↔
        ((s.readP ra).z = 0 ∧ (s.readP rb).z = 0) ∨
        ((s.readP ra).z ≠ 0 ∧ (s.readP rb).z ≠ 0 ∧
          SameX s (s.readP ra) (s.readP rb) ∧ SameY s (s.readP ra) (s.readP rb))) ∧
      Footprint.Frame { f := window ws 4, t := true } s t

/-- `PDBL`: the doubling formula in the field, and infinity doubles to infinity (R289, R293; where an infinite point's `x`
or `y` is not below `M`, log entry 13's reading). -/
def Obligations.DoublingFormula : Prop :=
  ∀ (rd ra ws : Reg) (s : State), Configured s → ws.val + 2 ≤ 16 →
    decode (pack 0x66 rd ra 0 ws) = .ok (.pdbl rd ra ws) ∧
    ((s.readP ra).z = 0 → ∃ t, exec (.pdbl rd ra ws) s = .next t ∧ (t.readP rd).z = 0 ∧
      Footprint.Frame { f := window ws 2, p := [rd] } s t) ∧
    (Below s (s.readP ra) → ∃ t, exec (.pdbl rd ra ws) s = .next t ∧ Below s (t.readP rd) ∧
      (let x := elem s (s.readP ra).x
       let y := elem s (s.readP ra).y
       let z := elem s (s.readP ra).z
       let S := 4 * x * y ^ 2
       let T := 3 * x ^ 2 + elem s s.ca * z ^ 4
       let x' := T ^ 2 - 2 * S
       elem s (t.readP rd).x = x' ∧
       elem s (t.readP rd).y = T * (S - x') - 8 * y ^ 4 ∧
       elem s (t.readP rd).z = 2 * y * z) ∧
      Footprint.Frame { f := window ws 2, p := [rd] } s t)

/-- `PADDD`: the chord formula in the field, whatever the points, and `z = 0` when an operand is infinite (R284, R285,
R292; where an infinite point's `x` or `y` is not below `M`, log entry 13's reading). -/
def Obligations.DistinctAdditionFormula : Prop :=
  ∀ (rd ra rb ws : Reg) (s : State), Configured s → ws.val + 5 ≤ 16 →
    decode (pack 0x65 rd ra rb ws) = .ok (.paddd rd ra rb ws) ∧
    ((s.readP ra).z = 0 ∨ (s.readP rb).z = 0 →
      (Below s (s.readP ra) ∨ (s.readP ra).z = 0) → (Below s (s.readP rb) ∨ (s.readP rb).z = 0) →
      ∃ t, exec (.paddd rd ra rb ws) s = .next t ∧ (t.readP rd).z = 0 ∧
        Footprint.Frame { f := window ws 5, p := [rd] } s t) ∧
    (Below s (s.readP ra) → Below s (s.readP rb) →
      ∃ t, exec (.paddd rd ra rb ws) s = .next t ∧ Below s (t.readP rd) ∧
      (let z1 := elem s (s.readP ra).z
       let z2 := elem s (s.readP rb).z
       let A := elem s (s.readP ra).x * z2 ^ 2
       let C := elem s (s.readP ra).y * z2 ^ 3
       let E := elem s (s.readP rb).x * z1 ^ 2 - A
       let F := elem s (s.readP rb).y * z1 ^ 3 - C
       let x3 := F ^ 2 - 2 * A * E ^ 2 - E ^ 3
       elem s (t.readP rd).x = x3 ∧
       elem s (t.readP rd).y = F * (A * E ^ 2 - x3) - C * E ^ 3 ∧
       elem s (t.readP rd).z = z1 * z2 * E) ∧
      Footprint.Frame { f := window ws 5, p := [rd] } s t)

/-- `PADD`: copy on infinity, `PDBL`'s result on equal points, infinity on opposite points (`x` and `y` of the destination
kept), else `PADDD`'s result (R294). The copies on an infinite operand whose `x` or `y` is not below `M` are log entry
13's reading of R281. -/
def Obligations.GenericAdditionBranches : Prop :=
  ∀ (rd ra rb ws : Reg) (s : State), Configured s → ws.val + 5 ≤ 16 →
    let P := s.readP ra
    let Q := s.readP rb
    (Below s P ∨ P.z = 0) → (Below s Q ∨ Q.z = 0) →
    decode (pack 0x67 rd ra rb ws) = .ok (.padd rd ra rb ws) ∧
    ∃ t, exec (.padd rd ra rb ws) s = .next t ∧
      (P.z = 0 → t.readP rd = Q) ∧
      (P.z ≠ 0 → Q.z = 0 → t.readP rd = P) ∧
      (P.z ≠ 0 → Q.z ≠ 0 → SameX s P Q → SameY s P Q →
        ∃ u, exec (.pdbl rd ra ws) s = .next u ∧ t.readP rd = u.readP rd) ∧
      (P.z ≠ 0 → Q.z ≠ 0 → SameX s P Q → ¬ SameY s P Q → OppositeY s P Q →
        t.readP rd = { s.readP rd with z := 0 }) ∧
      (P.z ≠ 0 → Q.z ≠ 0 → ¬ (SameX s P Q ∧ (SameY s P Q ∨ OppositeY s P Q)) →
        ∃ u, exec (.paddd rd ra rb ws) s = .next u ∧ t.readP rd = u.readP rd) ∧
      Footprint.Frame { f := window ws 5, p := [rd] } s t

/-- `PTOAFF`: no change on infinity or when `z` is one; else `x/z²`, `y/z³` and `z` left as it is (R295). That nothing
is written at `z = 0` or `z = RONE` whatever `x` and `y` hold is log entry 16's reading. -/
def Obligations.ToAffineInPlace : Prop :=
  ∀ (rd ws : Reg) (s : State), ValidConfig s → ws.val + 5 ≤ 16 →
    decode (pack 0x69 rd 0 0 ws) = .ok (.ptoaff rd ws) ∧
    ((s.readP rd).z = 0 ∨ (s.readP rd).z = s.rone → ∃ t, exec (.ptoaff rd ws) s = .next t ∧
      t.readP rd = s.readP rd ∧ Footprint.Frame { f := window ws 5 } s t) ∧
    (Below s (s.readP rd) → (s.readP rd).z ≠ 0 → (s.readP rd).z ≠ s.rone →
      ∃ t, exec (.ptoaff rd ws) s = .next t ∧ Below s (t.readP rd) ∧
        elem s (t.readP rd).x * elem s (s.readP rd).z ^ 2 = elem s (s.readP rd).x ∧
        elem s (t.readP rd).y * elem s (s.readP rd).z ^ 3 = elem s (s.readP rd).y ∧
        (t.readP rd).z = (s.readP rd).z ∧
        Footprint.Frame { f := window ws 5, p := [rd] } s t)

/-- `PTOAFF` and `PFROMAFF` as a pair: the register again stands for the same point, now with `z` one; its coordinates
are the affine ones in Montgomery form (R295, R296, R298). -/
def Obligations.AffineConversionPair : Prop :=
  ∀ (rd ws : Reg) (s : State), ValidConfig s → ws.val + 5 ≤ 16 →
    Below s (s.readP rd) → (s.readP rd).z ≠ 0 →
    ∃ t, Runs [.ptoaff rd ws, .pfromaff rd] s t ∧ Below s (t.readP rd) ∧ (t.readP rd).z = s.rone ∧
      affine s (t.readP rd) = affine s (s.readP rd) ∧
      affine s (s.readP rd) =
        some (unmont s.n s.mod (t.readP rd).x, unmont s.n s.mod (t.readP rd).y)

/-- Infinity, or a point on the curve with coordinates below `M`, is what every command that computes a point makes of
such points (R300; the document: all operations preserve the invariant). That an infinite point may hold anything in `x`
and `y` on either side is log entry 13's reading of R281. -/
def Obligations.CurveClosedUnderPointCommands : Prop :=
  ∀ (rd ra rb ws : Reg) (s : State), Configured s → CurvePoint s (s.readP ra) →
    (∃ t, exec (.pneg rd ra) s = .next t ∧ CurvePoint s (t.readP rd)) ∧
    (ws.val + 2 ≤ 16 → ∃ t, exec (.pdbl rd ra ws) s = .next t ∧ CurvePoint s (t.readP rd)) ∧
    (ws.val + 5 ≤ 16 → CurvePoint s (s.readP rb) →
      (∃ t, exec (.paddd rd ra rb ws) s = .next t ∧ CurvePoint s (t.readP rd)) ∧
      (∃ t, exec (.padd rd ra rb ws) s = .next t ∧ CurvePoint s (t.readP rd))) ∧
    (WindowGood ws 5 [rb] → ∃ t, exec (.psmul rd ra rb ws) s = .next t ∧ CurvePoint s (t.readP rd))

/-- The affine point of the result of `PADD` and `PDBL` is what the affine law gives on the affine points of the operands
(R300, R301). -/
def Obligations.AdditionAgreesWithAffineLaw : Prop :=
  ∀ (rd ra rb ws : Reg) (s : State), ValidConfig s → ws.val + 5 ≤ 16 →
    Below s (s.readP ra) → Below s (s.readP rb) → OnCurve s (s.readP ra) → OnCurve s (s.readP rb) →
    (∃ t, exec (.padd rd ra rb ws) s = .next t ∧
      affine s (t.readP rd) =
        affAdd s.mod (coeffA s) (affine s (s.readP ra)) (affine s (s.readP rb))) ∧
    (∃ t, exec (.pdbl rd ra ws) s = .next t ∧
      affine s (t.readP rd) =
        affAdd s.mod (coeffA s) (affine s (s.readP ra)) (affine s (s.readP ra)))

/-! ### 47_scalar_mul.md -/

/-- On a curve that is not singular, the result of `PSMUL` stands for the affine point `[k]P` (R321, R324). -/
def Obligations.ScalarMultiplicationIsRepeatedAddition : Prop :=
  ∀ (rd ra rb ws : Reg) (s : State), ValidConfig s → NonSingular s → WindowGood ws 5 [rb] →
    Below s (s.readP ra) → OnCurve s (s.readP ra) →
    decode (pack 0x68 rd ra rb ws) = .ok (.psmul rd ra rb ws) ∧
    ∃ t, exec (.psmul rd ra rb ws) s = .next t ∧
      affine s (t.readP rd) = affMul s.mod (coeffA s) (affine s (s.readP ra)) (s.readF rb) ∧
      Footprint.Frame { f := window ws 5, p := [rd] } s t

/-- `PSMUL` at its corners: the scalar 0 and an infinite point give `z = 0`, the scalar 1 copies the point bit for bit
(R321). That an infinite point may hold anything in `x` and `y` is log entry 13's reading of R281. A finite point with a
coordinate of `M` or more gets no promise (60_exceptions.md R352, U6); that `PSMUL` completes on it, which U6 lets a model
refuse, is the model's choice, log entry 13. -/
def Obligations.ScalarMultiplicationCorners : Prop :=
  ∀ (rd ra rb ws : Reg) (s : State), Configured s → WindowGood ws 5 [rb] →
    ∃ t, exec (.psmul rd ra rb ws) s = .next t ∧
      (s.readF rb = 0 → Below s (s.readP ra) → (t.readP rd).z = 0) ∧
      ((s.readP ra).z = 0 → (t.readP rd).z = 0) ∧
      (s.readF rb = 1 → (s.readP ra).z ≠ 0 → Below s (s.readP ra) → t.readP rd = s.readP ra) ∧
      Footprint.Frame { f := window ws 5, p := [rd] } s t

/-! ### 10_state.md, 20_memory.md, 70_reset_and_hazards.md -/

/-- R37, R39: the bits of `STATUS`; the reserved bits read as 0 and `CMP` is never 3. -/
def Obligations.StatusWordLayout : Prop :=
  ∀ q : Status,
    q.word.getLsbD 0 = q.c ∧ ((q.word >>> 1) &&& 3#32).toNat = q.cmp.code ∧ q.cmp.code ≠ 3 ∧
    q.word.getLsbD 3 = q.t ∧ q.word.getLsbD 4 = q.cfgok ∧
    q.word.getLsbD 5 = false ∧ q.word.getLsbD 6 = false ∧ q.word.getLsbD 7 = false ∧
    (q.word >>> 8).toNat = q.err.toNat

/-- Reset (10_state.md R54, 70_reset_and_hazards.md R370): `STATUS` and `ERRCMD` are 0, at `State.reset` and after the
reset input, asserted in any state; what the other registers hold is left open. -/
def Obligations.ResetClearsStatus : Prop :=
  State.reset.status.word = 0 ∧ State.reset.errcmd = 0 ∧
  ∀ (s : State) (rest : List HostAction), s.hostIn = .reset :: rest →
    ∃ t, step s = .next t ∧ t.status.word = 0 ∧ t.errcmd = 0 ∧ t.status.cfgok = false ∧ t.hostIn = rest

/-- The invariant holds at reset. The register values at `State.reset` are the model's (log entries 1 and 3). -/
def Obligations.InvariantAtReset : Prop := Invariant State.reset

/-- Every step keeps the invariant: registers in their ranges, a legal fault code, and `CFGOK` only over a configuration
that passes the checks (10_state.md R31 to R33, R40 to R45, R50; 60_exceptions.md R341; 20_memory.md R73). -/
def Obligations.InvariantKeptByEveryStep : Prop :=
  ∀ s t : State, Invariant s → step s = .next t → Invariant t

/-- A host write, but to `CMD`, sets its one element and changes no other, and clears `CFGOK` exactly when it goes to a
configuration register; a write to an illegal index (of `CMD` too) or to a read-only register changes nothing
(20_memory.md R71, R73; log entries 5 and 7). -/
def Obligations.HostWriteSetsOneElement : Prop :=
  ∀ (s : State) (sel : Sel) (i v : Nat) (rest : List HostAction), Invariant s →
    s.hostIn = .write sel i v :: rest →
    (sel.readOnly = true ∨ sel.limbs s.geom.N ≤ i → step s = .next { s with hostIn := rest }) ∧
    (sel.readOnly = false → sel ≠ .cmd → i < sel.limbs s.geom.N → v < 2 ^ sel.width s.W →
      ∃ t, step s = .next t ∧ t.element sel i = some v ∧
        (∀ sel' j, sel' ≠ .status → (sel', j) ≠ (sel, i) → t.element sel' j = s.element sel' j) ∧
        t.status = { s.status with cfgok := s.status.cfgok && !sel.isConfig } ∧
        t.geom = s.geom ∧ t.hostIn = rest ∧ t.hostOut = s.hostOut)

/-- A host read returns the element and changes nothing of the core (R72; the stream of host actions is log entry 5); a
read of what is not there, and a write wider than the element, stop the model (log entry 8). The element of each
selector is the limb of the register it names (R70); a physical access at an element's own address is the access of that
element where it is one naturally aligned word of the element's width, and any other access, at another width, at a
misaligned address or at no element's address, is refused (R78, R80; log entries 8 and 26). -/
def Obligations.HostReadReturnsElement : Prop :=
  ∀ (s : State) (sel : Sel) (i v bits : Nat) (rest : List HostAction),
    (InRange s →
      (∀ k, s.element (.l k) 0 = some (s.readL k)) ∧
      (∀ k j, j < s.geom.N →
        s.element (.f k) j = some (limbOf s.W (s.readF k) j) ∧
        s.element (.px k) j = some (limbOf s.W (s.readP k).x j) ∧
        s.element (.py k) j = some (limbOf s.W (s.readP k).y j) ∧
        s.element (.pz k) j = some (limbOf s.W (s.readP k).z j)) ∧
      (∀ j, j < s.geom.N →
        s.element .mod j = some (limbOf s.W s.mod j) ∧ s.element .rr j = some (limbOf s.W s.rr j) ∧
        s.element .rone j = some (limbOf s.W s.rone j) ∧ s.element .ca j = some (limbOf s.W s.ca j) ∧
        s.element .cb j = some (limbOf s.W s.cb j)) ∧
      s.element .mprime 0 = some s.mprime ∧ s.element .status 0 = some s.status.word.toNat ∧
      s.element .errcmd 0 = some s.errcmd.toNat ∧ s.element .cmd i = none) ∧
    (sel.limbs s.geom.N ≤ i → s.element sel i = none) ∧
    (∀ m : HostMap, m.Proper s.geom.N →
      (i < sel.limbs s.geom.N → bits = sel.width s.W ∧ m sel i % (bits / 8) = 0 →
        busTo m (.write (m sel i) bits v) s = .next { s with hostIn := s.hostIn ++ [.write sel i v] } ∧
        busTo m (.read (m sel i) bits) s = .next { s with hostIn := s.hostIn ++ [.read sel i] }) ∧
      (i < sel.limbs s.geom.N → ¬ (bits = sel.width s.W ∧ m sel i % (bits / 8) = 0) →
        busTo m (.write (m sel i) bits v) s = .refused .notAlignedWord ∧
        busTo m (.read (m sel i) bits) s = .refused .notAlignedWord) ∧
      (∀ a, (∀ sel' j, j < sel'.limbs s.geom.N → m sel' j ≠ a) →
        busTo m (.write a bits v) s = .refused .noElementAt ∧ busTo m (.read a bits) s = .refused .noElementAt)) ∧
    (s.hostIn = .read sel i :: rest →
      (s.element sel i = some v →
        step s = .next { s with hostIn := rest, hostOut := s.hostOut ++ [v] }) ∧
      (s.element sel i = none → step s = .fault .noSuchElement)) ∧
    (s.hostIn = .write sel i v :: rest → sel.readOnly = false → i < sel.limbs s.geom.N →
      2 ^ sel.width s.W ≤ v → step s = .refused .hostAccessWidth)

/-- The only ways `CFGOK` changes (10_state.md R50): `CFG` over a configuration that passes sets it; `CFG` over one that
does not, a host write to a configuration register, or reset clears it (host actions: log entry 5). -/
def Obligations.ConfigFlagLifetime : Prop :=
  ∀ s t : State, step s = .next t →
    (s.status.cfgok = false → t.status.cfgok = true →
      ConfigSound s ∧ ∃ rest, s.hostIn = .issue 0x01000000#32 :: rest ∨
        s.hostIn = .write .cmd 0 0x01000000 :: rest) ∧
    (s.status.cfgok = true → t.status.cfgok = false → ∃ a rest, s.hostIn = a :: rest ∧
      (a = .reset ∨ (∃ sel i v, a = .write sel i v ∧ sel.isConfig = true) ∨
        (¬ ConfigSound s ∧ (a = .issue 0x01000000#32 ∨ a = .write .cmd 0 0x01000000))))

/-- What the workspace holds before a command has no effect on anything the command leaves outside the window
(70_reset_and_hazards.md R383). That the two runs also leave equal remains INSIDE the window is no rule of the spec: it is
the form of the model's free values (log entries 6 and 18). -/
def Obligations.WorkspaceContentsUnobservable : Prop :=
  ∀ (i : Instr) (ws : Reg) (k : Nat) (operands : List Reg) (s : State) (g : Vector Nat 16),
    (profile i).ws = some (ws, k, operands) → faultOf i s = none →
    (∀ r : Reg, r.val < ws.val ∨ ws.val + k ≤ r.val → g[r] = s.f[r]) →
    exec i { s with f := g } = exec i s
end

