-- ==== Sys2Proof/Laws/Arith.lean ====
section
/-!
SUPPORT. What the arithmetic functions compute: one lemma per function (limbs, sequences, the add-group).
-/

namespace Sys2Proof.Machine

/-! ### Limbs -/

theorem addc_eq {W a b : Nat} {c : Bool} (ha : a < 2 ^ W) (hb : b < 2 ^ W) :
    (addc W a b c).1 < 2 ^ W ∧
      (addc W a b c).1 + (addc W a b c).2.toNat * 2 ^ W = a + b + c.toNat := by
  have hc : c.toNat ≤ 1 := Bool.toNat_le c
  simp only [addc]
  refine ⟨Nat.mod_lt _ (by positivity), ?_⟩
  by_cases h : 2 ^ W ≤ a + b + c.toNat
  · have : (a + b + c.toNat) % 2 ^ W = a + b + c.toNat - 2 ^ W := by
      rw [Nat.mod_eq_sub_mod h, Nat.mod_eq_of_lt (by omega)]
    simp only [h, decide_true, Bool.toNat_true]; omega
  · rw [Nat.mod_eq_of_lt (by omega)]
    simp [h]

theorem subb_eq {W a b : Nat} {c : Bool} (ha : a < 2 ^ W) (hb : b < 2 ^ W) :
    (subb W a b c).1 < 2 ^ W ∧
      (subb W a b c).1 + b + c.toNat = a + (subb W a b c).2.toNat * 2 ^ W := by
  have hc : c.toNat ≤ 1 := Bool.toNat_le c
  simp only [subb]
  refine ⟨Nat.mod_lt _ (by positivity), ?_⟩
  by_cases h : a < b + c.toNat
  · rw [Nat.mod_eq_of_lt (by omega)]
    simp only [h, decide_true, Bool.toNat_true]; omega
  · have : (a + 2 ^ W - (b + c.toNat)) % 2 ^ W = a - (b + c.toNat) := by
      rw [Nat.mod_eq_sub_mod (by omega), Nat.mod_eq_of_lt (by omega)]; omega
    simp only [this, h, decide_false, Bool.toNat_false]; omega

theorem mulw_eq (W a b : Nat) :
    (mulw W a b).2 < 2 ^ W ∧ (mulw W a b).1 * 2 ^ W + (mulw W a b).2 = a * b := by
  refine ⟨Nat.mod_lt _ (by positivity), ?_⟩
  simp only [mulw]; rw [Nat.mul_comm]; exact Nat.div_add_mod _ _

theorem mac_eq (W t a b c : Nat) :
    (mac W t a b c).2 < 2 ^ W ∧ (mac W t a b c).1 * 2 ^ W + (mac W t a b c).2 = t + a * b + c := by
  refine ⟨Nat.mod_lt _ (by positivity), ?_⟩
  simp only [mac]; rw [Nat.mul_comm]; exact Nat.div_add_mod _ _

theorem bitLength_zero : bitLength 0 = 0 := rfl

theorem bitLength_pos {v : Nat} (h : v ≠ 0) : bitLength v = Nat.log2 v + 1 := by simp [bitLength, h]

theorem lt_two_pow_bitLength (v : Nat) : v < 2 ^ bitLength v := by
  by_cases h : v = 0
  · subst h; decide
  · rw [bitLength_pos h]; exact Nat.lt_log2_self

theorem two_pow_le_of_bitLength {v : Nat} (h : v ≠ 0) : 2 ^ (bitLength v - 1) ≤ v := by
  rw [bitLength_pos h]; exact Nat.log2_self_le h

theorem bitLength_le {v k : Nat} (h : v < 2 ^ k) : bitLength v ≤ k := by
  by_cases h0 : v = 0
  · subst h0; simp [bitLength]
  · have := two_pow_le_of_bitLength h0
    have h2 : 2 ^ (bitLength v - 1) < 2 ^ k := lt_of_le_of_lt this h
    have := (Nat.pow_lt_pow_iff_right (by decide : 1 < 2)).1 h2
    omega

/-! ### Limb sequences, on values -/

theorem seqAdd_eq {n a b : Nat} (ha : a < 2 ^ n) (hb : b < 2 ^ n) :
    (seqAdd n a b).1 < 2 ^ n ∧ (seqAdd n a b).1 + (seqAdd n a b).2.toNat * 2 ^ n = a + b := by
  have := addc_eq (c := false) ha hb
  simpa [addc, seqAdd] using this

theorem seqSub_eq {n a b : Nat} (ha : a < 2 ^ n) (hb : b < 2 ^ n) :
    (seqSub n a b).1 < 2 ^ n ∧ (seqSub n a b).1 + b = a + (seqSub n a b).2.toNat * 2 ^ n := by
  have := subb_eq (c := false) ha hb
  simpa [subb, seqSub] using this

theorem seqSub_of_le {n a b : Nat} (ha : a < 2 ^ n) (h : b ≤ a) : (seqSub n a b).1 = a - b := by
  simp only [seqSub]
  rw [Nat.mod_eq_sub_mod (by omega), Nat.mod_eq_of_lt (by omega)]; omega

theorem seqCmp_eq (a b : Nat) :
    (seqCmp a b = .lt ↔ a < b) ∧ (seqCmp a b = .eq ↔ a = b) ∧ (seqCmp a b = .gt ↔ b < a) := by
  unfold seqCmp
  rcases Nat.lt_trichotomy a b with h | h | h
  · simp [h, h.ne, Nat.lt_asymm h]
  · simp [h]
  · simp [h.ne', h, Nat.lt_asymm h]

theorem seqIsZero_eq (a : Nat) : seqIsZero a = true ↔ a = 0 := by simp [seqIsZero]

/-! ### Add-group, for operands below `M` -/

section
variable {n M a b : Nat}

theorem reduceOnce_eq {c : Bool} {v : Nat} (hM : M < 2 ^ n) (hv : v < 2 ^ n)
    (h : v + c.toNat * 2 ^ n < 2 * M) : reduceOnce n M c v = (v + c.toNat * 2 ^ n) % M := by
  have hc := (seqCmp_eq v M).1
  cases c with
  | true =>
    simp only [Bool.toNat_true, Nat.one_mul] at h
    simp only [reduceOnce, Bool.true_or, if_true, seqSub, Bool.toNat_true, Nat.one_mul]
    rw [Nat.mod_eq_of_lt (by omega), Nat.mod_eq_sub_mod (by omega), Nat.mod_eq_of_lt (by omega)]
  | false =>
    simp only [Bool.toNat_false, Nat.zero_mul, Nat.add_zero] at h
    by_cases hlt : v < M
    · simp [reduceOnce, hc.2 hlt, Nat.mod_eq_of_lt hlt]
    · have hne : seqCmp v M ≠ .lt := fun e => hlt (hc.1 e)
      simp only [reduceOnce, Bool.false_or, bne_iff_ne, ne_eq, hne, not_false_eq_true, if_true,
        Bool.toNat_false, Nat.zero_mul, Nat.add_zero]
      rw [seqSub_of_le hv (by omega), Nat.mod_eq_sub_mod (by omega), Nat.mod_eq_of_lt (by omega)]

/-- `GAdd(a, b) = (a + b) mod M` (43_addgroup.md R211). -/
theorem gAdd_eq (hM : M < 2 ^ n) (ha : a < M) (hb : b < M) : gAdd n M a b = (a + b) % M := by
  have h := seqAdd_eq (n := n) (a := a) (b := b) (by omega) (by omega)
  rw [gAdd, reduceOnce_eq hM h.1 (by omega), h.2]

/-- `GSub(a, b) = (a - b) mod M` (R212). -/
theorem gSub_eq (hM : M < 2 ^ n) (ha : a < M) (hb : b < M) : gSub n M a b = (a + M - b) % M := by
  by_cases h : a < b
  · have : (seqSub n a b).1 = a + 2 ^ n - b := by
      simp only [seqSub]; exact Nat.mod_eq_of_lt (by omega)
    simp only [gSub, this, show (seqSub n a b).2 = true by simp [seqSub, h], if_true, seqAdd]
    rw [Nat.mod_eq_sub_mod (by omega), Nat.mod_eq_of_lt (by omega),
      Nat.mod_eq_of_lt (a := a + M - b) (by omega)]
    omega
  · simp only [gSub, show (seqSub n a b).2 = false by simp [seqSub]; omega]
    rw [seqSub_of_le (by omega) (by omega)]
    simp only [Bool.false_eq_true, if_false]
    rw [Nat.mod_eq_sub_mod (by omega), Nat.mod_eq_of_lt (by omega)]
    omega

/-- `GNeg(a) = (M - a) mod M` (R213). -/
theorem gNeg_eq (hM : M < 2 ^ n) (ha : a < M) : gNeg n M a = (M - a) % M := by
  by_cases h : a = 0
  · simp [gNeg, seqIsZero, h]
  · simp only [gNeg, seqIsZero, beq_iff_eq, h, if_false]
    rw [seqSub_of_le hM (by omega), Nat.mod_eq_of_lt (by omega)]

theorem topBit_eq {v : Nat} (hn : 1 ≤ n) (hv : v < 2 ^ n) : (topBit n v).toNat = v / 2 ^ (n - 1) := by
  have h2 : 2 ^ n = 2 * 2 ^ (n - 1) := by
    rw [← Nat.pow_succ']; congr 1; omega
  have hlt : v / 2 ^ (n - 1) < 2 := Nat.div_lt_of_lt_mul (by omega)
  rw [topBit, Nat.testBit_eq_decide_div_mod_eq]
  generalize v / 2 ^ (n - 1) = q at *
  interval_cases q <;> rfl

theorem gDouble_eq (hn : 2 ≤ n) (hM : M < 2 ^ n) {t : Nat} (ht : t < M) :
    gDouble n M t = (2 * t) % M := by
  have h2 : 2 ^ n = 2 * 2 ^ (n - 1) := by
    rw [← Nat.pow_succ']; congr 1; omega
  have hb := topBit_eq (n := n) (v := t) (by omega) (by omega)
  have hs : seqShl n t 1 = (t * 2) % 2 ^ n := by
    simp [seqShl, show 1 < n by omega]
  have hlt : t * 2 % 2 ^ n < 2 ^ n := Nat.mod_lt _ (by positivity)
  have key : t * 2 % 2 ^ n + (topBit n t).toNat * 2 ^ n = 2 * t := by
    rw [hb]
    have hq : t * 2 / 2 ^ n = t / 2 ^ (n - 1) := by
      rw [h2, Nat.mul_comm t 2, Nat.mul_div_mul_left _ _ (by decide)]
    rw [← hq, Nat.mul_comm (t * 2 / 2 ^ n), Nat.mod_add_div]; omega
  rw [gDouble, hs, reduceOnce_eq hM hlt (by omega), key]

/-- `GMp2(a, K) = 2^K * a mod M` (R214). -/
theorem gMp2_eq (hn : 2 ≤ n) (hM : M < 2 ^ n) (ha : a < M) (K : Nat) :
    gMp2 n M a K = 2 ^ K * a % M := by
  induction K with
  | zero => simp [gMp2, Nat.mod_eq_of_lt ha]
  | succ K ih =>
    rw [gMp2, ih, gDouble_eq hn hM (Nat.mod_lt _ (by omega)), Nat.mul_mod_mod, Nat.pow_succ']
    ring_nf

/-- `GMp2Cf(a, K) = GMp2(a, K)` when the modulus leaves a spare top bit (R215, R222). -/
theorem gMp2Cf_eq (hn : 2 ≤ n) (hM : M < 2 ^ (n - 1)) (ha : a < M) (K : Nat) :
    gMp2Cf n M a K = 2 ^ K * a % M := by
  have h2 : 2 ^ n = 2 * 2 ^ (n - 1) := by
    rw [← Nat.pow_succ']; congr 1; omega
  induction K with
  | zero => simp [gMp2Cf, Nat.mod_eq_of_lt ha]
  | succ K ih =>
    have hlt : 2 ^ K * a % M < M := Nat.mod_lt _ (by omega)
    have hs : seqShl n (2 ^ K * a % M) 1 = 2 * (2 ^ K * a % M) := by
      simp only [seqShl, show 1 < n by omega, if_true, Nat.pow_one]
      rw [Nat.mod_eq_of_lt (by omega), Nat.mul_comm]
    rw [gMp2Cf, ih, gDoubleCf, hs,
      reduceOnce_eq (by omega) (by omega) (by simp only [Bool.toNat_false]; omega)]
    simp only [Bool.toNat_false, Nat.zero_mul, Nat.add_zero]
    rw [Nat.mul_mod_mod, Nat.pow_succ']; ring_nf

theorem gAdd_lt (hM : M < 2 ^ n) (ha : a < M) (hb : b < M) : gAdd n M a b < M := by
  rw [gAdd_eq hM ha hb]; exact Nat.mod_lt _ (by omega)

theorem gSub_lt (hM : M < 2 ^ n) (ha : a < M) (hb : b < M) : gSub n M a b < M := by
  rw [gSub_eq hM ha hb]; exact Nat.mod_lt _ (by omega)

theorem gNeg_lt (hM : M < 2 ^ n) (ha : a < M) : gNeg n M a < M := by
  rw [gNeg_eq hM ha]; exact Nat.mod_lt _ (by omega)

theorem gMp2_lt (hn : 2 ≤ n) (hM : M < 2 ^ n) (ha : a < M) (K : Nat) : gMp2 n M a K < M := by
  rw [gMp2_eq hn hM ha]; exact Nat.mod_lt _ (by omega)

end

end Sys2Proof.Machine
end

