-- ==== Sys2Proof/Laws/Field.lean ====
section
/-!
SUPPORT. The Montgomery functions seen in the ring of residues: `elt n M x` is the residue `x*R⁻¹` a register value `x`
stands for (44_field_mont.md R230), and under it `MontMul` is multiplication, `GAdd` addition, and so on.
-/

namespace Sys2Proof.Machine

/-- The residue that a Montgomery-form register value stands for: `unmont(x)` in `ZMod M`. -/
def elt (n M x : Nat) : ZMod M := ((unmont n M x : Nat) : ZMod M)

section
variable {n M : Nat}

theorem two_mul_half (hodd : M % 2 = 1) : (2 : ZMod M) * (((M + 1) / 2 : Nat) : ZMod M) = 1 := by
  have h : 2 * ((M + 1) / 2) = M + 1 := by omega
  have := congrArg (Nat.cast : Nat → ZMod M) h
  push_cast at this
  simpa using this

theorem rInv_cast : ((rInv n M : Nat) : ZMod M) = (((M + 1) / 2 : Nat) : ZMod M) ^ n := by
  simp [rInv]

/-- `R * R⁻¹ = 1 (mod M)` for odd `M`. -/
theorem two_pow_mul_rInv (hodd : M % 2 = 1) : (2 : ZMod M) ^ n * ((rInv n M : Nat) : ZMod M) = 1 := by
  rw [rInv_cast, ← mul_pow, two_mul_half hodd, one_pow]

theorem elt_eq (x : Nat) : elt n M x = (x : ZMod M) * ((rInv n M : Nat) : ZMod M) := by
  simp [elt, unmont]

theorem cast_eq_elt (hodd : M % 2 = 1) (x : Nat) : (x : ZMod M) = elt n M x * 2 ^ n := by
  rw [elt_eq, mul_assoc, mul_comm ((rInv n M : Nat) : ZMod M), two_pow_mul_rInv hodd, mul_one]

/-- Two values below `M` that stand for one residue are equal. -/
theorem elt_inj (hodd : M % 2 = 1) {x y : Nat} (hx : x < M) (hy : y < M) :
    elt n M x = elt n M y ↔ x = y := by
  refine ⟨fun h => ?_, fun h => by rw [h]⟩
  have : (x : ZMod M) = (y : ZMod M) := by
    rw [cast_eq_elt (n := n) hodd x, cast_eq_elt (n := n) hodd y, h]
  rw [ZMod.natCast_eq_natCast_iff'] at this
  rwa [Nat.mod_eq_of_lt hx, Nat.mod_eq_of_lt hy] at this

@[simp] theorem elt_zero : elt n M 0 = 0 := by simp [elt, unmont]

theorem elt_eq_zero (hodd : M % 2 = 1) {x : Nat} (hx : x < M) : elt n M x = 0 ↔ x = 0 := by
  rw [← elt_inj (n := n) hodd hx (by omega : 0 < M), elt_zero]

theorem montMul_lt (h : 0 < M) (a b : Nat) : montMul n M a b < M := Nat.mod_lt _ h

theorem elt_montMul (a b : Nat) : elt n M (montMul n M a b) = elt n M a * elt n M b := by
  simp only [elt_eq, montMul, ZMod.natCast_mod, Nat.cast_mul]; ring

theorem elt_montSq (a : Nat) : elt n M (montSq n M a) = elt n M a ^ 2 := by
  rw [montSq, elt_montMul]; ring

theorem elt_montCube (a : Nat) : elt n M (montCube n M a) = elt n M a ^ 3 := by
  rw [montCube, elt_montMul, elt_montSq]; ring

theorem montSq_lt (h : 0 < M) (a : Nat) : montSq n M a < M := montMul_lt h _ _

theorem montCube_lt (h : 0 < M) (a : Nat) : montCube n M a < M := montMul_lt h _ _

theorem elt_mod (x : Nat) : elt n M (x % M) = elt n M x := by simp [elt_eq]

theorem elt_gAdd (hM : M < 2 ^ n) {a b : Nat} (ha : a < M) (hb : b < M) :
    elt n M (gAdd n M a b) = elt n M a + elt n M b := by
  rw [gAdd_eq hM ha hb, elt_mod]; simp only [elt_eq]; push_cast; ring

theorem elt_gSub (hM : M < 2 ^ n) {a b : Nat} (ha : a < M) (hb : b < M) :
    elt n M (gSub n M a b) = elt n M a - elt n M b := by
  rw [gSub_eq hM ha hb, elt_mod]
  simp only [elt_eq]
  rw [Nat.cast_sub (by omega)]; push_cast; rw [ZMod.natCast_self]; ring

theorem elt_gNeg (hM : M < 2 ^ n) {a : Nat} (ha : a < M) : elt n M (gNeg n M a) = -elt n M a := by
  rw [gNeg_eq hM ha, elt_mod]
  simp only [elt_eq]
  rw [Nat.cast_sub (by omega)]; rw [ZMod.natCast_self]; ring

theorem elt_gMp2 (hn : 2 ≤ n) (hM : M < 2 ^ n) {a : Nat} (ha : a < M) (K : Nat) :
    elt n M (gMp2 n M a K) = 2 ^ K * elt n M a := by
  rw [gMp2_eq hn hM ha, elt_mod]; simp only [elt_eq]; push_cast; ring

theorem elt_montOne (hodd : M % 2 = 1) : elt n M (montOne n M) = 1 := by
  rw [montOne, elt_mod, elt_eq]; push_cast; exact two_pow_mul_rInv hodd

theorem montOne_lt (h : 0 < M) : montOne n M < M := Nat.mod_lt _ h

theorem elt_mont (hodd : M % 2 = 1) (x : Nat) : elt n M (mont n M x) = x := by
  rw [mont, elt_mod, elt_eq]; push_cast; rw [mul_assoc, two_pow_mul_rInv hodd, mul_one]

/-! ### Exponentiation -/

theorem powLoop_lt (h : 0 < M) {base e : Nat} : ∀ (i acc : Nat), acc < M → powLoop n M base e acc i < M
  | 0, _, ha => ha
  | i + 1, acc, _ => by
    rw [powLoop]
    exact powLoop_lt h i _ (by split <;> exact montMul_lt h _ _)

theorem montPow_lt (h : 0 < M) {one base e : Nat} (ho : one < M) : montPow n M one base e < M :=
  powLoop_lt h _ _ ho

/-- The loop of `Pow` holds `base^(the bits of e read so far)`. -/
theorem elt_powLoop {base e : Nat} : ∀ (i acc : Nat), elt n M acc = elt n M base ^ (e / 2 ^ i) →
    elt n M (powLoop n M base e acc i) = elt n M base ^ e
  | 0, acc, h => by simpa [powLoop] using h
  | i + 1, acc, h => by
    rw [powLoop]
    refine elt_powLoop i _ ?_
    have hd : e / 2 ^ i = 2 * (e / 2 ^ (i + 1)) + (e.testBit i).toNat := by
      rw [Nat.testBit_eq_decide_div_mod_eq, Nat.pow_succ, ← Nat.div_div_eq_div_mul]
      rcases Nat.mod_two_eq_zero_or_one (e / 2 ^ i) with h2 | h2 <;> simp [h2] <;> omega
    cases hb : e.testBit i <;> simp only [hb, Bool.toNat_true, Bool.toNat_false] at hd
    · simp only [Bool.false_eq_true, if_false, elt_montMul, h]
      rw [hd]; ring
    · simp only [if_true, elt_montMul, h]
      rw [hd]; ring

/-- `Pow(base, e)` stands for the `e`-th power (44_field_mont.md R240). -/
theorem elt_montPow (hodd : M % 2 = 1) (base e : Nat) :
    elt n M (montPow n M (montOne n M) base e) = elt n M base ^ e := by
  rw [montPow]
  refine elt_powLoop _ _ ?_
  rw [elt_montOne hodd, Nat.div_eq_of_lt (lt_two_pow_bitLength e), pow_zero]

/-! ### Inversion -/

/-- Extended Euclid ends with `t0 * a = gcd` modulo `M`. -/
theorem modInvLoop_spec {a : Nat} (hM : 1 < M) : ∀ (fuel r0 r1 t0 t1 : Nat), r1 < fuel → t0 < M → t1 < M →
    (r0 : ZMod M) = t0 * a → (r1 : ZMod M) = t1 * a →
    modInvLoop M fuel r0 r1 t0 t1 < M ∧
      ((modInvLoop M fuel r0 r1 t0 t1 : Nat) : ZMod M) * a = (Nat.gcd r0 r1 : Nat)
  | 0, _, _, _, _, h, _, _, _, _ => absurd h (by omega)
  | fuel + 1, r0, r1, t0, t1, hf, ht0, ht1, h0, h1 => by
    rw [modInvLoop]
    by_cases hr : r1 = 0
    · subst hr
      simp only [if_true, Nat.gcd_zero_right]
      exact ⟨ht0, h0.symm⟩
    · simp only [hr, if_false]
      have hlt : r0 % r1 < r1 := Nat.mod_lt _ (by omega)
      have hq : ((r0 % r1 : Nat) : ZMod M) = r0 - r1 * (r0 / r1 : Nat) := by
        rw [eq_sub_iff_add_eq, ← Nat.cast_mul, ← Nat.cast_add, Nat.mod_add_div]
      have hsub : ((M - r0 / r1 * t1 % M : Nat) : ZMod M) = -((r0 / r1 : Nat) * t1) := by
        rw [Nat.cast_sub (Nat.mod_lt _ (by omega)).le, ZMod.natCast_self, ZMod.natCast_mod]
        push_cast; ring
      have ih := modInvLoop_spec hM fuel r1 (r0 % r1) t1 ((t0 + (M - r0 / r1 * t1 % M)) % M)
        (by omega) ht1 (Nat.mod_lt _ (by omega)) h1
        (by rw [ZMod.natCast_mod, Nat.cast_add, hsub, hq, h0, h1]; ring)
      rw [Nat.gcd_comm r0 r1, Nat.gcd_rec r1 r0, Nat.gcd_comm (r0 % r1) r1]
      exact ih

/-- `modInv` is the inverse modulo `M` of what is prime to `M` (00_scope.md R10). -/
theorem modInv_spec {a : Nat} (hM : 1 < M) (hg : Nat.gcd a M = 1) :
    modInv M a < M ∧ ((modInv M a : Nat) : ZMod M) * a = 1 := by
  have := modInvLoop_spec (a := a) hM (a + 1) M a 0 1 (by omega) (by omega) hM (by simp) (by simp)
  rwa [Nat.gcd_comm, hg, Nat.cast_one] at this

theorem montInv_lt (h : 0 < M) (a : Nat) : montInv n M a < M := Nat.mod_lt _ h

/-- `MontInv(a)` stands for the inverse of what `a` stands for (45_field_inv_sqrt.md R260). -/
theorem elt_montInv (hodd : M % 2 = 1) (hM : 1 < M) {a : Nat} (hg : Nat.gcd a M = 1) :
    elt n M (montInv n M a) * elt n M a = 1 := by
  have h := (modInv_spec hM hg).2
  have hr := two_pow_mul_rInv (n := n) hodd
  rw [montInv, elt_mod, elt_eq, elt_eq]
  push_cast
  rw [pow_mul' (2 : ZMod M) 2 n]
  linear_combination (((2 : ZMod M) ^ n * ((rInv n M : Nat) : ZMod M)) ^ 2) * h +
    ((2 : ZMod M) ^ n * ((rInv n M : Nat) : ZMod M) + 1) * hr

end

end Sys2Proof.Machine
end

