-- ==== Sys2Proof/Laws/State.lean ====
section
/-!
SUPPORT. One lemma per field per update of the state, true by definition, so that no later proof unfolds an update; and
what each read gives after each write.
-/

namespace Sys2Proof.Machine

section
variable (v : Bool) (s : State)
@[simp] theorem State.setC_l : (s.setC v).l = s.l := rfl
@[simp] theorem State.setC_f : (s.setC v).f = s.f := rfl
@[simp] theorem State.setC_p : (s.setC v).p = s.p := rfl
@[simp] theorem State.setC_mod : (s.setC v).mod = s.mod := rfl
@[simp] theorem State.setC_mprime : (s.setC v).mprime = s.mprime := rfl
@[simp] theorem State.setC_rr : (s.setC v).rr = s.rr := rfl
@[simp] theorem State.setC_rone : (s.setC v).rone = s.rone := rfl
@[simp] theorem State.setC_ca : (s.setC v).ca = s.ca := rfl
@[simp] theorem State.setC_cb : (s.setC v).cb = s.cb := rfl
@[simp] theorem State.setC_status : (s.setC v).status = { s.status with c := v } := rfl
@[simp] theorem State.setC_errcmd : (s.setC v).errcmd = s.errcmd := rfl
@[simp] theorem State.setC_geom : (s.setC v).geom = s.geom := rfl
@[simp] theorem State.setC_draws : (s.setC v).draws = s.draws := rfl
@[simp] theorem State.setC_hostIn : (s.setC v).hostIn = s.hostIn := rfl
@[simp] theorem State.setC_hostOut : (s.setC v).hostOut = s.hostOut := rfl
@[simp] theorem State.setC_W : (s.setC v).W = s.W := rfl
@[simp] theorem State.setC_n : (s.setC v).n = s.n := rfl
@[simp] theorem State.setC_readL (q : Reg) : (s.setC v).readL q = s.readL q := rfl
@[simp] theorem State.setC_readF (q : Reg) : (s.setC v).readF q = s.readF q := rfl
@[simp] theorem State.setC_readP (q : Reg) : (s.setC v).readP q = s.readP q := rfl
end

section
variable (v : Cmp) (s : State)
@[simp] theorem State.setCmp_l : (s.setCmp v).l = s.l := rfl
@[simp] theorem State.setCmp_f : (s.setCmp v).f = s.f := rfl
@[simp] theorem State.setCmp_p : (s.setCmp v).p = s.p := rfl
@[simp] theorem State.setCmp_mod : (s.setCmp v).mod = s.mod := rfl
@[simp] theorem State.setCmp_mprime : (s.setCmp v).mprime = s.mprime := rfl
@[simp] theorem State.setCmp_rr : (s.setCmp v).rr = s.rr := rfl
@[simp] theorem State.setCmp_rone : (s.setCmp v).rone = s.rone := rfl
@[simp] theorem State.setCmp_ca : (s.setCmp v).ca = s.ca := rfl
@[simp] theorem State.setCmp_cb : (s.setCmp v).cb = s.cb := rfl
@[simp] theorem State.setCmp_status : (s.setCmp v).status = { s.status with cmp := v } := rfl
@[simp] theorem State.setCmp_errcmd : (s.setCmp v).errcmd = s.errcmd := rfl
@[simp] theorem State.setCmp_geom : (s.setCmp v).geom = s.geom := rfl
@[simp] theorem State.setCmp_draws : (s.setCmp v).draws = s.draws := rfl
@[simp] theorem State.setCmp_hostIn : (s.setCmp v).hostIn = s.hostIn := rfl
@[simp] theorem State.setCmp_hostOut : (s.setCmp v).hostOut = s.hostOut := rfl
@[simp] theorem State.setCmp_W : (s.setCmp v).W = s.W := rfl
@[simp] theorem State.setCmp_n : (s.setCmp v).n = s.n := rfl
@[simp] theorem State.setCmp_readL (q : Reg) : (s.setCmp v).readL q = s.readL q := rfl
@[simp] theorem State.setCmp_readF (q : Reg) : (s.setCmp v).readF q = s.readF q := rfl
@[simp] theorem State.setCmp_readP (q : Reg) : (s.setCmp v).readP q = s.readP q := rfl
end

section
variable (v : Bool) (s : State)
@[simp] theorem State.setT_l : (s.setT v).l = s.l := rfl
@[simp] theorem State.setT_f : (s.setT v).f = s.f := rfl
@[simp] theorem State.setT_p : (s.setT v).p = s.p := rfl
@[simp] theorem State.setT_mod : (s.setT v).mod = s.mod := rfl
@[simp] theorem State.setT_mprime : (s.setT v).mprime = s.mprime := rfl
@[simp] theorem State.setT_rr : (s.setT v).rr = s.rr := rfl
@[simp] theorem State.setT_rone : (s.setT v).rone = s.rone := rfl
@[simp] theorem State.setT_ca : (s.setT v).ca = s.ca := rfl
@[simp] theorem State.setT_cb : (s.setT v).cb = s.cb := rfl
@[simp] theorem State.setT_status : (s.setT v).status = { s.status with t := v } := rfl
@[simp] theorem State.setT_errcmd : (s.setT v).errcmd = s.errcmd := rfl
@[simp] theorem State.setT_geom : (s.setT v).geom = s.geom := rfl
@[simp] theorem State.setT_draws : (s.setT v).draws = s.draws := rfl
@[simp] theorem State.setT_hostIn : (s.setT v).hostIn = s.hostIn := rfl
@[simp] theorem State.setT_hostOut : (s.setT v).hostOut = s.hostOut := rfl
@[simp] theorem State.setT_W : (s.setT v).W = s.W := rfl
@[simp] theorem State.setT_n : (s.setT v).n = s.n := rfl
@[simp] theorem State.setT_readL (q : Reg) : (s.setT v).readL q = s.readL q := rfl
@[simp] theorem State.setT_readF (q : Reg) : (s.setT v).readF q = s.readF q := rfl
@[simp] theorem State.setT_readP (q : Reg) : (s.setT v).readP q = s.readP q := rfl
end

section
variable (v : Bool) (s : State)
@[simp] theorem State.setCfgok_l : (s.setCfgok v).l = s.l := rfl
@[simp] theorem State.setCfgok_f : (s.setCfgok v).f = s.f := rfl
@[simp] theorem State.setCfgok_p : (s.setCfgok v).p = s.p := rfl
@[simp] theorem State.setCfgok_mod : (s.setCfgok v).mod = s.mod := rfl
@[simp] theorem State.setCfgok_mprime : (s.setCfgok v).mprime = s.mprime := rfl
@[simp] theorem State.setCfgok_rr : (s.setCfgok v).rr = s.rr := rfl
@[simp] theorem State.setCfgok_rone : (s.setCfgok v).rone = s.rone := rfl
@[simp] theorem State.setCfgok_ca : (s.setCfgok v).ca = s.ca := rfl
@[simp] theorem State.setCfgok_cb : (s.setCfgok v).cb = s.cb := rfl
@[simp] theorem State.setCfgok_status : (s.setCfgok v).status = { s.status with cfgok := v } := rfl
@[simp] theorem State.setCfgok_errcmd : (s.setCfgok v).errcmd = s.errcmd := rfl
@[simp] theorem State.setCfgok_geom : (s.setCfgok v).geom = s.geom := rfl
@[simp] theorem State.setCfgok_draws : (s.setCfgok v).draws = s.draws := rfl
@[simp] theorem State.setCfgok_hostIn : (s.setCfgok v).hostIn = s.hostIn := rfl
@[simp] theorem State.setCfgok_hostOut : (s.setCfgok v).hostOut = s.hostOut := rfl
@[simp] theorem State.setCfgok_W : (s.setCfgok v).W = s.W := rfl
@[simp] theorem State.setCfgok_n : (s.setCfgok v).n = s.n := rfl
@[simp] theorem State.setCfgok_readL (q : Reg) : (s.setCfgok v).readL q = s.readL q := rfl
@[simp] theorem State.setCfgok_readF (q : Reg) : (s.setCfgok v).readF q = s.readF q := rfl
@[simp] theorem State.setCfgok_readP (q : Reg) : (s.setCfgok v).readP q = s.readP q := rfl
end

section
variable (r : Reg) (v : Nat) (s : State)
@[simp] theorem State.writeL_l : (s.writeL r v).l = s.l.set r (v % 2 ^ s.W) := rfl
@[simp] theorem State.writeL_f : (s.writeL r v).f = s.f := rfl
@[simp] theorem State.writeL_p : (s.writeL r v).p = s.p := rfl
@[simp] theorem State.writeL_mod : (s.writeL r v).mod = s.mod := rfl
@[simp] theorem State.writeL_mprime : (s.writeL r v).mprime = s.mprime := rfl
@[simp] theorem State.writeL_rr : (s.writeL r v).rr = s.rr := rfl
@[simp] theorem State.writeL_rone : (s.writeL r v).rone = s.rone := rfl
@[simp] theorem State.writeL_ca : (s.writeL r v).ca = s.ca := rfl
@[simp] theorem State.writeL_cb : (s.writeL r v).cb = s.cb := rfl
@[simp] theorem State.writeL_status : (s.writeL r v).status = s.status := rfl
@[simp] theorem State.writeL_errcmd : (s.writeL r v).errcmd = s.errcmd := rfl
@[simp] theorem State.writeL_geom : (s.writeL r v).geom = s.geom := rfl
@[simp] theorem State.writeL_draws : (s.writeL r v).draws = s.draws := rfl
@[simp] theorem State.writeL_hostIn : (s.writeL r v).hostIn = s.hostIn := rfl
@[simp] theorem State.writeL_hostOut : (s.writeL r v).hostOut = s.hostOut := rfl
@[simp] theorem State.writeL_W : (s.writeL r v).W = s.W := rfl
@[simp] theorem State.writeL_n : (s.writeL r v).n = s.n := rfl
@[simp] theorem State.writeL_readF (q : Reg) : (s.writeL r v).readF q = s.readF q := rfl
@[simp] theorem State.writeL_readP (q : Reg) : (s.writeL r v).readP q = s.readP q := rfl
end

section
variable (r : Reg) (v : Nat) (s : State)
@[simp] theorem State.writeF_l : (s.writeF r v).l = s.l := rfl
@[simp] theorem State.writeF_f : (s.writeF r v).f = s.f.set r (v % 2 ^ s.n) := rfl
@[simp] theorem State.writeF_p : (s.writeF r v).p = s.p := rfl
@[simp] theorem State.writeF_mod : (s.writeF r v).mod = s.mod := rfl
@[simp] theorem State.writeF_mprime : (s.writeF r v).mprime = s.mprime := rfl
@[simp] theorem State.writeF_rr : (s.writeF r v).rr = s.rr := rfl
@[simp] theorem State.writeF_rone : (s.writeF r v).rone = s.rone := rfl
@[simp] theorem State.writeF_ca : (s.writeF r v).ca = s.ca := rfl
@[simp] theorem State.writeF_cb : (s.writeF r v).cb = s.cb := rfl
@[simp] theorem State.writeF_status : (s.writeF r v).status = s.status := rfl
@[simp] theorem State.writeF_errcmd : (s.writeF r v).errcmd = s.errcmd := rfl
@[simp] theorem State.writeF_geom : (s.writeF r v).geom = s.geom := rfl
@[simp] theorem State.writeF_draws : (s.writeF r v).draws = s.draws := rfl
@[simp] theorem State.writeF_hostIn : (s.writeF r v).hostIn = s.hostIn := rfl
@[simp] theorem State.writeF_hostOut : (s.writeF r v).hostOut = s.hostOut := rfl
@[simp] theorem State.writeF_W : (s.writeF r v).W = s.W := rfl
@[simp] theorem State.writeF_n : (s.writeF r v).n = s.n := rfl
@[simp] theorem State.writeF_readL (q : Reg) : (s.writeF r v).readL q = s.readL q := rfl
@[simp] theorem State.writeF_readP (q : Reg) : (s.writeF r v).readP q = s.readP q := rfl
end

section
variable (r : Reg) (P : Point) (s : State)
@[simp] theorem State.writeP_l : (s.writeP r P).l = s.l := rfl
@[simp] theorem State.writeP_f : (s.writeP r P).f = s.f := rfl
@[simp] theorem State.writeP_p : (s.writeP r P).p = s.p.set r ⟨P.x % 2 ^ s.n, P.y % 2 ^ s.n, P.z % 2 ^ s.n⟩ := rfl
@[simp] theorem State.writeP_mod : (s.writeP r P).mod = s.mod := rfl
@[simp] theorem State.writeP_mprime : (s.writeP r P).mprime = s.mprime := rfl
@[simp] theorem State.writeP_rr : (s.writeP r P).rr = s.rr := rfl
@[simp] theorem State.writeP_rone : (s.writeP r P).rone = s.rone := rfl
@[simp] theorem State.writeP_ca : (s.writeP r P).ca = s.ca := rfl
@[simp] theorem State.writeP_cb : (s.writeP r P).cb = s.cb := rfl
@[simp] theorem State.writeP_status : (s.writeP r P).status = s.status := rfl
@[simp] theorem State.writeP_errcmd : (s.writeP r P).errcmd = s.errcmd := rfl
@[simp] theorem State.writeP_geom : (s.writeP r P).geom = s.geom := rfl
@[simp] theorem State.writeP_draws : (s.writeP r P).draws = s.draws := rfl
@[simp] theorem State.writeP_hostIn : (s.writeP r P).hostIn = s.hostIn := rfl
@[simp] theorem State.writeP_hostOut : (s.writeP r P).hostOut = s.hostOut := rfl
@[simp] theorem State.writeP_W : (s.writeP r P).W = s.W := rfl
@[simp] theorem State.writeP_n : (s.writeP r P).n = s.n := rfl
@[simp] theorem State.writeP_readL (q : Reg) : (s.writeP r P).readL q = s.readL q := rfl
@[simp] theorem State.writeP_readF (q : Reg) : (s.writeP r P).readF q = s.readF q := rfl
end

section
variable (r : Reg) (v : Nat) (s : State)
@[simp] theorem State.writePz_l : (s.writePz r v).l = s.l := rfl
@[simp] theorem State.writePz_f : (s.writePz r v).f = s.f := rfl
@[simp] theorem State.writePz_p : (s.writePz r v).p = s.p.set r { s.p[r] with z := v % 2 ^ s.n } := rfl
@[simp] theorem State.writePz_mod : (s.writePz r v).mod = s.mod := rfl
@[simp] theorem State.writePz_mprime : (s.writePz r v).mprime = s.mprime := rfl
@[simp] theorem State.writePz_rr : (s.writePz r v).rr = s.rr := rfl
@[simp] theorem State.writePz_rone : (s.writePz r v).rone = s.rone := rfl
@[simp] theorem State.writePz_ca : (s.writePz r v).ca = s.ca := rfl
@[simp] theorem State.writePz_cb : (s.writePz r v).cb = s.cb := rfl
@[simp] theorem State.writePz_status : (s.writePz r v).status = s.status := rfl
@[simp] theorem State.writePz_errcmd : (s.writePz r v).errcmd = s.errcmd := rfl
@[simp] theorem State.writePz_geom : (s.writePz r v).geom = s.geom := rfl
@[simp] theorem State.writePz_draws : (s.writePz r v).draws = s.draws := rfl
@[simp] theorem State.writePz_hostIn : (s.writePz r v).hostIn = s.hostIn := rfl
@[simp] theorem State.writePz_hostOut : (s.writePz r v).hostOut = s.hostOut := rfl
@[simp] theorem State.writePz_W : (s.writePz r v).W = s.W := rfl
@[simp] theorem State.writePz_n : (s.writePz r v).n = s.n := rfl
@[simp] theorem State.writePz_readL (q : Reg) : (s.writePz r v).readL q = s.readL q := rfl
@[simp] theorem State.writePz_readF (q : Reg) : (s.writePz r v).readF q = s.readF q := rfl
end

section
variable (r : Reg) (x y : Nat) (s : State)
@[simp] theorem State.writePxy_l : (s.writePxy r x y).l = s.l := rfl
@[simp] theorem State.writePxy_f : (s.writePxy r x y).f = s.f := rfl
@[simp] theorem State.writePxy_p : (s.writePxy r x y).p = s.p.set r { s.p[r] with x := x % 2 ^ s.n, y := y % 2 ^ s.n } := rfl
@[simp] theorem State.writePxy_mod : (s.writePxy r x y).mod = s.mod := rfl
@[simp] theorem State.writePxy_mprime : (s.writePxy r x y).mprime = s.mprime := rfl
@[simp] theorem State.writePxy_rr : (s.writePxy r x y).rr = s.rr := rfl
@[simp] theorem State.writePxy_rone : (s.writePxy r x y).rone = s.rone := rfl
@[simp] theorem State.writePxy_ca : (s.writePxy r x y).ca = s.ca := rfl
@[simp] theorem State.writePxy_cb : (s.writePxy r x y).cb = s.cb := rfl
@[simp] theorem State.writePxy_status : (s.writePxy r x y).status = s.status := rfl
@[simp] theorem State.writePxy_errcmd : (s.writePxy r x y).errcmd = s.errcmd := rfl
@[simp] theorem State.writePxy_geom : (s.writePxy r x y).geom = s.geom := rfl
@[simp] theorem State.writePxy_draws : (s.writePxy r x y).draws = s.draws := rfl
@[simp] theorem State.writePxy_hostIn : (s.writePxy r x y).hostIn = s.hostIn := rfl
@[simp] theorem State.writePxy_hostOut : (s.writePxy r x y).hostOut = s.hostOut := rfl
@[simp] theorem State.writePxy_W : (s.writePxy r x y).W = s.W := rfl
@[simp] theorem State.writePxy_n : (s.writePxy r x y).n = s.n := rfl
@[simp] theorem State.writePxy_readL (q : Reg) : (s.writePxy r x y).readL q = s.readL q := rfl
@[simp] theorem State.writePxy_readF (q : Reg) : (s.writePxy r x y).readF q = s.readF q := rfl
end

section
variable (k : Nat) (s : State)
@[simp] theorem State.tookDraws_l : (s.tookDraws k).l = s.l := rfl
@[simp] theorem State.tookDraws_f : (s.tookDraws k).f = s.f := rfl
@[simp] theorem State.tookDraws_p : (s.tookDraws k).p = s.p := rfl
@[simp] theorem State.tookDraws_mod : (s.tookDraws k).mod = s.mod := rfl
@[simp] theorem State.tookDraws_mprime : (s.tookDraws k).mprime = s.mprime := rfl
@[simp] theorem State.tookDraws_rr : (s.tookDraws k).rr = s.rr := rfl
@[simp] theorem State.tookDraws_rone : (s.tookDraws k).rone = s.rone := rfl
@[simp] theorem State.tookDraws_ca : (s.tookDraws k).ca = s.ca := rfl
@[simp] theorem State.tookDraws_cb : (s.tookDraws k).cb = s.cb := rfl
@[simp] theorem State.tookDraws_status : (s.tookDraws k).status = s.status := rfl
@[simp] theorem State.tookDraws_errcmd : (s.tookDraws k).errcmd = s.errcmd := rfl
@[simp] theorem State.tookDraws_geom : (s.tookDraws k).geom = s.geom := rfl
@[simp] theorem State.tookDraws_draws : (s.tookDraws k).draws = s.draws + k := rfl
@[simp] theorem State.tookDraws_hostIn : (s.tookDraws k).hostIn = s.hostIn := rfl
@[simp] theorem State.tookDraws_hostOut : (s.tookDraws k).hostOut = s.hostOut := rfl
@[simp] theorem State.tookDraws_W : (s.tookDraws k).W = s.W := rfl
@[simp] theorem State.tookDraws_n : (s.tookDraws k).n = s.n := rfl
@[simp] theorem State.tookDraws_readL (q : Reg) : (s.tookDraws k).readL q = s.readL q := rfl
@[simp] theorem State.tookDraws_readF (q : Reg) : (s.tookDraws k).readF q = s.readF q := rfl
@[simp] theorem State.tookDraws_readP (q : Reg) : (s.tookDraws k).readP q = s.readP q := rfl
end

section
variable  (s : State)
@[simp] theorem State.clearErr_l : s.clearErr.l = s.l := rfl
@[simp] theorem State.clearErr_f : s.clearErr.f = s.f := rfl
@[simp] theorem State.clearErr_p : s.clearErr.p = s.p := rfl
@[simp] theorem State.clearErr_mod : s.clearErr.mod = s.mod := rfl
@[simp] theorem State.clearErr_mprime : s.clearErr.mprime = s.mprime := rfl
@[simp] theorem State.clearErr_rr : s.clearErr.rr = s.rr := rfl
@[simp] theorem State.clearErr_rone : s.clearErr.rone = s.rone := rfl
@[simp] theorem State.clearErr_ca : s.clearErr.ca = s.ca := rfl
@[simp] theorem State.clearErr_cb : s.clearErr.cb = s.cb := rfl
@[simp] theorem State.clearErr_status : s.clearErr.status = { s.status with err := 0 } := rfl
@[simp] theorem State.clearErr_errcmd : s.clearErr.errcmd = s.errcmd := rfl
@[simp] theorem State.clearErr_geom : s.clearErr.geom = s.geom := rfl
@[simp] theorem State.clearErr_draws : s.clearErr.draws = s.draws := rfl
@[simp] theorem State.clearErr_hostIn : s.clearErr.hostIn = s.hostIn := rfl
@[simp] theorem State.clearErr_hostOut : s.clearErr.hostOut = s.hostOut := rfl
@[simp] theorem State.clearErr_W : s.clearErr.W = s.W := rfl
@[simp] theorem State.clearErr_n : s.clearErr.n = s.n := rfl
@[simp] theorem State.clearErr_readL (q : Reg) : s.clearErr.readL q = s.readL q := rfl
@[simp] theorem State.clearErr_readF (q : Reg) : s.clearErr.readF q = s.readF q := rfl
@[simp] theorem State.clearErr_readP (q : Reg) : s.clearErr.readP q = s.readP q := rfl
end

section
variable (ws : Reg) (k : Nat) (s : State)
@[simp] theorem State.scratch_l : (s.scratch ws k).l = s.l := rfl
@[simp] theorem State.scratch_p : (s.scratch ws k).p = s.p := rfl
@[simp] theorem State.scratch_mod : (s.scratch ws k).mod = s.mod := rfl
@[simp] theorem State.scratch_mprime : (s.scratch ws k).mprime = s.mprime := rfl
@[simp] theorem State.scratch_rr : (s.scratch ws k).rr = s.rr := rfl
@[simp] theorem State.scratch_rone : (s.scratch ws k).rone = s.rone := rfl
@[simp] theorem State.scratch_ca : (s.scratch ws k).ca = s.ca := rfl
@[simp] theorem State.scratch_cb : (s.scratch ws k).cb = s.cb := rfl
@[simp] theorem State.scratch_status : (s.scratch ws k).status = s.status := rfl
@[simp] theorem State.scratch_errcmd : (s.scratch ws k).errcmd = s.errcmd := rfl
@[simp] theorem State.scratch_geom : (s.scratch ws k).geom = s.geom := rfl
@[simp] theorem State.scratch_draws : (s.scratch ws k).draws = s.draws + k := rfl
@[simp] theorem State.scratch_hostIn : (s.scratch ws k).hostIn = s.hostIn := rfl
@[simp] theorem State.scratch_hostOut : (s.scratch ws k).hostOut = s.hostOut := rfl
@[simp] theorem State.scratch_W : (s.scratch ws k).W = s.W := rfl
@[simp] theorem State.scratch_n : (s.scratch ws k).n = s.n := rfl
@[simp] theorem State.scratch_readL (q : Reg) : (s.scratch ws k).readL q = s.readL q := rfl
@[simp] theorem State.scratch_readP (q : Reg) : (s.scratch ws k).readP q = s.readP q := rfl
end

section
variable (e : FaultCode) (w : Word32) (s : State)
@[simp] theorem State.raise_l : (s.raise e w).l = s.l := rfl
@[simp] theorem State.raise_f : (s.raise e w).f = s.f := rfl
@[simp] theorem State.raise_p : (s.raise e w).p = s.p := rfl
@[simp] theorem State.raise_mod : (s.raise e w).mod = s.mod := rfl
@[simp] theorem State.raise_mprime : (s.raise e w).mprime = s.mprime := rfl
@[simp] theorem State.raise_rr : (s.raise e w).rr = s.rr := rfl
@[simp] theorem State.raise_rone : (s.raise e w).rone = s.rone := rfl
@[simp] theorem State.raise_ca : (s.raise e w).ca = s.ca := rfl
@[simp] theorem State.raise_cb : (s.raise e w).cb = s.cb := rfl
@[simp] theorem State.raise_status : (s.raise e w).status =
    { s.status with err := e.code, cfgok := if e = .badcfg then false else s.status.cfgok } := rfl
@[simp] theorem State.raise_errcmd : (s.raise e w).errcmd = w := rfl
@[simp] theorem State.raise_geom : (s.raise e w).geom = s.geom := rfl
@[simp] theorem State.raise_draws : (s.raise e w).draws = s.draws := rfl
@[simp] theorem State.raise_hostIn : (s.raise e w).hostIn = s.hostIn := rfl
@[simp] theorem State.raise_hostOut : (s.raise e w).hostOut = s.hostOut := rfl
@[simp] theorem State.raise_W : (s.raise e w).W = s.W := rfl
@[simp] theorem State.raise_n : (s.raise e w).n = s.n := rfl
@[simp] theorem State.raise_readL (q : Reg) : (s.raise e w).readL q = s.readL q := rfl
@[simp] theorem State.raise_readF (q : Reg) : (s.raise e w).readF q = s.readF q := rfl
@[simp] theorem State.raise_readP (q : Reg) : (s.raise e w).readP q = s.readP q := rfl
end

/-! ### A read after a write -/

section
variable (r q : Reg) (v x y : Nat) (s : State)

theorem State.writeL_readL : (s.writeL r v).readL q = if q = r then v % 2 ^ s.W else s.readL q := by
  simp only [State.writeL, State.readL, Fin.getElem_fin, Vector.getElem_set, Fin.ext_iff, eq_comm]

theorem State.writeF_readF : (s.writeF r v).readF q = if q = r then v % 2 ^ s.n else s.readF q := by
  simp only [State.writeF, State.readF, Fin.getElem_fin, Vector.getElem_set, Fin.ext_iff, eq_comm]

theorem State.writeP_readP (P : Point) : (s.writeP r P).readP q =
    if q = r then ⟨P.x % 2 ^ s.n, P.y % 2 ^ s.n, P.z % 2 ^ s.n⟩ else s.readP q := by
  simp only [State.writeP, State.readP, Fin.getElem_fin, Vector.getElem_set, Fin.ext_iff, eq_comm]

theorem State.writePz_readP : (s.writePz r v).readP q =
    if q = r then { s.readP r with z := v % 2 ^ s.n } else s.readP q := by
  simp only [State.writePz, State.readP, Fin.getElem_fin, Vector.getElem_set, Fin.ext_iff, eq_comm]

theorem State.writePxy_readP : (s.writePxy r x y).readP q =
    if q = r then { s.readP r with x := x % 2 ^ s.n, y := y % 2 ^ s.n } else s.readP q := by
  simp only [State.writePxy, State.readP, Fin.getElem_fin, Vector.getElem_set, Fin.ext_iff, eq_comm]

theorem State.scratch_readF (ws : Reg) (k : Nat) : (s.scratch ws k).readF q =
    if inWindow ws k q then s.free (q.val - ws.val) % 2 ^ s.n else s.readF q := by
  simp [State.scratch, State.readF]

@[simp] theorem State.writeL_readL_same : (s.writeL r v).readL r = v % 2 ^ s.W := by
  simp [State.writeL_readL]

@[simp] theorem State.writeF_readF_same : (s.writeF r v).readF r = v % 2 ^ s.n := by
  simp [State.writeF_readF]

@[simp] theorem State.writeP_readP_same (P : Point) :
    (s.writeP r P).readP r = ⟨P.x % 2 ^ s.n, P.y % 2 ^ s.n, P.z % 2 ^ s.n⟩ := by
  simp [State.writeP_readP]

end

end Sys2Proof.Machine
end

