-- ==== Sys2Proof/Laws/Ops.lean ====
section
/-!
SUPPORT. What each shared operation of Machine/Ops.lean and of the families can do, once: the configuration and
workspace gates, a recorded fault, and the frame of every kind of register write.
-/

namespace Sys2Proof.Machine

open Sys2Proof.Safety

/-! ### The gates -/

theorem requireCfg_on {i : Instr} {s body : State} (h : s.status.cfgok = true) :
    requireCfg i s body = .next body := by simp [requireCfg, h]

theorem raise_eq (e : FaultCode) (w : Word32) (s : State) (h : e ≠ .badcfg) :
    s.raise e w = recorded e.code w s := by simp [State.raise, recorded, h]

theorem raise_badcfg (w : Word32) (s : State) : s.raise .badcfg w = recorded 7 w (s.setCfgok false) := rfl

theorem requireCfg_off {i : Instr} {s body : State} (h : s.status.cfgok = false) :
    requireCfg i s body = .next (recorded 2 (encode i) s) := by
  simp [requireCfg, h, raise_eq, FaultCode.code]

theorem inWindow_iff {ws : Reg} {k : Nat} {r : Reg} :
    inWindow ws k r = true ↔ ws.val ≤ r.val ∧ r.val < ws.val + k := by simp [inWindow]

theorem windowOk_iff {ws : Reg} {k : Nat} {operands : List Reg} :
    windowOk ws k operands = true ↔ ¬ WindowBad ws k operands := by
  simp only [windowOk, WindowBad, Bool.and_eq_true, decide_eq_true_eq, List.all_eq_true, Bool.not_eq_true',
    inWindow, decide_eq_false_iff_not]
  grind

theorem windowGood_iff {ws : Reg} {k : Nat} {operands : List Reg} :
    WindowGood ws k operands ↔ ¬ WindowBad ws k operands := by
  simp only [WindowGood, WindowBad]; grind

theorem requireWs_good {i : Instr} {ws : Reg} {k : Nat} {operands : List Reg} {s body : State}
    (h : WindowGood ws k operands) : requireWs i ws k operands s body = body := by
  simp [requireWs, windowOk_iff.2 (windowGood_iff.1 h)]

theorem requireWs_bad {i : Instr} {ws : Reg} {k : Nat} {operands : List Reg} {s body : State}
    (h : WindowBad ws k operands) :
    requireWs i ws k operands s body = recorded 3 (encode i) s := by
  have : ¬ windowOk ws k operands = true := fun e => windowOk_iff.1 e h
  simp [requireWs, this, raise_eq, FaultCode.code]

/-- Both gates passed: the command's own effect. -/
theorem require_both {i : Instr} {ws : Reg} {k : Nat} {operands : List Reg} {s body : State}
    (hc : s.status.cfgok = true) (h : WindowGood ws k operands) :
    requireCfg i s (requireWs i ws k operands s body) = .next body := by
  rw [requireCfg_on hc, requireWs_good h]

theorem mem_window {ws : Reg} {k : Nat} {r : Reg} : r ∈ window ws k ↔ ws.val ≤ r.val ∧ r.val < ws.val + k := by
  simp [window]

/-! ### Fault causes -/

/-- A command meets no fault cause exactly when each of its three kinds of cause is absent. -/
theorem faultOf_eq_none {i : Instr} {s : State} :
    faultOf i s = none ↔
      ((profile i).config = true → s.status.cfgok = true) ∧
      (∀ ws k operands, (profile i).ws = some (ws, k, operands) → WindowGood ws k operands) ∧
      (profile i).fault s = none := by
  unfold faultOf
  split
  · next h => simp [h.1, h.2]
  · next h =>
    have hc : (profile i).config = true → s.status.cfgok = true := by simpa using h
    rcases hw : (profile i).ws with _ | ⟨ws, k, operands⟩
    · simpa using fun _ => hc
    · by_cases hb : WindowBad ws k operands
      · have : ¬ WindowGood ws k operands := fun g => windowGood_iff.1 g hb
        simp only [hb, if_true, reduceCtorEq, Option.some.injEq, Prod.mk.injEq, false_iff]
        intro g; exact this (g.2.1 ws k operands ⟨rfl, rfl, rfl⟩)
      · have : WindowGood ws k operands := windowGood_iff.2 hb
        simp only [hb, if_false, Option.some.injEq, Prod.mk.injEq]
        refine ⟨fun g => ⟨hc, ?_, g⟩, fun g => g.2.2⟩
        rintro _ _ _ ⟨rfl, rfl, rfl⟩; exact this

theorem faultIf_eq_none {p : Prop} [Decidable p] {code : BitVec 8} : faultIf p code = none ↔ ¬ p := by
  simp [faultIf]

theorem configChecks_iff (s : State) : s.configChecks = true ↔ ConfigSound s := by
  simp [State.configChecks, ConfigSound, limbOf, and_assoc]

/-- A legal instance has at least 32 bits in a value register. -/
theorem Geometry.legal.le_n {g : Geometry} (h : g.legal) : 32 ≤ g.n := by
  obtain ⟨h1, h2, _⟩ := h
  have : 1 * 32 ≤ g.N * g.W := Nat.mul_le_mul h2 (by omega)
  simpa [Geometry.n] using this

theorem topBit_iff {n v : Nat} (hn : 1 ≤ n) (hv : v < 2 ^ n) : topBit n v = true ↔ 2 ^ (n - 1) ≤ v := by
  have h := topBit_eq hn hv
  constructor
  · intro hb
    rw [hb, Bool.toNat_true] at h
    by_contra hc
    rw [Nat.div_eq_of_lt (by omega)] at h
    exact absurd h (by decide)
  · intro hle
    have : 1 ≤ v / 2 ^ (n - 1) := (Nat.one_le_div_iff (by positivity)).2 hle
    cases hb : topBit n v with
    | true => rfl
    | false => rw [hb, Bool.toNat_false] at h; omega

end Sys2Proof.Machine
end

