-- ==== Sys2Proof/Laws/Frames.lean ====
section
/-!
SUPPORT. The frame of every shape of result a command can have: what it leaves unchanged.
-/

namespace Sys2Proof.Machine

open Sys2Proof.Safety

section
variable (s t u : State) (r q ws : Reg) (v x y k m : Nat) (b : Bool) (P : Point)

theorem frame_refl : Footprint.Frame {} s s := by simp [Footprint.Frame]

theorem frame_writeL : Footprint.Frame { l := [r] } s (s.writeL r v) := by
  simp +contextual [Footprint.Frame, State.writeL_readL]

theorem frame_writeL_setC : Footprint.Frame { l := [r], c := true } s ((s.writeL r v).setC b) := by
  simp +contextual [Footprint.Frame, State.writeL_readL]

theorem frame_writeL_writeL : Footprint.Frame { l := [r, q] } s ((s.writeL r v).writeL q x) := by
  simp +contextual [Footprint.Frame, State.writeL_readL]

theorem frame_writeF : Footprint.Frame { f := [r] } s (s.writeF r v) := by
  simp +contextual [Footprint.Frame, State.writeF_readF]

theorem frame_writeF_setC : Footprint.Frame { f := [r], c := true } s ((s.writeF r v).setC b) := by
  simp +contextual [Footprint.Frame, State.writeF_readF]

theorem frame_writeF_setT : Footprint.Frame { f := [r], t := true } s ((s.writeF r v).setT b) := by
  simp +contextual [Footprint.Frame, State.writeF_readF]

theorem frame_setCmp (c : Cmp) : Footprint.Frame { cmp := true } s (s.setCmp c) := by simp [Footprint.Frame]

theorem frame_setT : Footprint.Frame { t := true } s (s.setT b) := by simp [Footprint.Frame]

theorem frame_setCfgok : Footprint.Frame { cfgok := true } s (s.setCfgok b) := by simp [Footprint.Frame]

theorem frame_clearErr : Footprint.Frame { err := true } s s.clearErr := by simp [Footprint.Frame]

theorem frame_writeP : Footprint.Frame { p := [r] } s (s.writeP r P) := by
  simp +contextual [Footprint.Frame, State.writeP_readP]

theorem frame_writePz : Footprint.Frame { p := [r] } s (s.writePz r v) := by
  simp +contextual [Footprint.Frame, State.writePz_readP]

theorem frame_writePxy : Footprint.Frame { p := [r] } s (s.writePxy r x y) := by
  simp +contextual [Footprint.Frame, State.writePxy_readP]

variable {s t u}

/-- A frame may name more. -/
theorem Frame.weaken {fp fp' : Footprint} (h : fp.Frame s t) (hl : fp.l ⊆ fp'.l) (hf : fp.f ⊆ fp'.f)
    (hp : fp.p ⊆ fp'.p) (hc : fp'.c = false → fp.c = false) (hcmp : fp'.cmp = false → fp.cmp = false)
    (ht : fp'.t = false → fp.t = false) (hg : fp'.cfgok = false → fp.cfgok = false)
    (he : fp'.err = false → fp.err = false) : fp'.Frame s t :=
  ⟨fun r hr => h.1 r fun m => hr (hl m), fun r hr => h.2.1 r fun m => hr (hf m),
    fun r hr => h.2.2.1 r fun m => hr (hp m), fun e => h.2.2.2.1 (hc e), fun e => h.2.2.2.2.1 (hcmp e),
    fun e => h.2.2.2.2.2.1 (ht e), fun e => h.2.2.2.2.2.2.1 (hg e), fun e => h.2.2.2.2.2.2.2.1 (he e),
    h.2.2.2.2.2.2.2.2⟩

/-- A write that changes nothing else is in any frame that names its register. -/
theorem Frame.of_refl {fp : Footprint} : fp.Frame s s :=
  Frame.weaken (frame_refl s) (by simp) (by simp) (by simp) (by simp) (by simp) (by simp) (by simp) (by simp)

/-- Frames compose. -/
theorem Frame.trans {fp : Footprint} (h : fp.Frame s t) (h' : fp.Frame t u) : fp.Frame s u := by
  obtain ⟨a1, a2, a3, a4, a5, a6, a7, a8, a9, a10, a11, a12, a13, a14, a15, a16, a17, a18⟩ := h
  obtain ⟨b1, b2, b3, b4, b5, b6, b7, b8, b9, b10, b11, b12, b13, b14, b15, b16, b17, b18⟩ := h'
  exact ⟨fun r hr => (b1 r hr).trans (a1 r hr), fun r hr => (b2 r hr).trans (a2 r hr),
    fun r hr => (b3 r hr).trans (a3 r hr), fun e => (b4 e).trans (a4 e), fun e => (b5 e).trans (a5 e),
    fun e => (b6 e).trans (a6 e), fun e => (b7 e).trans (a7 e), fun e => (b8 e).trans (a8 e), b9.trans a9,
    b10.trans a10, b11.trans a11, b12.trans a12, b13.trans a13, b14.trans a14, b15.trans a15, b16.trans a16,
    b17.trans a17, b18.trans a18⟩

/-- Taking draws changes nothing a frame speaks of. -/
theorem Frame.tookDraws {fp : Footprint} (h : fp.Frame s t) : fp.Frame s (t.tookDraws m) := h

/-- A workspace window on top of what a frame already names. -/
theorem Frame.scratch {fp : Footprint} (h : fp.Frame s t) :
    Footprint.Frame { fp with f := fp.f ++ window ws k } s (t.scratch ws k) := by
  obtain ⟨a1, a2, a3, a4⟩ := h
  refine ⟨a1, fun r hr => ?_, a3, a4⟩
  rw [List.mem_append, not_or, mem_window] at hr
  rw [State.scratch_readF, if_neg (fun h => hr.2 (inWindow_iff.1 h))]
  exact a2 r hr.1

end

end Sys2Proof.Machine
end

