-- ==== Sys2Proof/Laws/Limbs.lean ====
section
/-!
SUPPORT. Values and their limbs (00_scope.md R11): `toLimbs` and `ofLimbs` are inverse, and one limb is split off at
either end.
-/

namespace Sys2Proof.Machine

section
variable {W : Nat}

theorem limbOf_lt (v i : Nat) : limbOf W v i < 2 ^ W := Nat.mod_lt _ (by positivity)

theorem limbOf_zero_eq (v : Nat) : limbOf W v 0 = v % 2 ^ W := by simp [limbOf]

theorem limbOf_succ (v i : Nat) : limbOf W v (i + 1) = limbOf W (v / 2 ^ W) i := by
  rw [limbOf, limbOf, Nat.div_div_eq_div_mul, ← pow_add, Nat.mul_succ, Nat.add_comm]

@[simp] theorem toLimbs_zero (v : Nat) : toLimbs W 0 v = [] := rfl

/-- The limbs of a value: the low one, then those of the rest. -/
theorem toLimbs_succ (N v : Nat) : toLimbs W (N + 1) v = v % 2 ^ W :: toLimbs W N (v / 2 ^ W) := by
  rw [toLimbs, List.range_succ_eq_map, List.map_cons, limbOf_zero_eq, List.map_map]
  congr 1
  exact List.map_congr_left fun i _ => limbOf_succ v i

@[simp] theorem length_toLimbs (N v : Nat) : (toLimbs W N v).length = N := by simp [toLimbs]

theorem mem_toLimbs_lt {N v x : Nat} (h : x ∈ toLimbs W N v) : x < 2 ^ W := by
  obtain ⟨i, _, rfl⟩ := List.mem_map.1 h
  exact limbOf_lt v i

/-- The value of the limbs is the value. -/
theorem ofLimbs_toLimbs (N v : Nat) : ofLimbs W (toLimbs W N v) = v % 2 ^ (N * W) := by
  induction N generalizing v with
  | zero => simp [ofLimbs, Nat.mod_one]
  | succ N ih =>
    rw [toLimbs_succ, ofLimbs, ih, Nat.succ_mul, Nat.add_comm (N * W), pow_add, Nat.mod_mul]

/-- A list of limbs is the limbs of its value. -/
theorem toLimbs_ofLimbs {xs : List Nat} (h : ∀ x ∈ xs, x < 2 ^ W) :
    toLimbs W xs.length (ofLimbs W xs) = xs := by
  induction xs with
  | nil => rfl
  | cons x xs ih =>
    have hx := h x (by simp)
    rw [List.length_cons, toLimbs_succ, ofLimbs, Nat.add_mul_mod_self_left, Nat.mod_eq_of_lt hx,
      Nat.add_mul_div_left _ _ (by positivity), Nat.div_eq_of_lt hx, Nat.zero_add,
      ih fun y hy => h y (by simp [hy])]

theorem ofLimbs_lt {xs : List Nat} (h : ∀ x ∈ xs, x < 2 ^ W) : ofLimbs W xs < 2 ^ (xs.length * W) := by
  induction xs with
  | nil => simp [ofLimbs]
  | cons x xs ih =>
    have hx := h x (by simp)
    have := ih fun y hy => h y (by simp [hy])
    rw [ofLimbs, List.length_cons, Nat.succ_mul, Nat.add_comm (xs.length * W), pow_add]
    calc x + 2 ^ W * ofLimbs W xs < 2 ^ W * (ofLimbs W xs + 1) := by rw [mul_add]; omega
      _ ≤ 2 ^ W * 2 ^ (xs.length * W) := Nat.mul_le_mul_left _ this

theorem ofLimbs_append (xs ys : List Nat) :
    ofLimbs W (xs ++ ys) = ofLimbs W xs + 2 ^ (xs.length * W) * ofLimbs W ys := by
  induction xs with
  | nil => simp [ofLimbs]
  | cons x xs ih =>
    rw [List.cons_append, ofLimbs, ofLimbs, ih, List.length_cons, Nat.succ_mul, pow_add]; ring

/-- A list of limbs with a known value is the limbs of that value. -/
theorem eq_toLimbs {xs : List Nat} {N v : Nat} (hl : xs.length = N) (h : ∀ x ∈ xs, x < 2 ^ W)
    (hv : ofLimbs W xs = v) : xs = toLimbs W N v := by rw [← hv, ← hl, toLimbs_ofLimbs h]

/-! ### Rows of limbs -/

theorem rippleAdd_spec : ∀ (as bs : List Nat) (c : Bool), as.length = bs.length →
    (∀ x ∈ as, x < 2 ^ W) → (∀ x ∈ bs, x < 2 ^ W) →
    (rippleAdd W as bs c).1.length = as.length ∧ (∀ x ∈ (rippleAdd W as bs c).1, x < 2 ^ W) ∧
      ofLimbs W (rippleAdd W as bs c).1 + (rippleAdd W as bs c).2.toNat * 2 ^ (as.length * W) =
        ofLimbs W as + ofLimbs W bs + c.toNat
  | [], [], c, _, _, _ => by simp [rippleAdd, ofLimbs]
  | a :: as, b :: bs, c, hl, ha, hb => by
    obtain ⟨h1, h2⟩ := addc_eq (c := c) (ha a (by simp)) (hb b (by simp))
    obtain ⟨i1, i2, i3⟩ := rippleAdd_spec as bs (addc W a b c).2 (by simpa using hl)
      (fun x hx => ha x (by simp [hx])) (fun x hx => hb x (by simp [hx]))
    simp only [rippleAdd, List.length_cons, List.mem_cons, forall_eq_or_imp, ofLimbs, i1, true_and]
    refine ⟨⟨h1, i2⟩, ?_⟩
    rw [Nat.succ_mul, pow_add]
    linear_combination h2 + 2 ^ W * i3

theorem rippleSub_spec : ∀ (as bs : List Nat) (w : Bool), as.length = bs.length →
    (∀ x ∈ as, x < 2 ^ W) → (∀ x ∈ bs, x < 2 ^ W) →
    (rippleSub W as bs w).1.length = as.length ∧ (∀ x ∈ (rippleSub W as bs w).1, x < 2 ^ W) ∧
      ofLimbs W (rippleSub W as bs w).1 + ofLimbs W bs + w.toNat =
        ofLimbs W as + (rippleSub W as bs w).2.toNat * 2 ^ (as.length * W)
  | [], [], c, _, _, _ => by simp [rippleSub, ofLimbs]
  | a :: as, b :: bs, c, hl, ha, hb => by
    obtain ⟨h1, h2⟩ := subb_eq (c := c) (ha a (by simp)) (hb b (by simp))
    obtain ⟨i1, i2, i3⟩ := rippleSub_spec as bs (subb W a b c).2 (by simpa using hl)
      (fun x hx => ha x (by simp [hx])) (fun x hx => hb x (by simp [hx]))
    simp only [rippleSub, List.length_cons, List.mem_cons, forall_eq_or_imp, ofLimbs, i1, true_and]
    refine ⟨⟨h1, i2⟩, ?_⟩
    rw [Nat.succ_mul, pow_add]
    linear_combination h2 + 2 ^ W * i3

theorem macRow_spec : ∀ (ts as : List Nat) (b c : Nat), ts.length = as.length →
    (∀ x ∈ ts, x < 2 ^ W) → (∀ x ∈ as, x < 2 ^ W) → b < 2 ^ W → c < 2 ^ W →
    (macRow W ts as b c).1.length = ts.length ∧ (∀ x ∈ (macRow W ts as b c).1, x < 2 ^ W) ∧
      (macRow W ts as b c).2 < 2 ^ W ∧
      ofLimbs W (macRow W ts as b c).1 + (macRow W ts as b c).2 * 2 ^ (ts.length * W) =
        ofLimbs W ts + ofLimbs W as * b + c
  | [], [], b, c, _, _, _, _, hc => by simp [macRow, ofLimbs, hc]
  | t :: ts, a :: as, b, c, hl, ht, ha, hb, hc => by
    obtain ⟨h1, h2⟩ := mac_eq W t a b c
    have hi : (mac W t a b c).1 < 2 ^ W := by
      have h3 := ht t (by simp)
      have h4 := ha a (by simp)
      have h5 : a * b ≤ (2 ^ W - 1) * (2 ^ W - 1) := Nat.mul_le_mul (by omega) (by omega)
      have h6 : (2 ^ W - 1) * (2 ^ W - 1) + 2 * (2 ^ W - 1) + 1 = 2 ^ W * 2 ^ W := by
        obtain ⟨m, hm⟩ : ∃ m, 2 ^ W = m + 1 := ⟨2 ^ W - 1, by have := Nat.two_pow_pos W; omega⟩
        rw [hm]; simp only [Nat.add_sub_cancel]; ring
      rw [mac]
      exact Nat.div_lt_of_lt_mul (by omega)
    obtain ⟨i1, i2, i3, i4⟩ := macRow_spec ts as b (mac W t a b c).1 (by simpa using hl)
      (fun x hx => ht x (by simp [hx])) (fun x hx => ha x (by simp [hx])) hb hi
    simp only [macRow, List.length_cons, List.mem_cons, forall_eq_or_imp, ofLimbs, i1, true_and]
    refine ⟨⟨h1, i2⟩, i3, ?_⟩
    rw [Nat.succ_mul, pow_add]
    linear_combination h2 + 2 ^ W * i4

/-- Comparing limbs from the most significant down compares the values (41_limbseq.md R152). -/
theorem cmpLimbs_spec : ∀ (as bs : List Nat), as.length = bs.length →
    (∀ x ∈ as, x < 2 ^ W) → (∀ x ∈ bs, x < 2 ^ W) → cmpLimbs as bs = seqCmp (ofLimbs W as) (ofLimbs W bs)
  | [], [], _, _, _ => rfl
  | a :: as, b :: bs, hl, ha, hb => by
    have h1 := ha a (by simp)
    have h2 := hb b (by simp)
    have ih := cmpLimbs_spec as bs (by simpa using hl) (fun x hx => ha x (by simp [hx]))
      (fun x hx => hb x (by simp [hx]))
    rw [cmpLimbs, ih, ofLimbs, ofLimbs]
    rcases Nat.lt_trichotomy (ofLimbs W as) (ofLimbs W bs) with h | h | h
    · rw [(seqCmp_eq _ _).1.2 h]
      have h3 : 2 ^ W * (ofLimbs W as + 1) ≤ 2 ^ W * ofLimbs W bs := Nat.mul_le_mul_left _ h
      exact ((seqCmp_eq _ _).1.2 (by rw [mul_add] at h3; omega)).symm
    · rw [(seqCmp_eq _ _).2.1.2 h, h]
      simp only [seqCmp, Nat.add_lt_add_iff_right, Nat.add_right_cancel_iff]
      rcases Nat.lt_trichotomy a b with h4 | h4 | h4
      · simp [h4]
      · simp [h4]
      · simp [h4, Nat.lt_asymm h4, h4.ne']
    · rw [(seqCmp_eq _ _).2.2.2 h]
      have h3 : 2 ^ W * (ofLimbs W bs + 1) ≤ 2 ^ W * ofLimbs W as := Nat.mul_le_mul_left _ h
      exact ((seqCmp_eq _ _).2.2.2 (by rw [mul_add] at h3; omega)).symm

end

end Sys2Proof.Machine
end

