-- ==== Sys2Proof/Laws/Host.lean ====
section
/-!
SUPPORT. What a write of one limb does to a register's value (20_memory.md R71), and the bits of the value registers.
-/

namespace Sys2Proof.Machine

open Sys2Proof.Safety

section
variable {W : Nat}

theorem setLimb_eq {v i x : Nat} :
    setLimb W v i x = v % 2 ^ (W * i) + 2 ^ (W * i) * (x + 2 ^ W * (v / 2 ^ (W * (i + 1)))) := by
  rw [setLimb, Nat.mul_succ, pow_add]; ring

/-- The limb written reads as what was written, every other limb as before. -/
theorem limbOf_setLimb {v i x j : Nat} (hx : x < 2 ^ W) :
    limbOf W (setLimb W v i x) j = if j = i then x else limbOf W v j := by
  have hlow : v % 2 ^ (W * i) < 2 ^ (W * i) := Nat.mod_lt _ (by positivity)
  rw [setLimb_eq]
  rcases Nat.lt_trichotomy j i with h | h | h
  · rw [if_neg h.ne]
    obtain ⟨d, rfl⟩ : ∃ d, i = j + 1 + d := ⟨i - (j + 1), by omega⟩
    have e : 2 ^ (W * (j + 1 + d)) = 2 ^ (W * j) * (2 ^ W * 2 ^ (W * d)) := by
      rw [← pow_add, ← pow_add]; congr 1; ring
    simp only [limbOf]
    rw [e, mul_assoc (2 ^ (W * j)), Nat.add_mul_div_left _ _ (by positivity), mul_assoc (2 ^ W),
      Nat.add_mul_mod_self_left, Nat.mod_mul_right_div_self, Nat.mod_mul_right_mod]
  · rw [if_pos h, h, limbOf, Nat.add_mul_div_left _ _ (by positivity), Nat.div_eq_of_lt hlow, Nat.zero_add,
      Nat.add_mul_mod_self_left, Nat.mod_eq_of_lt hx]
  · rw [if_neg h.ne']
    obtain ⟨d, rfl⟩ : ∃ d, j = i + 1 + d := ⟨j - (i + 1), by omega⟩
    have e : 2 ^ (W * (i + 1 + d)) = 2 ^ (W * i) * (2 ^ W * 2 ^ (W * d)) := by
      rw [← pow_add, ← pow_add]; congr 1; ring
    have e2 : 2 ^ (W * (i + 1)) = 2 ^ (W * i) * 2 ^ W := by rw [← pow_add]; congr 1
    simp only [limbOf]
    rw [e, e2, ← Nat.div_div_eq_div_mul, Nat.add_mul_div_left _ _ (by positivity), Nat.div_eq_of_lt hlow,
      Nat.zero_add, ← Nat.div_div_eq_div_mul, Nat.add_mul_div_left _ _ (by positivity), Nat.div_eq_of_lt hx,
      Nat.zero_add, ← Nat.div_div_eq_div_mul, ← Nat.div_div_eq_div_mul, ← Nat.div_div_eq_div_mul]

theorem setLimb_lt {N v i x : Nat} (hi : i < N) (hx : x < 2 ^ W) (hv : v < 2 ^ (N * W)) :
    setLimb W v i x < 2 ^ (N * W) := by
  obtain ⟨d, rfl⟩ : ∃ d, N = i + 1 + d := ⟨N - (i + 1), by omega⟩
  have e : 2 ^ ((i + 1 + d) * W) = 2 ^ (W * i) * (2 ^ W * 2 ^ (W * d)) := by
    rw [← pow_add, ← pow_add]; congr 1; ring
  have e2 : 2 ^ (W * (i + 1)) = 2 ^ (W * i) * 2 ^ W := by rw [← pow_add]; congr 1
  have hlow : v % 2 ^ (W * i) < 2 ^ (W * i) := Nat.mod_lt _ (by positivity)
  have hhigh : v / 2 ^ (W * (i + 1)) < 2 ^ (W * d) :=
    Nat.div_lt_of_lt_mul (by rw [e2]; rw [e] at hv; rwa [mul_assoc])
  rw [setLimb_eq, e]
  have h1 : x + 2 ^ W * (v / 2 ^ (W * (i + 1))) + 1 ≤ 2 ^ W * 2 ^ (W * d) := by
    have := Nat.mul_le_mul_left (2 ^ W) (Nat.succ_le_of_lt hhigh)
    rw [Nat.mul_succ] at this; omega
  have h2 := Nat.mul_le_mul_left (2 ^ (W * i)) h1
  rw [Nat.mul_succ] at h2
  omega

/-- A value of one limb reads as itself at limb 0. -/
theorem limbOf_self {v : Nat} (h : v < 2 ^ W) : limbOf W v 0 = v := by
  rw [limbOf_zero_eq, Nat.mod_eq_of_lt h]

/-- Bit `j` of limb `i` is bit `W*i + j` of the value (00_scope.md R11). -/
theorem testBit_limbOf (v i j : Nat) : (limbOf W v i).testBit j = (decide (j < W) && v.testBit (W * i + j)) := by
  rw [limbOf, Nat.testBit_mod_two_pow, Nat.testBit_div_two_pow, Nat.add_comm]

/-- Byte `j` of a value is byte `j % (W/8)` of its limb `j / (W/8)` (20_memory.md R76). -/
theorem byteOf_limbOf {w : Nat} (hw : 0 < w) (hW : W = 8 * w) (v j : Nat) :
    byteOf (limbOf W v (j / w)) (j % w) = byteOf v j := by
  have hj : w * (j / w) + j % w = j := Nat.div_add_mod j w
  have hlt : j % w < w := Nat.mod_lt _ hw
  have key (u k : Nat) : byteOf u k = limbOf 8 u k := rfl
  refine Nat.eq_of_testBit_eq fun b => ?_
  rw [key, key, testBit_limbOf, testBit_limbOf, testBit_limbOf]
  by_cases hb : b < 8
  · have e : W * (j / w) + (8 * (j % w) + b) = 8 * j + b := by
      rw [hW, mul_assoc]; omega
    simp [hb, e, show 8 * (j % w) + b < W by omega]
  · simp [hb]

/-- Under a map that places the limbs as R80 recommends, the byte image of a register is its little-endian byte string:
byte `j` of the value is in the limb that holds address `m sel 0 + j`, at that address. -/
theorem HostMap.Contiguous.byteImage {m : HostMap} {w N : Nat} {sel : Sel} (h : m.Contiguous W N) (hw : 0 < w)
    (hW : W = 8 * w) (v : Nat) {j : Nat} (hj : j / w < sel.limbs N) :
    m sel (j / w) + j % w = m sel 0 + j ∧ byteOf (limbOf W v (j / w)) (j % w) = byteOf v j := by
  refine ⟨?_, byteOf_limbOf hw hW v j⟩
  have hj' := Nat.div_add_mod j w
  rw [h sel _ hj, hW, Nat.mul_div_cancel_left w (by decide : 0 < 8), Nat.mul_comm]; omega

end

/-! ### Physical addresses (20_memory.md R80) -/

/-- Every selector is in the list of R70. -/
theorem mem_allSels (sel : Sel) : sel ∈ allSels := by
  cases sel <;> simp [allSels, List.mem_finRange]

/-- The host register space holds exactly the legal pairs of R70. -/
theorem mem_hostElements {N : Nat} {e : Sel × Nat} : e ∈ hostElements N ↔ e.2 < e.1.limbs N := by
  obtain ⟨sel, i⟩ := e
  simp only [hostElements, List.mem_flatMap, List.mem_map, List.mem_range, Prod.mk.injEq]
  exact ⟨fun ⟨_, _, _, hi, rfl, rfl⟩ => hi, fun hi => ⟨sel, mem_allSels sel, i, hi, rfl, rfl⟩⟩

/-- All an address lookup can answer: an element, which is legal and stands at the address; or none, and then no legal
element does. -/
theorem HostMap.elementAt_cases (m : HostMap) (N a : Nat) :
    (∃ e, m.elementAt N a = some e ∧ e.2 < e.1.limbs N ∧ m e.1 e.2 = a) ∨
    (m.elementAt N a = none ∧ ∀ sel i, i < sel.limbs N → m sel i ≠ a) := by
  cases hf : m.elementAt N a with
  | some e =>
    exact .inl ⟨e, rfl, mem_hostElements.mp (List.mem_of_find?_eq_some hf), by simpa using List.find?_some hf⟩
  | none =>
    refine .inr ⟨rfl, fun sel i hi hm => ?_⟩
    exact List.find?_eq_none.mp hf (sel, i) (mem_hostElements.mpr hi) (by simp [hm])

/-- All a physical access does when it is accepted: it is one naturally aligned word of the width of the element at its
address, and it joins the pending host actions as the access of that element (20_memory.md R78, R80, R81). -/
theorem busTo_next {m : HostMap} {b : BusAccess} {s t : State} (h : busTo m b s = .next t) :
    ∃ e, m.elementAt s.geom.N b.addr = some e ∧ b.bits = e.1.width s.W ∧ b.addr % (e.1.width s.W / 8) = 0 ∧
      t = { s with hostIn := s.hostIn ++ [b.actionOn e] } := by
  unfold busTo at h
  split at h
  · next e he =>
    split at h
    · next hw =>
      simp only [BusAccess.alignedWord, Bool.and_eq_true, beq_iff_eq] at hw
      cases h; exact ⟨e, he, hw.1, hw.2, rfl⟩
    · cases h
  · cases h

end Sys2Proof.Machine
end

