-- ==== Sys2Proof/Laws/Inv.lean ====
section
/-!
SUPPORT. Every register write, flag write, fault and gate keeps the invariant.
-/

namespace Sys2Proof.Machine

open Sys2Proof.Safety

section
variable {s : State} (h : Invariant s) (r ws : Reg) (v x y k m : Nat) (b : Bool) (P : Point)
include h

theorem inv_writeL : Invariant (s.writeL r v) := by
  obtain ⟨⟨h1, h2, h3, h4, h5⟩, h6, h7⟩ := h
  refine ⟨⟨h1, fun q => ?_, h3, h4, h5⟩, h6, h7⟩
  rw [State.writeL_readL]; split
  · exact Nat.mod_lt _ (by positivity)
  · exact h2 q

theorem inv_writeF : Invariant (s.writeF r v) := by
  obtain ⟨⟨h1, h2, h3, h4, h5⟩, h6, h7⟩ := h
  refine ⟨⟨h1, h2, fun q => ?_, h4, h5⟩, h6, h7⟩
  rw [State.writeF_readF]; split
  · exact Nat.mod_lt _ (by positivity)
  · exact h3 q

theorem inv_writeP : Invariant (s.writeP r P) := by
  obtain ⟨⟨h1, h2, h3, h4, h5⟩, h6, h7⟩ := h
  refine ⟨⟨h1, h2, h3, fun q => ?_, h5⟩, h6, h7⟩
  rw [State.writeP_readP]; split
  · exact ⟨Nat.mod_lt _ (by positivity), Nat.mod_lt _ (by positivity), Nat.mod_lt _ (by positivity)⟩
  · exact h4 q

theorem inv_writePz : Invariant (s.writePz r v) := by
  obtain ⟨⟨h1, h2, h3, h4, h5⟩, h6, h7⟩ := h
  refine ⟨⟨h1, h2, h3, fun q => ?_, h5⟩, h6, h7⟩
  rw [State.writePz_readP]; split
  · exact ⟨(h4 r).1, (h4 r).2.1, Nat.mod_lt _ (by positivity)⟩
  · exact h4 q

theorem inv_writePxy : Invariant (s.writePxy r x y) := by
  obtain ⟨⟨h1, h2, h3, h4, h5⟩, h6, h7⟩ := h
  refine ⟨⟨h1, h2, h3, fun q => ?_, h5⟩, h6, h7⟩
  rw [State.writePxy_readP]; split
  · exact ⟨Nat.mod_lt _ (by positivity), Nat.mod_lt _ (by positivity), (h4 r).2.2⟩
  · exact h4 q

theorem inv_setC : Invariant (s.setC b) := h

theorem inv_setT : Invariant (s.setT b) := h

theorem inv_setCmp (c : Cmp) : Invariant (s.setCmp c) := h

theorem inv_tookDraws : Invariant (s.tookDraws k) := h

theorem inv_clearErr : Invariant s.clearErr := ⟨h.1, Nat.zero_le _, h.2.2⟩

theorem inv_setCfgok_false : Invariant (s.setCfgok false) := ⟨h.1, h.2.1, nofun⟩

theorem inv_recorded {code : BitVec 8} (hc : code.toNat ≤ 8) (w : Word32) : Invariant (recorded code w s) :=
  ⟨h.1, hc, h.2.2⟩

theorem inv_scratch : Invariant (s.scratch ws k) := by
  obtain ⟨⟨h1, h2, h3, h4, h5⟩, h6, h7⟩ := h
  have hf : ∀ q, (s.scratch ws k).readF q < 2 ^ s.n := fun q => by
    rw [State.scratch_readF]; split
    · exact Nat.mod_lt _ (by positivity)
    · exact h3 q
  simp only [Invariant, InRange, ErrLegal, CfgSound, ConfigSound, State.scratch_mod, State.scratch_mprime,
    State.scratch_rr, State.scratch_rone, State.scratch_ca, State.scratch_cb, State.scratch_W, State.scratch_n,
    State.scratch_status, State.scratch_geom, State.scratch_readL, State.scratch_readP]
  exact ⟨⟨h1, h2, hf, h4, h5⟩, h6, h7⟩

theorem inv_raise (e : FaultCode) (w : Word32) : Invariant (s.raise e w) := by
  by_cases he : e = .badcfg
  · subst he; rw [raise_badcfg]; exact inv_recorded (inv_setCfgok_false h) (by decide) w
  · rw [raise_eq _ _ _ he]; exact inv_recorded h (by cases e <;> decide) w

theorem inv_cfg (hc : ConfigSound s) : Invariant (s.setCfgok true) := ⟨h.1, h.2.1, fun _ => hc⟩

theorem inv_requireCfg {i : Instr} {body t : State} (hb : Invariant body) (e : requireCfg i s body = .next t) :
    Invariant t := by
  unfold requireCfg at e; cases e; split
  · exact hb
  · exact inv_raise h _ _

theorem inv_requireWs {i : Instr} {operands : List Reg} {body : State} (hb : Invariant body) :
    Invariant (requireWs i ws k operands s body) := by
  unfold requireWs; split
  · exact hb
  · exact inv_raise h _ _
end


end Sys2Proof.Machine
end

