-- ==== Sys2Proof/Laws/Multipliers.lean ====
section
/-!
SUPPORT. The steps of the two Montgomery multipliers (44_field_mont.md R234, R235) on values: what one iteration does to
the accumulator, and what the final subtraction makes of it.
-/

namespace Sys2Proof.Machine

section
variable {W : Nat}

/-- The value of an accumulator of `N` limbs and the limb above them. -/
def accVal (W : Nat) (t : List Nat × Nat) : Nat := ofLimbs W t.1 + t.2 * 2 ^ (t.1.length * W)

/-- The factor of a row clears the low limb (R234, R235). -/
theorem montFactor_spec {mprime t0 m0 : Nat} {ts : List Nat} (hm : (mprime * m0 + 1) % 2 ^ W = 0) :
    montFactor W mprime (t0 :: ts) < 2 ^ W ∧ (t0 + m0 * montFactor W mprime (t0 :: ts)) % 2 ^ W = 0 := by
  simp only [montFactor, mulw, List.headD_cons]
  refine ⟨Nat.mod_lt _ (by positivity), ?_⟩
  rw [Nat.add_mod, Nat.mul_mod, Nat.mod_mod, ← Nat.mul_mod, ← Nat.add_mod]
  have : t0 + m0 * (t0 * mprime) = t0 * (mprime * m0 + 1) := by ring
  rw [this, Nat.mul_mod, hm, Nat.mul_zero, Nat.zero_mod]

/-- A reduction row: the low limb becomes 0, so the row drops it. -/
theorem reduceRow_spec {mprime t0 m0 : Nat} {ts ms : List Nat} (hl : ts.length = ms.length)
    (ht : ∀ x ∈ t0 :: ts, x < 2 ^ W) (hms : ∀ x ∈ m0 :: ms, x < 2 ^ W) (hm : (mprime * m0 + 1) % 2 ^ W = 0) :
    ∃ xs, (macRow W (t0 :: ts) (m0 :: ms) (montFactor W mprime (t0 :: ts)) 0).1 = 0 :: xs ∧
      xs.length = ts.length ∧ (∀ x ∈ xs, x < 2 ^ W) ∧
      (macRow W (t0 :: ts) (m0 :: ms) (montFactor W mprime (t0 :: ts)) 0).2 < 2 ^ W ∧
      2 ^ W * ofLimbs W xs +
          (macRow W (t0 :: ts) (m0 :: ms) (montFactor W mprime (t0 :: ts)) 0).2 * 2 ^ ((ts.length + 1) * W) =
        ofLimbs W (t0 :: ts) + ofLimbs W (m0 :: ms) * montFactor W mprime (t0 :: ts) := by
  obtain ⟨hf, hz⟩ := montFactor_spec (W := W) (ts := ts) (t0 := t0) hm
  obtain ⟨r1, r2, r3, r4⟩ := macRow_spec (W := W) (t0 :: ts) (m0 :: ms) (montFactor W mprime (t0 :: ts)) 0
    (by simp [hl]) ht hms hf (by positivity)
  have h0 : (macRow W (t0 :: ts) (m0 :: ms) (montFactor W mprime (t0 :: ts)) 0).1 =
      0 :: (macRow W ts ms (montFactor W mprime (t0 :: ts))
        (mac W t0 m0 (montFactor W mprime (t0 :: ts)) 0).1).1 := by
    simp only [macRow, mac, Nat.add_zero, hz]
  refine ⟨_, h0, ?_, ?_, r3, ?_⟩
  · rw [h0] at r1; simpa using r1
  · rw [h0] at r2; exact fun x hx => r2 x (by simp [hx])
  · rw [h0, ofLimbs] at r4
    simpa using r4

/-- One outer iteration of CIOS (R234): the accumulator times `2^W` is the old one, plus a row of the product, plus a
multiple of the modulus; below `2*M` it stays below `2*M`. -/
theorem ciosIter_spec {mprime bi m0 : Nat} {ms a : List Nat} {t : List Nat × Nat} (hW : 0 < W)
    (hal : a.length = ms.length + 1) (htl : t.1.length = ms.length + 1)
    (hms : ∀ x ∈ m0 :: ms, x < 2 ^ W) (ha : ∀ x ∈ a, x < 2 ^ W) (ht : ∀ x ∈ t.1, x < 2 ^ W)
    (ht2 : t.2 < 2 ^ W) (hb : bi < 2 ^ W) (hm : (mprime * m0 + 1) % 2 ^ W = 0)
    (haM : ofLimbs W a < ofLimbs W (m0 :: ms)) (hT : accVal W t < 2 * ofLimbs W (m0 :: ms)) :
    (ciosIter W mprime (m0 :: ms) a t bi).1.length = ms.length + 1 ∧
      (∀ x ∈ (ciosIter W mprime (m0 :: ms) a t bi).1, x < 2 ^ W) ∧
      (ciosIter W mprime (m0 :: ms) a t bi).2 < 2 ^ W ∧
      accVal W (ciosIter W mprime (m0 :: ms) a t bi) < 2 * ofLimbs W (m0 :: ms) ∧
      ∃ q, accVal W (ciosIter W mprime (m0 :: ms) a t bi) * 2 ^ W =
        accVal W t + ofLimbs W a * bi + ofLimbs W (m0 :: ms) * q := by
  obtain ⟨r1, r2, r3, r4⟩ := macRow_spec (W := W) t.1 a bi 0 (by omega) ht ha hb (by positivity)
  obtain ⟨u0, us, hu⟩ : ∃ u0 us, (macRow W t.1 a bi 0).1 = u0 :: us := by
    cases h : (macRow W t.1 a bi 0).1 with
    | nil => rw [h, htl] at r1; simp at r1
    | cons u0 us => exact ⟨u0, us, rfl⟩
  have hul : us.length = ms.length := by rw [hu, htl] at r1; simpa using r1
  obtain ⟨c1, c2⟩ := addc_eq (c := false) ht2 r3
  obtain ⟨xs, x1, x2, x3, x4, x5⟩ := reduceRow_spec (W := W) hul (by rw [← hu]; exact r2) hms hm
  obtain ⟨d1, d2⟩ := addc_eq (c := false) c1 x4
  have hM := ofLimbs_lt hms
  have hf : montFactor W mprime (u0 :: us) < 2 ^ W := (montFactor_spec (W := W) hm).1
  set M := ofLimbs W (m0 :: ms) with hMdef
  set row := macRow W t.1 a bi 0 with hrow
  set row' := macRow W (u0 :: us) (m0 :: ms) (montFactor W mprime (u0 :: us)) 0 with hrow'
  set top := addc W t.2 row.2 false with htop
  set top' := addc W top.1 row'.2 false with htop'
  have hit : ciosIter W mprime (m0 :: ms) a t bi =
      (xs ++ [top'.1], (addc W top.2.toNat top'.2.toNat false).1) := by
    simp only [ciosIter, ← hrow, hu, ← hrow', ← htop, ← htop', x1, List.tail_cons]
  have hlen : (xs ++ [top'.1]).length = ms.length + 1 := by simp [x2, hul]
  have hxl : xs.length = ms.length := by omega
  -- the value of the new accumulator, before the last carry is cut to a limb
  have hval : (ofLimbs W (xs ++ [top'.1]) + (top.2.toNat + top'.2.toNat) * 2 ^ ((ms.length + 1) * W)) * 2 ^ W =
      accVal W t + ofLimbs W a * bi + M * montFactor W mprime (u0 :: us) := by
    rw [ofLimbs_append, hxl]
    simp only [ofLimbs, mul_zero, add_zero, Bool.toNat_false] at c2 d2 x5 r4 ⊢
    rw [hul, Nat.succ_mul, pow_add] at x5
    rw [htl, Nat.succ_mul, pow_add] at r4
    rw [accVal, htl, Nat.succ_mul, pow_add]
    rw [hu, ofLimbs] at r4
    linear_combination x5 + r4 + 2 ^ (ms.length * W) * 2 ^ W * (d2 + c2)
  have hlt : ofLimbs W (xs ++ [top'.1]) + (top.2.toNat + top'.2.toNat) * 2 ^ ((ms.length + 1) * W) < 2 * M := by
    refine lt_of_mul_lt_mul_right (a := 2 ^ W) ?_ (Nat.zero_le _)
    rw [hval]
    have e1 : ofLimbs W a * bi ≤ M * (2 ^ W - 1) := Nat.mul_le_mul haM.le (by omega)
    have e2 : M * montFactor W mprime (u0 :: us) ≤ M * (2 ^ W - 1) := Nat.mul_le_mul_left _ (by omega)
    have e3 : M * (2 ^ W - 1) + M = M * 2 ^ W := by
      have := Nat.two_pow_pos W
      rw [Nat.mul_sub, Nat.mul_one, Nat.sub_add_cancel (Nat.le_mul_of_pos_right _ this)]
    have e4 : 2 * M * 2 ^ W = 2 * (M * 2 ^ W) := by ring
    omega
  have hsum : top.2.toNat + top'.2.toNat < 2 := by
    by_contra hc
    have : 2 * 2 ^ ((ms.length + 1) * W) ≤ (top.2.toNat + top'.2.toNat) * 2 ^ ((ms.length + 1) * W) :=
      Nat.mul_le_mul_right _ (by omega)
    rw [List.length_cons] at hM
    omega
  have hcut : (addc W top.2.toNat top'.2.toNat false).1 = top.2.toNat + top'.2.toNat := by
    have : 2 ≤ 2 ^ W := by simpa using Nat.pow_le_pow_right (by decide : 0 < 2) hW
    simp only [addc, Bool.toNat_false, Nat.add_zero]
    exact Nat.mod_eq_of_lt (by omega)
  rw [hit]
  have hacc : accVal W (xs ++ [top'.1], (addc W top.2.toNat top'.2.toNat false).1) =
      ofLimbs W (xs ++ [top'.1]) + (top.2.toNat + top'.2.toNat) * 2 ^ ((ms.length + 1) * W) := by
    rw [accVal, hcut, hlen]
  refine ⟨hlen, ?_, ?_, by rw [hacc]; exact hlt, _, by rw [hacc]; exact hval⟩
  · intro x hx
    rcases List.mem_append.1 hx with h | h
    · exact x3 x h
    · rw [List.mem_singleton.1 h]; exact d1
  · exact Nat.mod_lt _ (by positivity)

/-- The conditional subtraction reduces an accumulator below `2*M` modulo `M` (R234, R235). -/
theorem montFinish_spec {ms us : List Nat} {top : Nat} (hl : us.length = ms.length) (hms : ∀ x ∈ ms, x < 2 ^ W)
    (hus : ∀ x ∈ us, x < 2 ^ W) (h : accVal W (us, top) < 2 * ofLimbs W ms) :
    montFinish W ms us top = toLimbs W ms.length (accVal W (us, top) % ofLimbs W ms) := by
  have hM := ofLimbs_lt hms
  have hu := ofLimbs_lt hus
  obtain ⟨s1, s2, s3⟩ := rippleSub_spec us ms false hl hus hms
  have s4 := ofLimbs_lt s2
  rw [s1] at s4
  rw [hl] at hu s3 s4
  simp only [accVal, hl] at h ⊢
  set R := 2 ^ (ms.length * W)
  set M := ofLimbs W ms
  set u := ofLimbs W us
  have htop : top < 2 := by
    by_contra hc
    have : 2 * R ≤ top * R := Nat.mul_le_mul_right _ (by omega)
    omega
  have hcmp := seqCmp_eq u M
  rw [montFinish, cmpLimbs_spec us ms hl hus hms]
  by_cases hc : top ≠ 0 ∨ seqCmp u M ≠ .lt
  · rw [if_pos hc]
    refine eq_toLimbs (by omega) s2 ?_
    have hge : M ≤ u + top * R := by
      rcases hc with h1 | h1
      · have : top = 1 := by omega
        subst this; omega
      · rw [Ne, hcmp.1] at h1; omega
    rw [Nat.mod_eq_sub_mod hge, Nat.mod_eq_of_lt (by omega)]
    have hb := Bool.toNat_le (rippleSub W us ms false).2
    have : top = 0 ∨ top = 1 := by omega
    simp only [Bool.toNat_false, Nat.add_zero] at s3
    rcases this with rfl | rfl <;> rcases hv : (rippleSub W us ms false).2.toNat with _ | _ | _ <;>
      simp only [hv] at s3 hb <;> omega
  · simp only [not_or, not_not] at hc
    have hlt := hcmp.1.1 hc.2
    rw [if_neg (by rw [not_or]; exact ⟨not_not.2 hc.1, not_not.2 hc.2⟩)]
    refine eq_toLimbs hl hus ?_
    rw [hc.1, Nat.zero_mul, Nat.add_zero, Nat.mod_eq_of_lt hlt]

/-- The schoolbook product (R235). -/
theorem schoolbook_spec {a : List Nat} (ha : ∀ x ∈ a, x < 2 ^ W) : ∀ (bs acc : List Nat),
    acc.length = a.length → 0 < a.length → (∀ x ∈ bs, x < 2 ^ W) → (∀ x ∈ acc, x < 2 ^ W) →
    (schoolbook W a bs acc).length = bs.length + a.length ∧ (∀ x ∈ schoolbook W a bs acc, x < 2 ^ W) ∧
      ofLimbs W (schoolbook W a bs acc) = ofLimbs W acc + ofLimbs W a * ofLimbs W bs
  | [], acc, hl, _, _, hacc => by simp [schoolbook, hl, ofLimbs]; exact hacc
  | b :: bs, acc, hl, h0, hb, hacc => by
    obtain ⟨r1, r2, r3, r4⟩ := macRow_spec (W := W) acc a b 0 hl hacc ha (hb b (by simp)) (by positivity)
    obtain ⟨u0, us, hu⟩ : ∃ u0 us, (macRow W acc a b 0).1 = u0 :: us := by
      cases h : (macRow W acc a b 0).1 with
      | nil => rw [h, hl] at r1; simp at r1; omega
      | cons u0 us => exact ⟨u0, us, rfl⟩
    have hul : us.length + 1 = a.length := by rw [hu, hl] at r1; simpa using r1
    rw [hu] at r2 r4
    obtain ⟨i1, i2, i3⟩ := schoolbook_spec ha bs (us ++ [(macRow W acc a b 0).2]) (by simp [hul]) h0
      (fun x hx => hb x (by simp [hx])) (by
        intro x hx
        rcases List.mem_append.1 hx with h | h
        · exact r2 x (by simp [h])
        · rw [List.mem_singleton.1 h]; exact r3)
    simp only [schoolbook, hu, List.headD_cons, List.tail_cons, List.length_cons, List.mem_cons,
      forall_eq_or_imp, ofLimbs, i1, i3]
    refine ⟨by omega, ⟨r2 u0 (by simp), i2⟩, ?_⟩
    rw [ofLimbs_append]
    rw [ofLimbs, hl, ← hul, Nat.succ_mul, pow_add] at r4
    simp only [ofLimbs, mul_zero, add_zero] at r4 ⊢
    linear_combination r4

theorem carryUp_spec : ∀ (xs : List Nat) (c : Nat), (∀ x ∈ xs, x < 2 ^ W) → c < 2 ^ W →
    (carryUp W xs c).length = xs.length ∧ (∀ x ∈ carryUp W xs c, x < 2 ^ W) ∧
      (ofLimbs W xs + c < 2 ^ (xs.length * W) → ofLimbs W (carryUp W xs c) = ofLimbs W xs + c)
  | [], c, _, _ => by simp only [carryUp, ofLimbs, List.length_nil, Nat.zero_mul, pow_zero]; simp; omega
  | x :: xs, c, hx, hc => by
    obtain ⟨h1, h2⟩ := addc_eq (c := false) (hx x (by simp)) hc
    have hxc := hx x (by simp)
    have hb : (addc W x c false).2.toNat < 2 ^ W := by
      cases hv : (addc W x c false).2 with
      | false => exact Nat.two_pow_pos W
      | true => simp only [hv, Bool.toNat_true, Bool.toNat_false] at h2 ⊢; omega
    obtain ⟨i1, i2, i3⟩ := carryUp_spec xs (addc W x c false).2.toNat (fun y hy => hx y (by simp [hy])) hb
    simp only [carryUp, List.length_cons, List.mem_cons, forall_eq_or_imp, ofLimbs, i1, true_and]
    refine ⟨⟨h1, i2⟩, fun h => ?_⟩
    simp only [Bool.toNat_false, Nat.add_zero] at h2
    rw [Nat.succ_mul, pow_add] at h
    rw [i3 ?_]
    · linear_combination h2
    · refine lt_of_mul_lt_mul_right (a := 2 ^ W) ?_ (Nat.zero_le _)
      have : (ofLimbs W xs + (addc W x c false).2.toNat) * 2 ^ W =
          2 ^ W * ofLimbs W xs + (addc W x c false).2.toNat * 2 ^ W := by ring
      omega

end

/-- The choice of multiplier is not observable wherever both give one result (44_field_mont.md R236): what either of
them gives, the built one gives. -/
theorem builtMul_of_both {W mprime : Nat} {mod a b r : List Nat} (hc : cios W mprime mod a b = r)
    (hs : sos W mprime mod a b = r) (alg : MontAlg) : builtMul alg W mprime mod a b = r := by
  cases alg
  · exact hc
  · exact hs

end Sys2Proof.Machine
end

