-- ==== Sys2Proof/Laws/PerInstr.lean ====
section
/-!
SUPPORT. Decoding what is encoded gives the command back, one lemma per constructor (30_encoding.md R104, R106).
-/

namespace Sys2Proof

/-- The fields of a packed word are what was packed. -/
theorem fieldsOf_pack (op : Nat) (rd ra rb : Reg) (imm : Nat) (hop : op < 256) (himm : imm < 4096) :
    fieldsOf (pack op rd ra rb imm) = ⟨op, rd.val, ra.val, rb.val, imm⟩ := by
  have h1 := rd.isLt
  have h2 := ra.isLt
  have h3 := rb.isLt
  simp only [fieldsOf, pack, BitVec.toNat_ofNat, Fields.mk.injEq]
  norm_num
  omega

theorem regOf_val (r : Reg) : regOf r.val = r := Fin.ext (Nat.mod_eq_of_lt r.isLt)

theorem reg_div (r : Reg) : r.val / 16 = 0 := Nat.div_eq_of_lt r.isLt

end Sys2Proof

namespace Sys2Proof.Laws.RoundTrip

-- One lemma after the other: all of them at once can ask for more threads than the sandbox has memory for.
set_option Elab.async false

/-- The command decodes from its own word. -/
def Statement (i : Instr) : Prop := i.wellFormed = true → decode (encode i) = .ok i

theorem nop : Statement .nop := fun _ => by
  rw [decode, encode, fieldsOf_pack _ _ _ _ _ (by decide) (by decide)]
  simp [decodeFields, form0]

theorem cfg : Statement .cfg := fun _ => by
  rw [decode, encode, fieldsOf_pack _ _ _ _ _ (by decide) (by decide)]
  simp [decodeFields, form0]

theorem clrerr : Statement .clrerr := fun _ => by
  rw [decode, encode, fieldsOf_pack _ _ _ _ _ (by decide) (by decide)]
  simp [decodeFields, form0]

theorem ladd (rd ra rb : Reg) : Statement (.ladd rd ra rb) := fun _ => by
  rw [decode, encode, fieldsOf_pack _ _ _ _ _ (by decide) (by decide)]
  simp [decodeFields, form0, regOf_val]

theorem ladc (rd ra rb : Reg) : Statement (.ladc rd ra rb) := fun _ => by
  rw [decode, encode, fieldsOf_pack _ _ _ _ _ (by decide) (by decide)]
  simp [decodeFields, form0, regOf_val]

theorem lsub (rd ra rb : Reg) : Statement (.lsub rd ra rb) := fun _ => by
  rw [decode, encode, fieldsOf_pack _ _ _ _ _ (by decide) (by decide)]
  simp [decodeFields, form0, regOf_val]

theorem lsbb (rd ra rb : Reg) : Statement (.lsbb rd ra rb) := fun _ => by
  rw [decode, encode, fieldsOf_pack _ _ _ _ _ (by decide) (by decide)]
  simp [decodeFields, form0, regOf_val]

theorem lmul (rd ra rb rh : Reg) : Statement (.lmul rd ra rb rh) := fun _ => by
  have hb := rh.isLt
  rw [decode, encode, fieldsOf_pack _ _ _ _ _ (by decide) (by omega)]
  simp [decodeFields, formHW, regOf_val, reg_div]

theorem lclz (rd ra : Reg) : Statement (.lclz rd ra) := fun _ => by
  rw [decode, encode, fieldsOf_pack _ _ _ _ _ (by decide) (by decide)]
  simp [decodeFields, form0, regOf_val]

theorem lshl (rd ra : Reg) (k : Nat) : Statement (.lshl rd ra k) := fun h => by
  have hk : k < 4096 := by simpa [Instr.wellFormed] using h
  rw [decode, encode, fieldsOf_pack _ _ _ _ _ (by decide) hk]
  simp [decodeFields, formK, regOf_val]

theorem lshr (rd ra : Reg) (k : Nat) : Statement (.lshr rd ra k) := fun h => by
  have hk : k < 4096 := by simpa [Instr.wellFormed] using h
  rw [decode, encode, fieldsOf_pack _ _ _ _ _ (by decide) hk]
  simp [decodeFields, formK, regOf_val]

theorem sadd (rd ra rb : Reg) : Statement (.sadd rd ra rb) := fun _ => by
  rw [decode, encode, fieldsOf_pack _ _ _ _ _ (by decide) (by decide)]
  simp [decodeFields, form0, regOf_val]

theorem ssub (rd ra rb : Reg) : Statement (.ssub rd ra rb) := fun _ => by
  rw [decode, encode, fieldsOf_pack _ _ _ _ _ (by decide) (by decide)]
  simp [decodeFields, form0, regOf_val]

theorem sshl (rd ra : Reg) (k : Nat) : Statement (.sshl rd ra k) := fun h => by
  have hk : k < 4096 := by simpa [Instr.wellFormed] using h
  rw [decode, encode, fieldsOf_pack _ _ _ _ _ (by decide) hk]
  simp [decodeFields, formK, regOf_val]

theorem sshr (rd ra : Reg) (k : Nat) : Statement (.sshr rd ra k) := fun h => by
  have hk : k < 4096 := by simpa [Instr.wellFormed] using h
  rw [decode, encode, fieldsOf_pack _ _ _ _ _ (by decide) hk]
  simp [decodeFields, formK, regOf_val]

theorem scmp (ra rb : Reg) : Statement (.scmp ra rb) := fun _ => by
  rw [decode, encode, fieldsOf_pack _ _ _ _ _ (by decide) (by decide)]
  simp [decodeFields, form0, regOf_val]

theorem sand (rd ra rb : Reg) : Statement (.sand rd ra rb) := fun _ => by
  rw [decode, encode, fieldsOf_pack _ _ _ _ _ (by decide) (by decide)]
  simp [decodeFields, form0, regOf_val]

theorem sor (rd ra rb : Reg) : Statement (.sor rd ra rb) := fun _ => by
  rw [decode, encode, fieldsOf_pack _ _ _ _ _ (by decide) (by decide)]
  simp [decodeFields, form0, regOf_val]

theorem sxor (rd ra rb : Reg) : Statement (.sxor rd ra rb) := fun _ => by
  rw [decode, encode, fieldsOf_pack _ _ _ _ _ (by decide) (by decide)]
  simp [decodeFields, form0, regOf_val]

theorem snot (rd ra : Reg) : Statement (.snot rd ra) := fun _ => by
  rw [decode, encode, fieldsOf_pack _ _ _ _ _ (by decide) (by decide)]
  simp [decodeFields, form0, regOf_val]

theorem spow2 (rd : Reg) (k : Nat) : Statement (.spow2 rd k) := fun h => by
  have hk : k < 4096 := by simpa [Instr.wellFormed] using h
  rw [decode, encode, fieldsOf_pack _ _ _ _ _ (by decide) hk]
  simp [decodeFields, formK, regOf_val]

theorem bisz (ra : Reg) : Statement (.bisz ra) := fun _ => by
  rw [decode, encode, fieldsOf_pack _ _ _ _ _ (by decide) (by decide)]
  simp [decodeFields, form0, regOf_val]

theorem bzero (rd : Reg) : Statement (.bzero rd) := fun _ => by
  rw [decode, encode, fieldsOf_pack _ _ _ _ _ (by decide) (by decide)]
  simp [decodeFields, form0, regOf_val]

theorem bone (rd : Reg) : Statement (.bone rd) := fun _ => by
  rw [decode, encode, fieldsOf_pack _ _ _ _ _ (by decide) (by decide)]
  simp [decodeFields, form0, regOf_val]

theorem bmsb (rd ra : Reg) : Statement (.bmsb rd ra) := fun _ => by
  rw [decode, encode, fieldsOf_pack _ _ _ _ _ (by decide) (by decide)]
  simp [decodeFields, form0, regOf_val]

theorem bsamp (rd : Reg) : Statement (.bsamp rd) := fun _ => by
  rw [decode, encode, fieldsOf_pack _ _ _ _ _ (by decide) (by decide)]
  simp [decodeFields, form0, regOf_val]

theorem bsampnz (rd : Reg) : Statement (.bsampnz rd) := fun _ => by
  rw [decode, encode, fieldsOf_pack _ _ _ _ _ (by decide) (by decide)]
  simp [decodeFields, form0, regOf_val]

theorem bsampu (rd ra : Reg) : Statement (.bsampu rd ra) := fun _ => by
  rw [decode, encode, fieldsOf_pack _ _ _ _ _ (by decide) (by decide)]
  simp [decodeFields, form0, regOf_val]

theorem bsampr (rd ra rb : Reg) : Statement (.bsampr rd ra rb) := fun _ => by
  rw [decode, encode, fieldsOf_pack _ _ _ _ _ (by decide) (by decide)]
  simp [decodeFields, form0, regOf_val]

theorem bsampui (rd ra : Reg) : Statement (.bsampui rd ra) := fun _ => by
  rw [decode, encode, fieldsOf_pack _ _ _ _ _ (by decide) (by decide)]
  simp [decodeFields, form0, regOf_val]

theorem bsampri (rd ra rb : Reg) : Statement (.bsampri rd ra rb) := fun _ => by
  rw [decode, encode, fieldsOf_pack _ _ _ _ _ (by decide) (by decide)]
  simp [decodeFields, form0, regOf_val]

theorem bmov (rd ra : Reg) : Statement (.bmov rd ra) := fun _ => by
  rw [decode, encode, fieldsOf_pack _ _ _ _ _ (by decide) (by decide)]
  simp [decodeFields, form0, regOf_val]

theorem gadd (rd ra rb : Reg) : Statement (.gadd rd ra rb) := fun _ => by
  rw [decode, encode, fieldsOf_pack _ _ _ _ _ (by decide) (by decide)]
  simp [decodeFields, form0, regOf_val]

theorem gsub (rd ra rb : Reg) : Statement (.gsub rd ra rb) := fun _ => by
  rw [decode, encode, fieldsOf_pack _ _ _ _ _ (by decide) (by decide)]
  simp [decodeFields, form0, regOf_val]

theorem gneg (rd ra : Reg) : Statement (.gneg rd ra) := fun _ => by
  rw [decode, encode, fieldsOf_pack _ _ _ _ _ (by decide) (by decide)]
  simp [decodeFields, form0, regOf_val]

theorem gmp2 (rd ra : Reg) (k : Nat) : Statement (.gmp2 rd ra k) := fun h => by
  have hk : k < 4096 := by simpa [Instr.wellFormed] using h
  rw [decode, encode, fieldsOf_pack _ _ _ _ _ (by decide) hk]
  simp [decodeFields, formK, regOf_val]

theorem gmp2cf (rd ra : Reg) (k : Nat) : Statement (.gmp2cf rd ra k) := fun h => by
  have hk : k < 4096 := by simpa [Instr.wellFormed] using h
  rw [decode, encode, fieldsOf_pack _ _ _ _ _ (by decide) hk]
  simp [decodeFields, formK, regOf_val]

theorem ftom (rd ra : Reg) : Statement (.ftom rd ra) := fun _ => by
  rw [decode, encode, fieldsOf_pack _ _ _ _ _ (by decide) (by decide)]
  simp [decodeFields, form0, regOf_val]

theorem ffromm (rd ra : Reg) : Statement (.ffromm rd ra) := fun _ => by
  rw [decode, encode, fieldsOf_pack _ _ _ _ _ (by decide) (by decide)]
  simp [decodeFields, form0, regOf_val]

theorem fmul (rd ra rb : Reg) : Statement (.fmul rd ra rb) := fun _ => by
  rw [decode, encode, fieldsOf_pack _ _ _ _ _ (by decide) (by decide)]
  simp [decodeFields, form0, regOf_val]

theorem fpow (rd ra rb ws : Reg) : Statement (.fpow rd ra rb ws) := fun _ => by
  have hb := ws.isLt
  rw [decode, encode, fieldsOf_pack _ _ _ _ _ (by decide) (by omega)]
  simp [decodeFields, formHW, regOf_val, reg_div]

theorem fpowl (rd ra rb ws : Reg) : Statement (.fpowl rd ra rb ws) := fun _ => by
  have hb := ws.isLt
  rw [decode, encode, fieldsOf_pack _ _ _ _ _ (by decide) (by omega)]
  simp [decodeFields, formHW, regOf_val, reg_div]

theorem finv (rd ra ws : Reg) : Statement (.finv rd ra ws) := fun _ => by
  have hb := ws.isLt
  rw [decode, encode, fieldsOf_pack _ _ _ _ _ (by decide) (by omega)]
  simp [decodeFields, formHW, regOf_val, reg_div]

theorem fsqrt (rd ra ws : Reg) : Statement (.fsqrt rd ra ws) := fun _ => by
  have hb := ws.isLt
  rw [decode, encode, fieldsOf_pack _ _ _ _ _ (by decide) (by omega)]
  simp [decodeFields, formHW, regOf_val, reg_div]

theorem pisinf (ra : Reg) : Statement (.pisinf ra) := fun _ => by
  rw [decode, encode, fieldsOf_pack _ _ _ _ _ (by decide) (by decide)]
  simp [decodeFields, form0, regOf_val]

theorem psetinf (rd : Reg) : Statement (.psetinf rd) := fun _ => by
  rw [decode, encode, fieldsOf_pack _ _ _ _ _ (by decide) (by decide)]
  simp [decodeFields, form0, regOf_val]

theorem ponc (ra ws : Reg) : Statement (.ponc ra ws) := fun _ => by
  have hb := ws.isLt
  rw [decode, encode, fieldsOf_pack _ _ _ _ _ (by decide) (by omega)]
  simp [decodeFields, formHW, regOf_val, reg_div]

theorem peq (ra rb ws : Reg) : Statement (.peq ra rb ws) := fun _ => by
  have hb := ws.isLt
  rw [decode, encode, fieldsOf_pack _ _ _ _ _ (by decide) (by omega)]
  simp [decodeFields, formHW, regOf_val, reg_div]

theorem pneg (rd ra : Reg) : Statement (.pneg rd ra) := fun _ => by
  rw [decode, encode, fieldsOf_pack _ _ _ _ _ (by decide) (by decide)]
  simp [decodeFields, form0, regOf_val]

theorem paddd (rd ra rb ws : Reg) : Statement (.paddd rd ra rb ws) := fun _ => by
  have hb := ws.isLt
  rw [decode, encode, fieldsOf_pack _ _ _ _ _ (by decide) (by omega)]
  simp [decodeFields, formHW, regOf_val, reg_div]

theorem pdbl (rd ra ws : Reg) : Statement (.pdbl rd ra ws) := fun _ => by
  have hb := ws.isLt
  rw [decode, encode, fieldsOf_pack _ _ _ _ _ (by decide) (by omega)]
  simp [decodeFields, formHW, regOf_val, reg_div]

theorem padd (rd ra rb ws : Reg) : Statement (.padd rd ra rb ws) := fun _ => by
  have hb := ws.isLt
  rw [decode, encode, fieldsOf_pack _ _ _ _ _ (by decide) (by omega)]
  simp [decodeFields, formHW, regOf_val, reg_div]

theorem psmul (rd ra rb ws : Reg) : Statement (.psmul rd ra rb ws) := fun _ => by
  have hb := ws.isLt
  rw [decode, encode, fieldsOf_pack _ _ _ _ _ (by decide) (by omega)]
  simp [decodeFields, formHW, regOf_val, reg_div]

theorem ptoaff (rd ws : Reg) : Statement (.ptoaff rd ws) := fun _ => by
  have hb := ws.isLt
  rw [decode, encode, fieldsOf_pack _ _ _ _ _ (by decide) (by omega)]
  simp [decodeFields, formHW, regOf_val, reg_div]

theorem pfromaff (rd : Reg) : Statement (.pfromaff rd) := fun _ => by
  rw [decode, encode, fieldsOf_pack _ _ _ _ _ (by decide) (by decide)]
  simp [decodeFields, form0, regOf_val]

theorem pmov (rd ra : Reg) : Statement (.pmov rd ra) := fun _ => by
  rw [decode, encode, fieldsOf_pack _ _ _ _ _ (by decide) (by decide)]
  simp [decodeFields, form0, regOf_val]

end Sys2Proof.Laws.RoundTrip
end

