-- ==== Sys2Proof/Laws/Sqrt.lean ====
section
/-!
SUPPORT. The square root (45_field_inv_sqrt.md R270 to R272): Euler's criterion decides residues, and `montSqrt` of a
residue is a root.
-/

namespace Sys2Proof.Machine

section
variable {n M : Nat}

theorem elt_montSquarings (x k : Nat) : elt n M (montSquarings n M x k) = elt n M x ^ 2 ^ k := by
  induction k with
  | zero => simp [montSquarings]
  | succ k ih => rw [montSquarings, elt_montMul, ih, pow_succ 2 k, pow_mul]; ring

theorem montSquarings_lt (h : 0 < M) {x : Nat} (hx : x < M) : ∀ k, montSquarings n M x k < M
  | 0 => hx
  | _ + 1 => montMul_lt h _ _

theorem eq_montOne_iff (hodd : M % 2 = 1) {x : Nat} (hx : x < M) : x = montOne n M ↔ elt n M x = 1 := by
  rw [← elt_inj (n := n) hodd hx (montOne_lt (by omega)), elt_montOne hodd]

/-- `isResidue` computes the power of Euler's criterion. -/
theorem isResidue_iff_pow (hodd : M % 2 = 1) (a : Nat) :
    isResidue n M a = true ↔ elt n M a ^ ((M - 1) / 2) = 1 := by
  rw [isResidue, beq_iff_eq, eq_montOne_iff hodd (montPow_lt (by omega) (montOne_lt (by omega))),
    elt_montPow hodd]

/-- Every residue below `M` is what some value below `M` stands for. -/
theorem exists_elt (hodd : M % 2 = 1) (y : ZMod M) : ∃ r, r < M ∧ elt n M r = y := by
  have : NeZero M := ⟨by omega⟩
  exact ⟨mont n M y.val, Nat.mod_lt _ (by omega), by rw [elt_mont hodd, ZMod.natCast_zmod_val]⟩

/-- Euler's criterion in the words of R271: for `a` not 0, some `r` in `[1, M)` has `MontMul(r, r) = a`. -/
theorem isResidue_iff (hp : Nat.Prime M) (hodd : M % 2 = 1) {a : Nat} (ha : a < M) (h0 : a ≠ 0) :
    isResidue n M a = true ↔ ∃ r, 1 ≤ r ∧ r < M ∧ montMul n M r r = a := by
  have := Fact.mk hp
  have hea : elt n M a ≠ 0 := fun h => h0 ((elt_eq_zero hodd ha).1 h)
  rw [isResidue_iff_pow hodd, show (M - 1) / 2 = M / 2 by omega, ← ZMod.euler_criterion M hea]
  constructor
  · rintro ⟨y, hy⟩
    obtain ⟨r, hr, rfl⟩ := exists_elt (n := n) hodd y
    refine ⟨r, ?_, hr, ?_⟩
    · rcases Nat.eq_zero_or_pos r with rfl | h
      · simp at hy; exact absurd hy hea
      · exact h
    · rw [← elt_inj (n := n) hodd (montMul_lt (by omega) _ _) ha, elt_montMul, hy]
  · rintro ⟨r, _, _, rfl⟩
    exact ⟨elt n M r, elt_montMul _ _⟩

theorem findNonresidue_spec {k : Nat} (hk : isResidue n M k = false) : ∀ (fuel z : Nat), z ≤ k → k < z + fuel →
    isResidue n M (findNonresidue n M fuel z) = false ∧ z ≤ findNonresidue n M fuel z ∧
      findNonresidue n M fuel z ≤ k
  | 0, _, h1, h2 => absurd h2 (by omega)
  | fuel + 1, z, h1, h2 => by
    rw [findNonresidue]
    cases hz : isResidue n M z with
    | false => simp [hz, h1]
    | true =>
      have hne : z ≠ k := fun e => by rw [e, hk] at hz; cases hz
      have := findNonresidue_spec hk fuel (z + 1) (by omega) (by omega)
      simp only [if_true]
      exact ⟨this.1, by omega, this.2.2⟩

/-- There is a non-residue, so the search finds one. -/
theorem findNonresidue_prime (hp : Nat.Prime M) (hodd : M % 2 = 1) :
    1 ≤ findNonresidue n M M 1 ∧ findNonresidue n M M 1 < M ∧
      elt n M (findNonresidue n M M 1) ^ ((M - 1) / 2) = -1 := by
  have := Fact.mk hp
  have hp2 : M ≠ 2 := by omega
  obtain ⟨y, hy⟩ := FiniteField.exists_nonsquare (F := ZMod M) (by rw [ZMod.ringChar_zmod_n]; exact hp2)
  obtain ⟨k, hkM, rfl⟩ := exists_elt (n := n) hodd y
  have hk0 : elt n M k ≠ 0 := fun h => hy (by rw [h]; exact ⟨0, by simp⟩)
  have hkpos : 1 ≤ k := by
    rcases Nat.eq_zero_or_pos k with rfl | h
    · simp at hk0
    · exact h
  have hres : isResidue n M k = false := by
    rw [← Bool.not_eq_true, isResidue_iff_pow hodd, show (M - 1) / 2 = M / 2 by omega,
      ← ZMod.euler_criterion M hk0]
    exact hy
  obtain ⟨h1, h2, h3⟩ := findNonresidue_spec hres M 1 hkpos (by omega)
  refine ⟨h2, by omega, ?_⟩
  have hz0 : elt n M (findNonresidue n M M 1) ≠ 0 := fun h => by
    have := (elt_eq_zero hodd (by omega)).1 h; omega
  rw [← Bool.not_eq_true, isResidue_iff_pow hodd] at h1
  have := ZMod.pow_div_two_eq_neg_one_or_one M hz0
  rw [show (M - 1) / 2 = M / 2 by omega] at h1 ⊢
  rcases this with h | h
  · exact absurd h h1
  · exact h

theorem twoPart_spec : ∀ (fuel v : Nat), v ≠ 0 → v ≤ fuel → ∃ q, q % 2 = 1 ∧ v = q * 2 ^ twoPart fuel v
  | 0, v, h0, h => absurd h (by omega)
  | fuel + 1, v, h0, h => by
    rw [twoPart]
    by_cases hv : v % 2 = 1
    · exact ⟨v, hv, by simp [hv]⟩
    · obtain ⟨q, hq, he⟩ := twoPart_spec fuel (v / 2) (by omega) (by omega)
      refine ⟨q, hq, ?_⟩
      simp only [hv, if_false]
      rw [pow_succ, ← mul_assoc, ← he]; omega

theorem orderLog_spec (hodd : M % 2 = 1) {t : Nat} : ∀ (fuel x i j : Nat), x < M →
    elt n M x = elt n M t ^ 2 ^ i → elt n M t ^ 2 ^ j = 1 → i ≤ j → j < i + fuel →
    i ≤ orderLog n M fuel x i ∧ orderLog n M fuel x i ≤ j ∧ elt n M t ^ 2 ^ orderLog n M fuel x i = 1 ∧
      ∀ k, i ≤ k → k < orderLog n M fuel x i → elt n M t ^ 2 ^ k ≠ 1
  | 0, _, _, _, _, _, _, h1, h2 => absurd h2 (by omega)
  | fuel + 1, x, i, j, hx, hxe, hj, hij, hf => by
    rw [orderLog]
    by_cases h : x = montOne n M
    · simp only [h, if_true]
      rw [eq_montOne_iff hodd hx, hxe] at h
      exact ⟨le_refl _, hij, h, fun k h1 h2 => absurd h2 (by omega)⟩
    · have hi : elt n M t ^ 2 ^ i ≠ 1 := fun e => h ((eq_montOne_iff hodd hx).2 (hxe.trans e))
      have hne : i ≠ j := fun e => hi (e ▸ hj)
      have ih := orderLog_spec hodd fuel (montMul n M x x) (i + 1) j (montMul_lt (by omega) _ _)
        (by rw [elt_montMul, hxe, pow_succ 2 i, pow_mul]; ring) hj (by omega) (by omega)
      simp only [h, if_false]
      refine ⟨by omega, ih.2.1, ih.2.2.1, fun k h1 h2 => ?_⟩
      rcases Nat.eq_or_lt_of_le h1 with rfl | h1
      · exact hi
      · exact ih.2.2.2 k h1 h2

/-- The loop invariant of R272: `r² = a*t`, `t` has order dividing `2^(m-1)`, `c` has order `2^m`. -/
theorem sqrtLoop_spec (hp : Nat.Prime M) (hodd : M % 2 = 1) {a : Nat} :
    ∀ (fuel c r t m : Nat), m ≤ fuel → 1 ≤ m → r < M → t < M → c < M →
    elt n M r ^ 2 = elt n M a * elt n M t → elt n M t ^ 2 ^ (m - 1) = 1 → elt n M c ^ 2 ^ (m - 1) = -1 →
    sqrtLoop n M fuel c r t m < M ∧ elt n M (sqrtLoop n M fuel c r t m) ^ 2 = elt n M a
  | 0, _, _, _, _, h, h1, _, _, _, _, _, _ => absurd h (by omega)
  | fuel + 1, c, r, t, m, hf, hm, hr, ht, hc, hra, htm, hcm => by
    have := Fact.mk hp
    rw [sqrtLoop]
    by_cases h : t = montOne n M
    · simp only [h, if_true]
      rw [eq_montOne_iff hodd ht] at h
      exact ⟨hr, by rw [hra, h, mul_one]⟩
    · simp only [h, if_false]
      have hpos : 0 < M := by omega
      obtain ⟨_, hi2, hi3, hi4⟩ := orderLog_spec hodd (t := t) m t 0 (m - 1) ht (by simp) htm (by omega) (by omega)
      set i := orderLog n M m t 0 with hi
      have hi0 : i ≠ 0 := fun e => by
        rw [e, pow_zero, pow_one] at hi3
        exact h ((eq_montOne_iff hodd ht).2 hi3)
      have hneg : elt n M t ^ 2 ^ (i - 1) = -1 := by
        have h1 := hi4 (i - 1) (by omega) (by omega)
        have h2 : (elt n M t ^ 2 ^ (i - 1)) ^ 2 = 1 := by
          rw [← pow_mul, ← pow_succ, show i - 1 + 1 = i by omega]; exact hi3
        have h3 : (elt n M t ^ 2 ^ (i - 1) - 1) * (elt n M t ^ 2 ^ (i - 1) + 1) = 0 := by linear_combination h2
        rcases mul_eq_zero.1 h3 with h4 | h4
        · exact absurd (sub_eq_zero.1 h4) h1
        · exact eq_neg_of_add_eq_zero_left h4
      have hb : elt n M (montSquarings n M c (m - i - 1)) ^ 2 = elt n M c ^ 2 ^ (m - i) := by
        rw [elt_montSquarings, ← pow_mul, ← pow_succ, show m - i - 1 + 1 = m - i by omega]
      have hb' : elt n M (montMul n M (montSquarings n M c (m - i - 1)) (montSquarings n M c (m - i - 1))) =
          elt n M c ^ 2 ^ (m - i) := by rw [elt_montMul, ← pow_two, hb]
      have hci : (elt n M c ^ 2 ^ (m - i)) ^ 2 ^ (i - 1) = -1 := by
        rw [← pow_mul, ← pow_add, show m - i + (i - 1) = m - 1 by omega]; exact hcm
      refine sqrtLoop_spec hp hodd fuel _ _ _ i (by omega) (by omega) (montMul_lt hpos _ _)
        (montMul_lt hpos _ _) (montMul_lt hpos _ _) ?_ ?_ ?_
      · rw [elt_montMul, elt_montMul, hb', mul_pow, hra, hb]; ring
      · rw [elt_montMul, hb', mul_pow, hneg, hci]; ring
      · rw [hb']; exact hci

/-- `montSqrt` of a residue is one of its roots (R270, R272). -/
theorem montSqrt_spec (hp : Nat.Prime M) (hodd : M % 2 = 1) {a : Nat} (ha : a < M) (h0 : a ≠ 0)
    (hres : isResidue n M a = true) :
    1 ≤ montSqrt n M a ∧ montSqrt n M a < M ∧ montMul n M (montSqrt n M a) (montSqrt n M a) = a := by
  have := Fact.mk hp
  have hpos : 0 < M := hp.pos
  have h3 : 3 ≤ M := by have := hp.two_le; omega
  have he := (isResidue_iff_pow (n := n) hodd a).1 hres
  have hone := montOne_lt (n := n) hpos
  suffices h : montSqrt n M a < M ∧ elt n M (montSqrt n M a) ^ 2 = elt n M a by
    refine ⟨?_, h.1, ?_⟩
    · rcases Nat.eq_zero_or_pos (montSqrt n M a) with hz | hz
      · rw [hz, elt_zero] at h
        exact absurd ((elt_eq_zero hodd ha).1 (by rw [← h.2]; ring)) h0
      · exact hz
    · rw [← elt_inj (n := n) hodd (montMul_lt hpos _ _) ha, elt_montMul, ← pow_two, h.2]
  unfold montSqrt
  by_cases h4 : M % 4 = 3
  · simp only [h4, if_true]
    refine ⟨montPow_lt hpos hone, ?_⟩
    rw [elt_montPow hodd, ← pow_mul, show (M + 1) / 4 * 2 = (M - 1) / 2 + 1 by omega, pow_succ, he, one_mul]
  · simp only [h4, if_false]
    obtain ⟨q, hq, hM⟩ := twoPart_spec (M - 1) (M - 1) (by omega) (le_refl _)
    set s := twoPart (M - 1) (M - 1) with hs
    have hs0 : s ≠ 0 := fun e => by rw [e] at hM; omega
    have hqe : (M - 1) / 2 ^ s = q := by
      conv_lhs => rw [hM]
      exact Nat.mul_div_cancel _ (by positivity)
    have hhalf : (M - 1) / 2 = q * 2 ^ (s - 1) := by
      have h2 : 2 ^ s = 2 ^ (s - 1) * 2 := by rw [← pow_succ]; congr 1; omega
      rw [hM, h2, ← mul_assoc, Nat.mul_div_cancel _ (by decide)]
    obtain ⟨hz1, hz2, hz3⟩ := findNonresidue_prime (n := n) hp hodd
    rw [hqe]
    refine sqrtLoop_spec hp hodd s _ _ _ s (le_refl _) (by omega) (montPow_lt hpos hone)
      (montPow_lt hpos hone) (montPow_lt hpos hone) ?_ ?_ ?_
    · rw [elt_montPow hodd, elt_montPow hodd, ← pow_mul, show (q + 1) / 2 * 2 = 1 + q by omega, pow_add, pow_one]
    · rw [elt_montPow hodd, ← pow_mul, ← hhalf, he]
    · rw [elt_montPow hodd, ← pow_mul, ← hhalf, hz3]

end

end Sys2Proof.Machine
end

