-- ==== Sys2Proof/Tests/Slice0.lean ====
section
/-!
SUPPORT. Small tests. Every expected result is the spec's: an example of the rule named, a word of spec/95_test_vectors.md
or a hand calculation from 30_encoding.md R100. `witness_*` theorems show states that meet the hypotheses of the
statements.
-/

namespace Sys2Proof.Tests

open Sys2Proof Sys2Proof.Machine Sys2Proof.Safety

-- One theorem after the other: a hundred kernel evaluations at once ask for more threads than the sandbox has memory for.
set_option Elab.async false

/-! ### Helpers -/

/-- The next state of a command, or the state itself where the model stops. -/
def after (i : Instr) (s : State) : State :=
  match exec i s with
  | .next t => t
  | .fault _ => s
  | .refused _ => s

/-- A committed configuration over the one-limb reset state. -/
def configured (mod mprime rr rone ca cb : Nat) : State :=
  { State.reset with mod, mprime, rr, rone, ca, cb, status := { Status.reset with cfgok := true } }

/-- `M = 0xFFFFFFFB` (43_addgroup.md and 44_field_mont.md examples). -/
def s32 : State := configured 0xFFFFFFFB 0xCCCCCCCD 25 5 0 35

/-- `M = 13` (45_field_inv_sqrt.md examples). -/
def s13 : State := configured 13 0x3B13B13B 3 9 0 0

/-- `M = 97`, `y² = x³ + 2x + 3` (46_point.md examples), with `p0 = G`, `p1 = 2G`, `p3 = -G`. -/
def s97 : State :=
  ((configured 97 0xA0FD5C5F 61 35 70 8).writeP 0 ⟨8, 16, 35⟩).writeP 1 ⟨68, 5, 32⟩ |>.writeP 3 ⟨8, 81, 35⟩

/-- `M = 0x7FFFFFFF` (43_addgroup.md R220 example). -/
def s31 : State := configured 0x7FFFFFFF 0x80000001 4 2 0 0

/-- The reset state of the two-limb instance (41_limbseq.md examples). -/
def s64 : State := State.resetOf ⟨32, 2, .cios⟩

/-! ### Well-formedness: a term that each check refuses -/

theorem test_wf_lshl : (Instr.lshl 0 0 4096).wellFormed = false ∧ (Instr.lshl 0 0 4095).wellFormed = true := by decide
theorem test_wf_lshr : (Instr.lshr 0 0 4096).wellFormed = false ∧ (Instr.lshr 0 0 4095).wellFormed = true := by decide
theorem test_wf_sshl : (Instr.sshl 0 0 4096).wellFormed = false ∧ (Instr.sshl 0 0 4095).wellFormed = true := by decide
theorem test_wf_sshr : (Instr.sshr 0 0 4096).wellFormed = false ∧ (Instr.sshr 0 0 4095).wellFormed = true := by decide
theorem test_wf_spow2 : (Instr.spow2 0 4096).wellFormed = false ∧ (Instr.spow2 0 4095).wellFormed = true := by decide
theorem test_wf_gmp2 : (Instr.gmp2 0 0 4096).wellFormed = false ∧ (Instr.gmp2 0 0 4095).wellFormed = true := by decide
theorem test_wf_gmp2cf : (Instr.gmp2cf 0 0 4096).wellFormed = false ∧ (Instr.gmp2cf 0 0 4095).wellFormed = true := by
  decide

/-! ### Decoding: every constructor from a word written out by hand (op, rd, ra, rb, imm digit by digit) -/

theorem test_decode_system :
    decode 0x00000000#32 = .ok .nop ∧ decode 0x01000000#32 = .ok .cfg ∧ decode 0x02000000#32 = .ok .clrerr := by decide

theorem test_decode_limb :
    decode 0x10123000#32 = .ok (.ladd 1 2 3) ∧ decode 0x11456000#32 = .ok (.ladc 4 5 6) ∧
    decode 0x12789000#32 = .ok (.lsub 7 8 9) ∧ decode 0x13ABC000#32 = .ok (.lsbb 10 11 12) ∧
    decode 0x14012003#32 = .ok (.lmul 0 1 2 3) ∧ decode 0x15DE0000#32 = .ok (.lclz 13 14) ∧
    decode 0x16F0001F#32 = .ok (.lshl 15 0 31) ∧ decode 0x17B0001C#32 = .ok (.lshr 11 0 28) := by decide

theorem test_decode_sequence :
    decode 0x20123000#32 = .ok (.sadd 1 2 3) ∧ decode 0x21456000#32 = .ok (.ssub 4 5 6) ∧
    decode 0x22010004#32 = .ok (.sshl 0 1 4) ∧ decode 0x23780FFF#32 = .ok (.sshr 7 8 4095) ∧
    decode 0x24012000#32 = .ok (.scmp 1 2) ∧ decode 0x25123000#32 = .ok (.sand 1 2 3) ∧
    decode 0x26456000#32 = .ok (.sor 4 5 6) ∧ decode 0x27789000#32 = .ok (.sxor 7 8 9) ∧
    decode 0x28AB0000#32 = .ok (.snot 10 11) ∧ decode 0x29C00021#32 = .ok (.spow2 12 33) := by decide

theorem test_decode_bigint :
    decode 0x30010000#32 = .ok (.bisz 1) ∧ decode 0x31400000#32 = .ok (.bzero 4) ∧
    decode 0x32400000#32 = .ok (.bone 4) ∧ decode 0x33010000#32 = .ok (.bmsb 0 1) ∧
    decode 0x34500000#32 = .ok (.bsamp 5) ∧ decode 0x35600000#32 = .ok (.bsampnz 6) ∧
    decode 0x36010000#32 = .ok (.bsampu 0 1) ∧ decode 0x37012000#32 = .ok (.bsampr 0 1 2) ∧
    decode 0x38010000#32 = .ok (.bsampui 0 1) ∧ decode 0x39012000#32 = .ok (.bsampri 0 1 2) ∧
    decode 0x3A010000#32 = .ok (.bmov 0 1) := by decide

theorem test_decode_addgroup :
    decode 0x40012000#32 = .ok (.gadd 0 1 2) ∧ decode 0x41345000#32 = .ok (.gsub 3 4 5) ∧
    decode 0x42670000#32 = .ok (.gneg 6 7) ∧ decode 0x43010003#32 = .ok (.gmp2 0 1 3) ∧
    decode 0x44890FFF#32 = .ok (.gmp2cf 8 9 4095) := by decide

theorem test_decode_field :
    decode 0x50010000#32 = .ok (.ftom 0 1) ∧ decode 0x51230000#32 = .ok (.ffromm 2 3) ∧
    decode 0x52456000#32 = .ok (.fmul 4 5 6) ∧ decode 0x53012008#32 = .ok (.fpow 0 1 2 8) ∧
    decode 0x54345009#32 = .ok (.fpowl 3 4 5 9) ∧ decode 0x55410008#32 = .ok (.finv 4 1 8) ∧
    decode 0x5667000A#32 = .ok (.fsqrt 6 7 10) := by decide

theorem test_decode_point :
    decode 0x60000000#32 = .ok (.pisinf 0) ∧ decode 0x61300000#32 = .ok (.psetinf 3) ∧
    decode 0x62000008#32 = .ok (.ponc 0 8) ∧ decode 0x63012008#32 = .ok (.peq 1 2 8) ∧
    decode 0x64100000#32 = .ok (.pneg 1 0) ∧ decode 0x65210008#32 = .ok (.paddd 2 1 0 8) ∧
    decode 0x66100008#32 = .ok (.pdbl 1 0 8) ∧ decode 0x67201008#32 = .ok (.padd 2 0 1 8) ∧
    decode 0x68101008#32 = .ok (.psmul 1 0 1 8) ∧ decode 0x69200008#32 = .ok (.ptoaff 2 8) ∧
    decode 0x6A200000#32 = .ok (.pfromaff 2) ∧ decode 0x6B100000#32 = .ok (.pmov 1 0) := by decide

/-- One word for each case of 30_encoding.md R106, and reserved `op` values of R107. -/
theorem test_decode_illegal :
    decode 0x03000000#32 = .error .unassignedOp ∧ decode 0xFF000000#32 = .error .unassignedOp ∧
    decode 0x6C000000#32 = .error .unassignedOp ∧ decode 0x18000000#32 = .error .unassignedOp ∧
    decode 0x00100000#32 = .error .registerFieldNotZero ∧ decode 0x15011000#32 = .error .registerFieldNotZero ∧
    decode 0x10012001#32 = .error .immNotZero ∧ decode 0x14012013#32 = .error .immHighNotZero ∧
    decode 0x66100018#32 = .error .immHighNotZero := by decide

/-- The pseudo-instructions expand to one command (30_encoding.md R109). -/
theorem test_pseudo :
    Instr.saddi 1 2 = .sadd 1 1 2 ∧ Instr.gaddi 1 2 = .gadd 1 1 2 ∧ Instr.gsubi 1 2 = .gsub 1 1 2 ∧
    Instr.gdbl 1 2 = .gmp2 1 2 1 ∧ Instr.bpow2 1 7 = .spow2 1 7 ∧ Instr.bcmp 1 2 = .scmp 1 2 := by decide

/-! ### System commands and faults -/

/-- R331's example: the configuration commits; with `MPRIME = 0x33333333` it does not. -/
theorem test_cfg :
    (after .cfg (s32.setCfgok false)).status.word = 0x00000010#32 ∧
    (after .cfg { s32 with mprime := 0x33333333 }).status.word = 0x00000700#32 ∧
    (after .cfg { s32 with mprime := 0x33333333 }).errcmd = 0x01000000#32 := by decide +kernel

/-- R333's example. -/
theorem test_clrerr :
    ({ s32.status with err := 8 } : Status).word = 0x00000810#32 ∧
    (after .clrerr { s32 with status := { s32.status with err := 8 } }).status.word = 0x00000010#32 := by
  decide +kernel

/-- The example of 60_exceptions.md R346. -/
theorem test_fault_priority :
    (after (.finv 8 1 8) (s32.setCfgok false)).status.err = 2 ∧ (after (.finv 8 1 8) s32).status.err = 3 ∧
    (after (.finv 0 1 8) s32).status.err = 8 := by decide +kernel

/-- A word issued while a fault is recorded is dropped (R343); `CLRERR` runs. -/
theorem test_dropped :
    issue 0x01000000#32 (recorded 5 0 s32) = .next (recorded 5 0 s32) ∧
    issue 0x02000000#32 (recorded 5 0 s32) = .next (recorded 0 0 s32) := ⟨rfl, rfl⟩

/-! ### 40_limb.md, the examples of R136 to R143 -/

theorem test_ladd :
    (after (.ladd 0 1 2) ((s32.writeL 1 0xFFFFFFFF).writeL 2 2)).readL 0 = 1 ∧
    (after (.ladd 0 1 2) ((s32.writeL 1 0xFFFFFFFF).writeL 2 2)).status.c = true := by decide +kernel

theorem test_ladc :
    (after (.ladc 0 1 1) ((s32.writeL 1 0xFFFFFFFF).setC true)).readL 0 = 0xFFFFFFFF ∧
    (after (.ladc 0 1 1) ((s32.writeL 1 0xFFFFFFFF).setC true)).status.c = true := by decide +kernel

theorem test_lsub :
    (after (.lsub 0 1 2) ((s32.writeL 1 1).writeL 2 2)).readL 0 = 0xFFFFFFFF ∧
    (after (.lsub 0 1 2) ((s32.writeL 1 1).writeL 2 2)).status.c = true := by decide +kernel

theorem test_lsbb :
    (after (.lsbb 0 1 2) ((s32.writeL 2 0xFFFFFFFF).setC true)).readL 0 = 0 ∧
    (after (.lsbb 0 1 2) ((s32.writeL 2 0xFFFFFFFF).setC true)).status.c = true := by decide +kernel

theorem test_lmul :
    (after (.lmul 0 1 2 3) ((s32.writeL 1 0xd8b2f21e).writeL 2 0xabf7c642)).readL 0 = 0xea579fbc ∧
    (after (.lmul 0 1 2 3) ((s32.writeL 1 0xd8b2f21e).writeL 2 0xabf7c642)).readL 3 = 0x91914433 := by decide +kernel

theorem test_lmul_one_register : (after (.lmul 3 1 2 3) s32).status.err = 4 := by decide +kernel

theorem test_lclz :
    (after (.lclz 0 1) (s32.writeL 1 0x00010000)).readL 0 = 15 ∧ (after (.lclz 0 1) s32).readL 0 = 32 := by
  decide +kernel

theorem test_lshl :
    (after (.lshl 0 1 1) (s32.writeL 1 0x80000001)).readL 0 = 2 ∧
    (after (.lshl 0 1 32) (s32.writeL 1 0x80000001)).readL 0 = 0 := by decide +kernel

theorem test_lshr :
    (after (.lshr 0 1 1) (s32.writeL 1 0x80000001)).readL 0 = 0x40000000 ∧
    (after (.lshr 0 1 32) (s32.writeL 1 0x80000001)).readL 0 = 0 := by decide +kernel

/-! ### 41_limbseq.md, the examples of R155 to R164 -/

theorem test_sadd :
    (after (.sadd 0 1 2) ((s64.writeF 1 0xFFFFFFFFFFFFFFFF).writeF 2 1)).readF 0 = 0 ∧
    (after (.sadd 0 1 2) ((s64.writeF 1 0xFFFFFFFFFFFFFFFF).writeF 2 1)).status.c = true := by decide +kernel

theorem test_ssub :
    (after (.ssub 0 1 2) ((s64.writeF 1 0x100000000).writeF 2 1)).readF 0 = 0xFFFFFFFF ∧
    (after (.ssub 0 2 1) ((s64.writeF 1 0x100000000).writeF 2 1)).readF 0 = 0xFFFFFFFF00000001 := by decide +kernel

theorem test_sshl : (after (.sshl 0 1 4) (s64.writeF 1 0x8000000080000001)).readF 0 = 0x0000000800000010 := by
  decide +kernel

theorem test_sshr : (after (.sshr 0 1 4) (s64.writeF 1 0x8000000080000001)).readF 0 = 0x0800000008000000 := by
  decide +kernel

theorem test_scmp : (after (.scmp 1 2) ((s64.writeF 1 0x100000000).writeF 2 0xFFFFFFFF)).status.cmp = .gt := by
  decide +kernel

theorem test_sand :
    (after (.sand 0 1 2) ((s64.writeF 1 0xF0F0F0F00000FFFF).writeF 2 0xFF00FF0000FF00FF)).readF 0 =
      0xF000F000000000FF := by decide +kernel

theorem test_sor :
    (after (.sor 0 1 2) ((s64.writeF 1 0xF0F0F0F00000FFFF).writeF 2 0xFF00FF0000FF00FF)).readF 0 =
      0xFFF0FFF000FFFFFF := by decide +kernel

theorem test_sxor :
    (after (.sxor 0 1 2) ((s64.writeF 1 0xF0F0F0F00000FFFF).writeF 2 0xFF00FF0000FF00FF)).readF 0 =
      0x0FF00FF000FFFF00 := by decide +kernel

theorem test_snot : (after (.snot 0 1) (s64.writeF 1 0x00000000FFFF0000)).readF 0 = 0xFFFFFFFF0000FFFF := by
  decide +kernel

theorem test_spow2 :
    (after (.spow2 0 33) s64).readF 0 = 0x0000000200000000 ∧ (after (.spow2 0 64) s64).status.err = 5 := by
  decide +kernel

/-- A literal is spelled most significant limb first (20_memory.md R77). -/
theorem test_literal : literal 32 [1, 2] = 2 ^ 32 + 2 ∧ limbOf 32 (literal 32 [1, 2]) 0 = 2 := by decide +kernel

/-- Byte 0 is the least significant (20_memory.md R76); `mont(2) = 70` and `mont(3) = 8` on the toy curve (46_point.md). -/
theorem test_bytes_mont : byteOf 0x100000002 0 = 2 ∧ byteOf 0x100000002 4 = 1 ∧ mont 32 97 2 = 70 ∧ mont 32 97 3 = 8 := by
  decide +kernel

/-! ### 42_bigint.md, the examples of R182 to R186; samples in a range of one value (R194 to R197) -/

theorem test_bisz :
    (after (.bisz 1) s64).status.t = true ∧ (after (.bisz 1) (s64.writeF 1 0x100000000)).status.t = false := by
  decide +kernel

theorem test_bzero_bone :
    (after (.bzero 4) (s64.writeF 4 7)).readF 4 = 0 ∧ (after (.bone 4) (s64.writeF 4 7)).readF 4 = 1 := by
  decide +kernel

theorem test_bmov : (after (.bmov 0 1) (s64.writeF 1 0x123456789ABCDEF0)).readF 0 = 0x123456789ABCDEF0 := by
  decide +kernel

theorem test_bmsb : (after (.bmsb 0 1) (s64.writeF 1 0x100000000)).readL 0 = 33 ∧ (after (.bmsb 0 1) s64).readL 0 = 0 := by
  decide +kernel

theorem test_bsampu : (after (.bsampu 0 1) s32).status.err = 5 := by decide +kernel
theorem test_bsampr : (after (.bsampr 0 1 2) ((s32.writeF 1 5).writeF 2 5)).status.err = 5 := by decide +kernel
theorem test_bsampri :
    (after (.bsampri 0 1 2) ((s32.writeF 1 6).writeF 2 5)).status.err = 5 ∧
    (after (.bsampri 0 1 2) ((s32.writeF 1 5).writeF 2 5)).status.err = 0 := by decide +kernel

/-! ### 43_addgroup.md, the examples of R216 to R220 -/

theorem test_gadd :
    (after (.gadd 0 1 2) ((s32.writeF 1 0xFFFFFFFA).writeF 2 1)).readF 0 = 0 ∧
    (after (.gadd 0 1 1) (s32.writeF 1 0xFFFFFFFA)).readF 0 = 0xFFFFFFF9 := by decide +kernel

theorem test_gsub : (after (.gsub 0 1 2) ((s32.writeF 1 1).writeF 2 2)).readF 0 = 0xFFFFFFFA := by decide +kernel

theorem test_gneg :
    (after (.gneg 0 1) (s32.writeF 1 1)).readF 0 = 0xFFFFFFFA ∧ (after (.gneg 0 1) s32).readF 0 = 0 := by
  decide +kernel

theorem test_gmp2 :
    (after (.gmp2 0 1 1) (s32.writeF 1 0xFFFFFFFA)).readF 0 = 0xFFFFFFF9 ∧
    (after (.gmp2 0 1 3) (s32.writeF 1 0xFFFFFFFA)).readF 0 = 0xFFFFFFF3 := by decide +kernel

theorem test_gmp2cf :
    (after (.gmp2cf 0 1 3) (s31.writeF 1 0x7FFFFFFE)).readF 0 = 0x7FFFFFF7 ∧
    (after (.gmp2cf 0 1 3) s32).status.err = 6 := by decide +kernel

/-! ### 44_field_mont.md and 45_field_inv_sqrt.md, the examples of R237 to R242, R261, R271 -/

theorem test_fmul : (after (.fmul 0 1 2) ((s32.writeF 1 10).writeF 2 15)).readF 0 = 30 := by decide +kernel
theorem test_ftom : (after (.ftom 0 1) (s32.writeF 1 2)).readF 0 = 10 := by decide +kernel
theorem test_ffromm : (after (.ffromm 0 1) (s32.writeF 1 30)).readF 0 = 6 := by decide +kernel
/-- The product of `FMUL` is what either multiplier gives (44_field_mont.md R236), here in two limbs. -/
theorem test_mont_alg :
    let M := 0xFFFFFFFFFFFFFFC5
    let s : State := { s64 with mod := M, mprime := 0xA08AD8F3 }
    s.builtMul (M - 1) (M - 2) = montMul 64 M (M - 1) (M - 2) ∧
    ({ s with geom := ⟨32, 2, .sos⟩ } : State).builtMul (M - 1) (M - 2) = montMul 64 M (M - 1) (M - 2) := by decide +kernel

theorem test_fpow : (after (.fpow 0 1 2 8) ((s32.writeF 1 10).writeF 2 10)).readF 0 = 0x1400 := by decide +kernel
theorem test_fpowl : (after (.fpowl 0 1 2 8) ((s32.writeF 1 10).writeL 2 3)).readF 0 = 40 := by decide +kernel

theorem test_finv :
    (after (.finv 0 1 8) (s32.writeF 1 10)).readF 0 = 0x80000000 ∧
    (after (.finv 0 1 8) (s13.writeF 1 5)).readF 0 = 11 := by decide +kernel

/-- The branches of `FSQRT` on `M = 13` (R271): the residue 10 has the root 5 up to sign, 6 has none. -/
theorem test_fsqrt :
    isResidue 32 13 10 = true ∧ montSqrt 32 13 10 ∈ [5, 8] ∧ isResidue 32 13 6 = false := by decide +kernel

/-- The almost inverse of R263's and R264's example. -/
theorem test_almost_inverse :
    almostInverse 0xFFFFFFFB 10 = (1, 33) ∧ almostCorrect 32 0xFFFFFFFB 25 (1, 33) = 0x80000000 := by decide +kernel

/-! ### 46_point.md and 47_scalar_mul.md, the examples of R286 to R297, R321 -/

theorem test_pisinf :
    (after (.pisinf 0) s97).status.t = false ∧ (after (.pisinf 0) (s97.writeP 0 ⟨11, 22, 0⟩)).status.t = true := by
  decide +kernel

theorem test_psetinf : (after (.psetinf 0) s97).readP 0 = ⟨8, 16, 0⟩ := by decide +kernel
theorem test_pmov : (after (.pmov 5 1) s97).readP 5 = ⟨68, 5, 32⟩ := by decide +kernel
theorem test_pneg : (after (.pneg 1 0) s97).readP 1 = ⟨8, 81, 35⟩ := by decide +kernel

theorem test_ponc :
    (after (.ponc 1 8) s97).status.t = true ∧ (after (.ponc 0 8) (s97.writeP 0 ⟨1, 1, 1⟩)).status.t = false := by
  decide +kernel

theorem test_peq :
    (after (.peq 1 2 8) ((s97.writeP 1 ⟨90, 73, 10⟩).writeP 2 ⟨90, 24, 87⟩)).status.t = true ∧
    (after (.peq 0 3 8) s97).status.t = false := by decide +kernel

theorem test_paddd : (after (.paddd 2 1 0 8) s97).readP 2 = ⟨90, 73, 10⟩ := by decide +kernel

theorem test_pdbl :
    (after (.pdbl 1 0 8) s97).readP 1 = ⟨68, 5, 32⟩ ∧
    (after (.pdbl 1 0 8) (s97.writeP 0 ⟨5, 7, 0⟩)).readP 1 = ⟨75, 96, 0⟩ := by decide +kernel

theorem test_padd :
    (after (.padd 2 0 1 8) s97).readP 2 = ⟨90, 24, 87⟩ ∧
    (after (.padd 2 0 3 8) (s97.writeP 2 ⟨11, 22, 33⟩)).readP 2 = ⟨11, 22, 0⟩ := by decide +kernel

theorem test_ptoaff : (after (.ptoaff 2 8) (s97.writeP 2 ⟨90, 73, 10⟩)).readP 2 = ⟨84, 38, 10⟩ := by decide +kernel
theorem test_pfromaff : (after (.pfromaff 2) (s97.writeP 2 ⟨84, 38, 10⟩)).readP 2 = ⟨84, 38, 35⟩ := by decide +kernel

theorem test_psmul :
    (after (.psmul 1 0 1 8) ((s97.writeP 0 ⟨0, 59, 35⟩).writeF 1 5)).readP 1 = ⟨94, 64, 23⟩ ∧
    (after (.psmul 1 0 1 8) ((s97.writeP 0 ⟨0, 59, 35⟩).writeF 1 51)).readP 1 = ⟨0, 59, 35⟩ := by decide +kernel

/-! ### Witnesses: a state and operands that meet the hypotheses of each statement, clause by clause, at boundary values

`s97` is the spec's curve over 97, `s13` and `s32` the spec's fields over 13 and `0xFFFFFFFB`. -/

/-- The three limbs of a modulus above `2^64`, for R243 (4): the prime `3*2^66 + 1`. -/
def sWide : State :=
  { State.resetOf ⟨32, 3, .sos⟩ with
    mod := 221360928884514619393
    mprime := 0xFFFFFFFF
    rr := 49319419919292898418
    rone := 73786976294480292523
    status := { Status.reset with cfgok := true } }

theorem prime_wide : Nat.Prime 221360928884514619393 := by
  refine lucas_primality 221360928884514619393 10 (by reduce_mod_char) fun q hq hd => ?_
  have hd' : q ∣ 3 * 2 ^ 66 := by simpa using hd
  rcases hq.dvd_mul.mp hd' with h | h
  · obtain rfl := (Nat.prime_dvd_prime_iff_eq hq Nat.prime_three).mp h
    norm_num
    reduce_mod_char
    decide +kernel
  · obtain rfl := (Nat.prime_dvd_prime_iff_eq hq Nat.prime_two).mp (hq.dvd_of_dvd_pow h)
    norm_num
    reduce_mod_char
    decide +kernel

theorem inRange_s32 : InRange s32 := by decide +kernel
theorem invariant_s97 : Invariant s97 := by decide +kernel
theorem configured_s97 : Configured s97 := by decide +kernel
theorem validConfig_s97 : ValidConfig s97 :=
  ⟨configured_s97, by decide +kernel, by decide +kernel, by decide +kernel⟩
theorem validConfig_s13 : ValidConfig s13 :=
  ⟨by decide +kernel, by decide +kernel, by decide +kernel, by decide +kernel⟩
theorem validConfig_wide : ValidConfig sWide :=
  ⟨by decide +kernel, prime_wide, by decide +kernel, by decide +kernel⟩

theorem witness_DecodeAfterEncode : (Instr.lshl 15 15 4095).wellFormed = true := by decide
theorem witness_EncodeAfterDecode : decode 0x17FF0FFF#32 = .ok (.lshr 15 15 4095) := by decide

/-- The words next to legal ones, with no fault recorded. -/
theorem witness_IllegalWordsRecorded :
    s97.status.err = 0 ∧ IllegalWord 0x6C000000#32 ∧ IllegalWord 0x00000001#32 ∧ IllegalWord 0x66100010#32 ∧
    ¬ IllegalWord 0x6B100000#32 := by
  unfold IllegalWord Row.Matches; decide +kernel

theorem witness_StepRunsIssuedCommand :
    ({ s97 with hostIn := [.issue 0x66100008#32, .reset] } : State).hostIn = .issue 0x66100008#32 :: [.reset] ∧
    ({ s97 with hostIn := [.write .cmd 0 0x66100008] } : State).hostIn = .write .cmd 0 (0x66100008#32).toNat :: [] ∧
    decode 0x66100008#32 = .ok (.pdbl 1 0 8) ∧ s97.status.err = 0 := ⟨rfl, rfl, by decide, by decide⟩

/-- Both clauses: a word that is dropped (one bit from `CLRERR`), and `CLRERR`. -/
theorem witness_DroppedWhileFaultRecorded :
    (recorded 8 0x55010008#32 s97).status.err ≠ 0 ∧ (0x02000001#32 : Word32) ≠ 0x02000000#32 := by decide +kernel

/-- A state of the invariant with no fault recorded, and a command for every code: 1 to 8, and no fault at the last
workspace base that fits. -/
theorem witness_FaultCausesAndPriority :
    Invariant s97 ∧ Invariant State.reset ∧ s97.status.err = 0 ∧ State.reset.status.err = 0 ∧
    decode 0x67201008#32 = .ok (.padd 2 0 1 8) ∧ faultOf (.padd 2 0 1 8) State.reset = some 2 ∧
    faultOf (.padd 2 0 1 11) s97 = none ∧ faultOf (.padd 2 0 1 12) s97 = some 3 ∧
    faultOf (.psmul 1 0 11 11) s97 = some 3 ∧ faultOf (.psmul 1 0 10 11) s97 = none ∧
    faultOf (.lmul 3 1 2 3) s97 = some 4 ∧ faultOf (.spow2 0 32) s97 = some 5 ∧ faultOf (.spow2 0 31) s97 = none ∧
    faultOf (.gmp2cf 0 1 3) s32 = some 6 ∧ faultOf (.gmp2cf 0 1 3) s97 = none ∧
    faultOf .cfg State.reset = some 7 ∧ faultOf .cfg s97 = none ∧ faultOf (.finv 0 1 8) s97 = some 8 :=
  ⟨invariant_s97, by decide +kernel, by decide +kernel⟩

/-- One command of every family, each meeting no fault in a state of the invariant. -/
theorem witness_CommandsChangeOnlyTheirFootprint :
    Invariant s97 ∧ faultOf .clrerr s97 = none ∧ faultOf (.lmul 0 1 2 3) s97 = none ∧ faultOf (.spow2 0 31) s97 = none ∧
    faultOf (.bsampui 0 1) s97 = none ∧ faultOf (.gmp2cf 0 1 4095) s97 = none ∧ faultOf (.fsqrt 0 1 11) s97 = none ∧
    faultOf (.psmul 1 0 1 11) s97 = none := by decide +kernel

/-- Both clauses: a configuration that passes, and one for each check that fails at its boundary. -/
theorem witness_ConfigurationCommit :
    ConfigSound s97 ∧ ¬ ConfigSound { s97 with mod := 96 } ∧ ¬ ConfigSound { s97 with mod := 1, mprime := 0xFFFFFFFF } ∧
    ¬ ConfigSound { s97 with mprime := 0xA0FD5C60 } ∧ ¬ ConfigSound { s97 with rr := 97 } ∧
    ¬ ConfigSound { s97 with rone := 97 } ∧ ¬ ConfigSound { s97 with ca := 97 } ∧ ¬ ConfigSound { s97 with cb := 97 } := by
  decide +kernel

/-- The hypotheses of `LimbAdd`, `LimbSubtract`, `SequenceAddSubtract`, `SequenceBitwise`, `BigIntTestConstantsCopy`,
`BigIntMostSignificantBit` and `SamplersWithoutFault`, on a state whose registers hold their largest values. -/
theorem witness_InRange :
    InRange (((s32.writeL 1 0xFFFFFFFF).writeF 1 0xFFFFFFFF).setC true) ∧ InRange s64 ∧
    (s32.writeL 1 0xFFFFFFFF).readL 1 = 2 ^ s32.W - 1 := by decide +kernel

theorem witness_LimbMultiply : InRange s32 ∧ (0 : Reg) ≠ 3 ∧ (3 : Reg) = 3 := by decide +kernel

theorem witness_LimbLeadingZeros :
    InRange (s32.writeL 1 1) ∧ (s32.writeL 1 1).readL 0 = 0 ∧ (s32.writeL 1 1).readL 1 ≠ 0 := by decide +kernel

theorem witness_LimbShift : InRange s32 ∧ 31 < 4096 ∧ 4095 < 4096 ∧ s32.W = 32 := by decide +kernel

theorem witness_MacFromPrimitives : 2 ^ 32 - 1 < 2 ^ 32 ∧ mac 32 (2 ^ 32 - 1) (2 ^ 32 - 1) (2 ^ 32 - 1) (2 ^ 32 - 1) =
    (2 ^ 32 - 1, 2 ^ 32 - 1) := by decide +kernel

theorem witness_SequenceShift : InRange s64 ∧ s64.n = 64 ∧ 63 < 4096 ∧ 64 < 4096 := by decide +kernel

theorem witness_SequencePowerOfTwo : InRange s64 ∧ 63 < s64.n ∧ 63 < 4096 ∧ s64.n ≤ 64 ∧ 64 < 4096 := by decide +kernel

/-- The hypotheses of `RippleAddSubtract` and `CompareAndMsbByLimbs`, at the largest values of two limbs. -/
theorem witness_limbs : 2 ^ 64 - 1 < 2 ^ (2 * 32) ∧ 0 < 2 ^ (2 * 32) := by decide +kernel

theorem witness_ShiftByLimbs : 0 < 32 ∧ 2 ^ 64 - 1 < 2 ^ (2 * 32) ∧ 63 < 2 * 32 ∧ 2 * 32 ≤ 64 ∧ 1 < 2 := by decide +kernel

theorem witness_BigIntMostSignificantBit :
    InRange (s64.writeF 1 (2 ^ 63)) ∧ (s64.writeF 1 (2 ^ 63)).readF 0 = 0 ∧ (s64.writeF 1 (2 ^ 63)).readF 1 ≠ 0 := by
  decide +kernel

/-- Every clause: the bounds one apart, equal, and in the wrong order. -/
theorem witness_SamplersWithBounds :
    let s := (s32.writeF 1 5).writeF 2 6
    InRange s ∧ s.readF 1 ≠ 0 ∧ s.readF 0 = 0 ∧ s.readF 1 < s.readF 2 ∧ s.readF 1 ≤ s.readF 1 ∧
    s.readF 1 < s.readF 2 := by decide +kernel

/-- `GroupAddSubtractNegate`, `MontgomeryProducts`: operands 0 and `M - 1`. -/
theorem witness_operands_below :
    Configured (s97.writeF 1 96) ∧ (s97.writeF 1 96).readF 1 = s97.mod - 1 ∧ (s97.writeF 1 96).readF 1 < s97.mod ∧
    (s97.writeF 1 96).readF 0 < s97.mod ∧ (s97.writeF 1 96).rr = 2 ^ (2 * s97.n) % s97.mod := by decide +kernel

/-- Both sides of the test of `GMP2CF`, and the largest count. -/
theorem witness_GroupMultiplyByPowerOfTwo :
    Configured s97 ∧ Configured s31 ∧ Configured s32 ∧ s97.mod < 2 ^ (s97.n - 1) ∧ s97.readF 0 < s97.mod ∧
    4095 < 4096 ∧ s31.mod = 2 ^ (s31.n - 1) - 1 ∧ 2 ^ (s32.n - 1) ≤ s32.mod :=
  ⟨configured_s97, by decide +kernel, by decide +kernel, by decide +kernel⟩

/-- A register content outside `[0, M)`. -/
theorem witness_GroupAlgorithmsOnAnyContent :
    Configured (s97.writeF 1 0xFFFFFFFF) ∧ s97.mod ≤ (s97.writeF 1 0xFFFFFFFF).readF 1 ∧
    (s97.writeF 1 0xFFFFFFFF).mod < 2 ^ (s97.n - 1) := by decide +kernel

theorem witness_AddGroupLaws : 0 < 32 ∧ 97 < 2 ^ 32 ∧ 96 < 97 ∧ 0 < 97 ∧ 97 < 2 ^ (32 - 1) := by decide +kernel

/-- (3) and (6) on 97, the last with the exponents 97 and 96 in `f2` and `f3`; (4) above `2^64`. -/
theorem witness_MontgomeryFormLaws :
    ValidConfig (((s97.writeF 1 96).writeF 2 97).writeF 3 96) ∧ WindowGood 15 1 [0, 1, 2] ∧ WindowGood 15 1 [0, 1, 3] ∧
    (s97.writeF 1 96).readF 1 < s97.mod ∧ (s97.writeF 1 96).readF 1 ≠ 0 ∧ (s97.writeF 2 97).readF 2 = s97.mod ∧
    (s97.writeF 3 96).readF 3 = s97.mod - 1 ∧
    ValidConfig ((sWide.writeF 1 0xFFFFFFFF).writeF 2 0xFFFFFFFF) ∧ (3 : Reg) ≠ 2 ∧ (3 : Reg) ≠ 4 ∧
    2 ^ (2 * sWide.W) < sWide.mod ∧ (sWide.writeF 1 0xFFFFFFFF).readF 1 < 2 ^ sWide.W ∧
    (sWide.writeF 2 0xFFFFFFFF).readF 2 < 2 ^ sWide.W :=
  ⟨⟨by decide +kernel, validConfig_s97.2.1, by decide +kernel, by decide +kernel⟩, by decide, by decide,
    by decide +kernel, by decide +kernel, by decide +kernel, by decide +kernel,
    ⟨by decide +kernel, prime_wide, by decide +kernel, by decide +kernel⟩, by decide, by decide, by decide +kernel,
    by decide +kernel, by decide +kernel⟩

theorem witness_FieldPower :
    let s := (s97.writeF 1 96).writeL 2 3
    Configured s ∧ s.rone = 2 ^ s.n % s.mod ∧ WindowGood 15 1 [0, 1, 14] ∧ WindowGood 15 1 [0, 1] ∧ s.readF 1 < s.mod ∧
    s.readF 14 = 0 ∧ s.readL 14 = 0 ∧ s.readL 2 ≠ 0 := by decide +kernel

/-- `CiosMeetsContract` and `SosMeetsContract`: two limbs, operands `M - 1`. -/
theorem witness_multipliers :
    let M := 0xFFFFFFFFFFFFFFC5
    let mprime := 0xA08AD8F3
    M % 2 = 1 ∧ M < 2 ^ (2 * 32) ∧ mprime < 2 ^ 32 ∧ (mprime * (M % 2 ^ 32) + 1) % 2 ^ 32 = 0 ∧ M - 1 < M := by
  decide +kernel

/-- Both clauses, with the operands 1, `M - 1` and 0 and the last window that fits. -/
theorem witness_FieldInverse :
    WindowGood 13 3 [0, 1] ∧ ValidConfig (s13.writeF 1 12) ∧ 1 ≤ (s13.writeF 1 12).readF 1 ∧
    (s13.writeF 1 12).readF 1 < s13.mod ∧ s13.status.cfgok = true ∧ s13.readF 2 = 0 :=
  ⟨by decide, ⟨by decide +kernel, validConfig_s13.2.1, by decide +kernel, by decide +kernel⟩, by decide +kernel,
    by decide +kernel, by decide +kernel, by decide +kernel⟩

theorem witness_FieldSquareRoot :
    ValidConfig (s13.writeF 1 12) ∧ (s13.writeF 1 12).readF 1 < s13.mod ∧ (s13.writeF 1 12).readF 0 = 0 ∧
    WindowGood 11 5 [0, 1] :=
  ⟨⟨by decide +kernel, validConfig_s13.2.1, by decide +kernel, by decide +kernel⟩, by decide +kernel, by decide +kernel,
    by decide⟩

theorem witness_AlmostInverseMeetsContract : Nat.Prime 13 ∧ 13 % 2 = 1 ∧ 13 < 2 ^ 4 ∧ 1 ≤ 12 ∧ 12 < 13 := by decide +kernel

/-- `s97` with a point at infinity in `p9` whose `x` is not below `M`. -/
def s97inf : State := s97.writeP 9 ⟨97, 0, 0⟩

theorem configured_s97inf : Configured s97inf := by decide +kernel

/-- Every clause of `PointTestsAndMoves`: a finite point, and a point at infinity whose `x` is not below `M`. -/
theorem witness_PointTestsAndMoves :
    Configured s97 ∧ Configured s97inf ∧ Below s97 (s97.readP 0) ∧
    (s97.readP 0).z ≠ 0 ∧ Below s97 (s97.readP 9) ∧ (s97.readP 9).z = 0 ∧
    ¬ Below s97inf (s97inf.readP 9) ∧ (s97inf.readP 9).z = 0 ∧ (s97inf.readP 9).y < s97inf.mod :=
  ⟨configured_s97, configured_s97inf, by decide +kernel⟩

theorem witness_CurveEquationTest :
    Configured s97 ∧ (12 : Reg).val + 4 ≤ 16 ∧ (Below s97 (s97.readP 0) ∨ (s97.readP 0).z = 0) := by decide +kernel

theorem witness_PointEquality :
    Configured s97 ∧ Nat.Prime s97.mod ∧ (12 : Reg).val + 4 ≤ 16 ∧ (Below s97 (s97.readP 0) ∨ (s97.readP 0).z = 0) ∧
    (Below s97 (s97.readP 3) ∨ (s97.readP 3).z = 0) := ⟨configured_s97, validConfig_s97.2.1, by decide +kernel⟩

/-- Both clauses: a finite point, and infinity with `x = M`. -/
theorem witness_DoublingFormula :
    Configured s97inf ∧ (14 : Reg).val + 2 ≤ 16 ∧ Below s97inf (s97inf.readP 0) ∧ (s97inf.readP 9).z = 0 ∧
    ¬ Below s97inf (s97inf.readP 9) := ⟨configured_s97inf, by decide +kernel⟩

/-- Both clauses: two finite points, and infinity with `x = M` beside a finite one. -/
theorem witness_DistinctAdditionFormula :
    Configured s97inf ∧ (11 : Reg).val + 5 ≤ 16 ∧ Below s97inf (s97inf.readP 1) ∧ Below s97inf (s97inf.readP 0) ∧
    (s97inf.readP 9).z = 0 ∧ ¬ Below s97inf (s97inf.readP 9) := ⟨configured_s97inf, by decide +kernel⟩

/-- Every branch of `PADD`: an infinite point first, second; equal points; opposite points; two others. -/
theorem witness_GenericAdditionBranches :
    let G := s97.readP 0
    let D := s97.readP 1
    let negG := s97.readP 3
    Configured s97 ∧ (11 : Reg).val + 5 ≤ 16 ∧ Below s97 G ∧ Below s97 D ∧ Below s97 negG ∧ (s97.readP 9).z = 0 ∧
    G.z ≠ 0 ∧ SameX s97 G G ∧ SameY s97 G G ∧ SameX s97 G negG ∧ ¬ SameY s97 G negG ∧ OppositeY s97 G negG ∧
    D.z ≠ 0 ∧ ¬ (SameX s97 G D ∧ (SameY s97 G D ∨ OppositeY s97 G D)) := by
  unfold SameX SameY OppositeY; decide +kernel

/-- Every clause of `PTOAFF`: infinity, `z` one, and another `z`. -/
theorem witness_ToAffineInPlace :
    ValidConfig s97 ∧ (11 : Reg).val + 5 ≤ 16 ∧ (s97.readP 9).z = 0 ∧ (s97.readP 0).z = s97.rone ∧
    Below s97 (s97.readP 1) ∧ (s97.readP 1).z ≠ 0 ∧ (s97.readP 1).z ≠ s97.rone := ⟨validConfig_s97, by decide +kernel⟩

theorem witness_AffineConversionPair :
    ValidConfig s97 ∧ (11 : Reg).val + 5 ≤ 16 ∧ Below s97 (s97.readP 1) ∧ (s97.readP 1).z ≠ 0 :=
  ⟨validConfig_s97, by decide +kernel⟩

/-- Every clause at the last windows that fit: a finite point, and infinity with `x = M`; the second point index of `PADD`
and `PADDD` also inside the window. -/
theorem witness_CurveClosedUnderPointCommands :
    Configured s97inf ∧ CurvePoint s97inf (s97inf.readP 0) ∧ CurvePoint s97inf (s97inf.readP 1) ∧
    CurvePoint s97inf (s97inf.readP 9) ∧ CurvePoint s97inf (s97inf.readP 12) ∧ (14 : Reg).val + 2 ≤ 16 ∧
    (11 : Reg).val + 5 ≤ 16 ∧ (11 : Reg).val ≤ (12 : Reg).val ∧ WindowGood 11 5 [10] :=
  ⟨configured_s97inf, by unfold CurvePoint OnCurve; decide +kernel⟩

theorem witness_AdditionAgreesWithAffineLaw :
    ValidConfig s97 ∧ (11 : Reg).val + 5 ≤ 16 ∧ Below s97 (s97.readP 0) ∧ Below s97 (s97.readP 1) ∧
    OnCurve s97 (s97.readP 0) ∧ OnCurve s97 (s97.readP 1) :=
  ⟨validConfig_s97, by unfold OnCurve; decide +kernel⟩

theorem witness_ScalarMultiplicationIsRepeatedAddition :
    ValidConfig (s97.writeF 10 0xFFFFFFFF) ∧ NonSingular s97 ∧ WindowGood 11 5 [10] ∧ Below s97 (s97.readP 0) ∧
    OnCurve s97 (s97.readP 0) :=
  ⟨⟨by decide +kernel, validConfig_s97.2.1, by decide +kernel, by decide +kernel⟩,
    by unfold NonSingular OnCurve; decide +kernel⟩

theorem witness_ScalarMultiplicationCorners :
    Configured (s97.writeF 10 1) ∧ WindowGood 11 5 [10] ∧ WindowGood 11 5 [9] ∧ (s97.writeF 10 1).readF 9 = 0 ∧
    (s97.readP 9).z = 0 ∧ (s97.writeF 10 1).readF 10 = 1 ∧ (s97.readP 0).z ≠ 0 ∧ Below s97 (s97.readP 0) := by decide +kernel

theorem witness_ResetClearsStatus : ({ s97 with hostIn := [.reset] } : State).hostIn = .reset :: [] := rfl

theorem witness_InvariantKeptByEveryStep :
    Invariant { s97 with hostIn := [.write .mod 0 96] } ∧
    step { s97 with hostIn := [.write .mod 0 96] } = .next { s97 with mod := 96, status := { s97.status with cfgok := false } } :=
  ⟨by decide +kernel, rfl⟩

/-- Both clauses at the last limb index and the largest value, and one past each; `CMD` at an illegal index. -/
theorem witness_HostWriteSetsOneElement :
    let s : State := { s64 with hostIn := [.write (.f 15) 1 0xFFFFFFFF] }
    Invariant s ∧ s.hostIn = .write (.f 15) 1 0xFFFFFFFF :: [] ∧ (Sel.f 15) ≠ .cmd ∧ (Sel.f 15).readOnly = false ∧
    1 < (Sel.f 15).limbs s.geom.N ∧ 0xFFFFFFFF < 2 ^ (Sel.f 15).width s.W ∧
    (Sel.f 15).limbs s.geom.N ≤ 2 ∧ Sel.status.readOnly = true ∧ Sel.cmd.readOnly = false ∧
    Sel.cmd.limbs s.geom.N ≤ 1 := by decide +kernel

/-- A host address map with 64 bytes for every register, the limbs as 20_memory.md R80 recommends. -/
def map64 : HostMap := fun sel i => allSels.idxOf sel * 64 + 4 * i

/-- `p3.y`, limb 1, of the two-limb instance stands at the address `map64` gives it, and is read there as one word of its
width and in no other way (20_memory.md R78). -/
theorem test_physical_address :
    map64 (.py 3) 1 = 2692 ∧ map64.elementAt 2 2692 = some (.py 3, 1) ∧ map64.elementAt 2 2693 = none ∧
    busTo map64 (.read 2692 32) s64 = .next { s64 with hostIn := s64.hostIn ++ [.read (.py 3) 1] } ∧
    busTo map64 (.read 2692 64) s64 = .refused .notAlignedWord ∧
    busTo map64 (.read 2693 32) s64 = .refused .noElementAt :=
  ⟨by decide +kernel, by decide +kernel, by decide +kernel, rfl, rfl, rfl⟩

/-- `map64` moved by two bytes: an element at an address that is not a multiple of its bytes is not accessible (R78). -/
theorem test_misaligned_element :
    busTo (fun sel i => map64 sel i + 2) (.write 2694 32 5) s64 = .refused .notAlignedWord := rfl

theorem map64_contiguous : map64.Contiguous 32 2 := fun _ i _ => by simp [map64, Nat.mul_comm]

/-- The clauses on elements and addresses: a state in range, a proper map, an aligned word and one that is not, an
address of no element. -/
theorem witness_HostReadReturnsElement_address :
    InRange s64 ∧ map64.Proper s64.geom.N ∧ 1 < s64.geom.N ∧ 1 < (Sel.f 15).limbs s64.geom.N ∧
    (∀ sel j, j < sel.limbs s64.geom.N → map64 sel j ≠ 8) ∧ (Sel.l 0).limbs s64.geom.N ≤ 1 ∧
    (32 = (Sel.f 15).width s64.W ∧ map64 (.f 15) 1 % (32 / 8) = 0) ∧ 64 ≠ (Sel.f 15).width s64.W :=
  ⟨by decide +kernel, by decide +kernel, by decide +kernel, by decide +kernel,
    fun sel j h => by
      have : j < 2 := Nat.lt_of_lt_of_le h
        (by cases sel <;> first | exact Nat.le_refl 2 | exact Nat.le_succ 1)
      simp only [map64]; omega,
    by decide +kernel, by decide +kernel, by decide +kernel⟩

/-- The clauses on accesses: an element that is there, one that is not, and a value one too wide. -/
theorem witness_HostReadReturnsElement :
    s97.element (.px 0) 0 = some 8 ∧ s97.element (.px 0) 1 = none ∧ s97.element .cmd 0 = none ∧
    (Sel.f 0).readOnly = false ∧ 0 < (Sel.f 0).limbs s97.geom.N ∧ 2 ^ (Sel.f 0).width s97.W ≤ 0x100000000 := by
  decide +kernel

/-- `CFGOK` set by a `CFG` and cleared by a host write. -/
theorem witness_ConfigFlagLifetime :
    step { s97.setCfgok false with hostIn := [.issue 0x01000000#32] } = .next s97 ∧
    (s97.setCfgok false).status.cfgok = false ∧ s97.status.cfgok = true ∧
    step { s97 with hostIn := [.write .ca 0 70] } = .next (s97.setCfgok false) := ⟨rfl, rfl, rfl, rfl⟩

/-- The window `f8 .. f12` with other contents. -/
theorem witness_WorkspaceContentsUnobservable :
    (profile (.psmul 1 0 1 8)).ws = some (8, 5, [1]) ∧ faultOf (.psmul 1 0 1 8) s97 = none ∧
    ∀ r : Reg, r.val < (8 : Reg).val ∨ (8 : Reg).val + 5 ≤ r.val → (s97.f.set 12 77)[r] = s97.f[r] :=
  ⟨rfl, by decide +kernel⟩

end Sys2Proof.Tests
end

section
/-!
PROOFS. The invariant of the state after reset (00_scope.md R6, 10_state.md R54), for every geometry the spec admits.
-/

namespace Sys2Proof.Proofs.Reset

open Sys2Proof.Machine Sys2Proof.Safety

/-! ### What the state after reset holds -/

section
variable (g : Geometry) (r : Reg)

@[simp] theorem resetOf_readL : (State.resetOf g).readL r = 0 := Vector.getElem_replicate r.isLt

@[simp] theorem resetOf_readF : (State.resetOf g).readF r = 0 := Vector.getElem_replicate r.isLt

@[simp] theorem resetOf_readP : (State.resetOf g).readP r = ⟨0, 0, 0⟩ := Vector.getElem_replicate r.isLt

theorem resetOf_status : (State.resetOf g).status = Status.reset := rfl
end

/-! ### The parts of the invariant -/

section
variable (g : Geometry)

/-- Every register holds 0, which fits any width; only the geometry has to be one the spec admits. -/
theorem inRange_resetOf (hg : g.legal) : InRange (State.resetOf g) := by
  have fits (k : Nat) : 0 < 2 ^ k := Nat.two_pow_pos k
  refine ⟨hg, fun r => ?limb, fun r => ?value, fun r => ?point, fits _, fits _, fits _, fits _, fits _, fits _⟩
  case limb => rw [resetOf_readL]; exact fits _
  case value => rw [resetOf_readF]; exact fits _
  case point => rw [resetOf_readP]; exact ⟨fits _, fits _, fits _⟩

/-- No fault is recorded after reset. -/
theorem errLegal_resetOf : ErrLegal (State.resetOf g) := by
  rw [ErrLegal, resetOf_status]; decide

/-- No configuration is committed after reset, so none has to pass the checks of `CFG`. -/
theorem cfgSound_resetOf : CfgSound (State.resetOf g) := by
  rw [CfgSound, resetOf_status]; exact nofun

theorem invariant_resetOf (hg : g.legal) : Invariant (State.resetOf g) :=
  ⟨inRange_resetOf g hg, errLegal_resetOf g, cfgSound_resetOf g⟩
end

/-- The geometry of `State.reset` is one the spec admits (00_scope.md R6). -/
theorem geometry_legal : Config.geometry.legal := by decide

/-- Settles O55: the invariant holds after reset for every geometry the spec admits, and `Config.geometry` is one. -/
theorem invariantAtReset : Obligations.InvariantAtReset :=
  invariant_resetOf Config.geometry geometry_legal

end Sys2Proof.Proofs.Reset
end

section
/-!
PROOFS. What a command can do, said once for all 56 of them: it records the fault its profile declares, or it completes
inside its footprint and keeps the invariant (10_state.md R35; 60_exceptions.md R342 to R346, R351).
-/

namespace Sys2Proof.Proofs.Effects

open Sys2Proof.Machine Sys2Proof.Safety

/-! ### Completing -/

/-- A completion inside the footprint `fp`: nothing else changed, and the invariant is kept. -/
structure Keeps (fp : Footprint) (s t : State) : Prop where
  frame : fp.Frame s t
  inv : Invariant s → Invariant t

section
variable (s : State) (r q : Reg) (v x y : Nat) (b : Bool) (c : Cmp) (P : Point)

theorem keeps_refl (fp : Footprint) : Keeps fp s s := ⟨Frame.of_refl, id⟩

theorem keeps_writeL : Keeps { l := [r] } s (s.writeL r v) := ⟨frame_writeL .., fun h => inv_writeL h ..⟩

theorem keeps_writeL_setC : Keeps { l := [r], c := true } s ((s.writeL r v).setC b) :=
  ⟨frame_writeL_setC .., fun h => inv_writeL h ..⟩

theorem keeps_writeL_writeL : Keeps { l := [r, q] } s ((s.writeL r v).writeL q x) :=
  ⟨frame_writeL_writeL .., fun h => inv_writeL (inv_writeL h ..) ..⟩

theorem keeps_writeF : Keeps { f := [r] } s (s.writeF r v) := ⟨frame_writeF .., fun h => inv_writeF h ..⟩

theorem keeps_writeF_setC : Keeps { f := [r], c := true } s ((s.writeF r v).setC b) :=
  ⟨frame_writeF_setC .., fun h => inv_writeF h ..⟩

theorem keeps_writeF_setT : Keeps { f := [r], t := true } s ((s.writeF r v).setT b) :=
  ⟨frame_writeF_setT .., fun h => inv_writeF h ..⟩

theorem keeps_writeP : Keeps { p := [r] } s (s.writeP r P) := ⟨frame_writeP .., fun h => inv_writeP h ..⟩

theorem keeps_writePz : Keeps { p := [r] } s (s.writePz r v) := ⟨frame_writePz .., fun h => inv_writePz h ..⟩

theorem keeps_writePxy : Keeps { p := [r] } s (s.writePxy r x y) := ⟨frame_writePxy .., fun h => inv_writePxy h ..⟩

theorem keeps_setT : Keeps { t := true } s (s.setT b) := ⟨frame_setT .., fun h => inv_setT h b⟩

theorem keeps_setCmp : Keeps { cmp := true } s (s.setCmp c) := ⟨frame_setCmp .., fun h => inv_setCmp h c⟩

theorem keeps_clearErr : Keeps { err := true } s s.clearErr := ⟨frame_clearErr s, inv_clearErr⟩

/-- Setting `CFGOK` keeps the invariant only over a configuration that passes the checks. -/
theorem keeps_commit (h : ConfigSound s) : Keeps { cfgok := true } s (s.setCfgok true) :=
  ⟨frame_setCfgok .., fun hi => inv_cfg hi h⟩
end

section
variable {fp : Footprint} {s t u : State}

theorem Keeps.tookDraws (h : Keeps fp s t) (m : Nat) : Keeps fp s (t.tookDraws m) :=
  ⟨Frame.tookDraws m h.frame, fun hi => inv_tookDraws (h.inv hi) m⟩

theorem Keeps.scratch (h : Keeps fp s t) (ws : Reg) (k : Nat) :
    Keeps { fp with f := fp.f ++ window ws k } s (t.scratch ws k) :=
  ⟨Frame.scratch _ _ h.frame, fun hi => inv_scratch (h.inv hi) ..⟩

theorem Keeps.ite {p : Prop} [Decidable p] (h : Keeps fp s t) (h' : Keeps fp s u) :
    Keeps fp s (if p then t else u) := by split <;> assumption
end

/-! ### Faulting or completing -/

/-- What command `i` may make of `s`. The fault of a command is told from its profile in a state whose registers are
in their ranges; everything else holds in any state. -/
inductive Effect (i : Instr) (s : State) : State → Prop
  /-- The fault of the command is recorded; only `CFG` records `BADCFG`. -/
  | faults (e : FaultCode) (only : e = .badcfg → i = .cfg) (cause : InRange s → faultOf i s = some e.code) :
      Effect i s (s.raise e (encode i))
  /-- The command met no fault and completed. -/
  | completes {t : State} (noCause : InRange s → faultOf i s = none) (keeps : Keeps (profile i).foot s t) :
      Effect i s t

/-- Command `i` passes the gates of its profile in `s`: configuration and workspace (ranks 2 and 3 of R346). -/
structure Passes (i : Instr) (s : State) : Prop where
  config : (profile i).config = true → s.status.cfgok = true
  window : ∀ ws k operands, (profile i).ws = some (ws, k, operands) → WindowGood ws k operands

section
variable {i : Instr} {s t body : State}

/-- Behind the gates only the fault of the command's own operands is left. -/
theorem Passes.faultOf_eq (h : Passes i s) : faultOf i s = (profile i).fault s := by
  have hg : ¬ ((profile i).config = true ∧ s.status.cfgok = false) := fun ⟨hc, h0⟩ => by
    simp [h.config hc] at h0
  rw [faultOf, if_neg hg]
  split
  · next hw => exact if_neg (windowGood_iff.1 (h.window _ _ _ hw))
  · rfl

theorem Passes.ungated (hc : (profile i).config = false) (hw : (profile i).ws = none) : Passes i s :=
  ⟨fun h => (by simp [hc] at h), fun _ _ _ h => (by simp [hw] at h)⟩

theorem Effect.completed (hp : Passes i s) (hf : (profile i).fault s = none) (hk : Keeps (profile i).foot s t) :
    Effect i s t :=
  .completes (fun _ => hp.faultOf_eq.trans hf) hk

/-- A command that tests its own operands: the test `c` of the model is the cause `p` of the profile. -/
theorem Effect.tested {c p : Prop} [Decidable c] [Decidable p] (e : FaultCode) (hp : Passes i s) (he : e ≠ .badcfg)
    (hf : (profile i).fault s = faultIf p e.code) (hc : InRange s → (c ↔ p)) (hk : Keeps (profile i).foot s t) :
    Effect i s (if c then s.raise e (encode i) else t) := by
  split
  · next h => exact .faults e (fun h' => absurd h' he) fun hr => by rw [hp.faultOf_eq, hf, faultIf, if_pos ((hc hr).1 h)]
  · next h => exact .completes (fun hr => by rw [hp.faultOf_eq, hf, faultIf, if_neg fun hp => h ((hc hr).2 hp)]) hk

/-- The answer of `exec`: always a next state, and one that `Effect` allows. -/
def Executes (i : Instr) (s : State) : Prop := ∃ t, exec i s = .next t ∧ Effect i s t

theorem Executes.plain (he : exec i s = .next t) (hc : (profile i).config = false) (hw : (profile i).ws = none)
    (hf : (profile i).fault s = none) (hk : Keeps (profile i).foot s t) : Executes i s :=
  ⟨t, he, .completed (.ungated hc hw) hf hk⟩

/-- The gate of `CFGOK`, passed or not. -/
theorem Executes.configured (he : exec i s = requireCfg i s body) (hc : (profile i).config = true)
    (hb : s.status.cfgok = true → Effect i s body) : Executes i s := by
  refine ⟨_, he.trans rfl, ?_⟩
  split
  · next h => exact hb h
  · next h =>
    exact .faults .nocfg nofun fun _ => by rw [faultOf, if_pos ⟨hc, by simpa using h⟩]; rfl

/-- A command behind the gate of `CFGOK` alone. -/
theorem Executes.noWindow (he : exec i s = requireCfg i s body) (hc : (profile i).config = true)
    (hw : (profile i).ws = none) (hb : Passes i s → Effect i s body) : Executes i s :=
  .configured he hc fun hok => hb ⟨fun _ => hok, fun _ _ _ h => (by simp [hw] at h)⟩

/-- A command behind both gates. -/
theorem Executes.windowed {ws : Reg} {k : Nat} {operands : List Reg}
    (he : exec i s = requireCfg i s (requireWs i ws k operands s body)) (hc : (profile i).config = true)
    (hw : (profile i).ws = some (ws, k, operands)) (hb : Passes i s → Effect i s body) : Executes i s := by
  refine .configured he hc fun hok => ?_
  by_cases hg : WindowGood ws k operands
  · rw [requireWs_good hg]
    refine hb ⟨fun _ => hok, fun ws' k' operands' h => ?_⟩
    rw [hw] at h; cases h; exact hg
  · have hbad : WindowBad ws k operands := not_not.1 fun h => hg (windowGood_iff.2 h)
    have hfault : faultOf i s = some 3 := by simp [faultOf, hc, hok, hw, hbad]
    rw [requireWs_bad hbad]
    exact .faults .precondWs nofun fun _ => hfault
end

/-! ### All commands -/

section
variable (s : State)

theorem executes_cfg : Executes .cfg s := by
  have hp : Passes .cfg s := .ungated rfl rfl
  refine ⟨_, rfl, ?_⟩
  split
  · next h =>
    have hs := (configChecks_iff s).1 h
    exact .completed hp (faultIf_eq_none.2 (not_not.2 hs)) (keeps_commit s hs)
  · next h =>
    exact .faults .badcfg (fun _ => rfl) fun _ =>
      hp.faultOf_eq.trans (if_pos fun hs => h ((configChecks_iff s).2 hs))

/-- Every command, in every state, answers a next state and does what `Effect` allows of it. -/
theorem executes : ∀ i : Instr, Executes i s
  | .nop => .plain rfl rfl rfl rfl (keeps_refl ..)
  | .cfg => executes_cfg s
  | .clrerr => .plain rfl rfl rfl rfl (keeps_clearErr s)
  | .ladd .. | .ladc .. | .lsub .. | .lsbb .. => .plain rfl rfl rfl rfl (keeps_writeL_setC ..)
  | .lmul .. =>
    ⟨_, rfl, .tested .precondOperand (.ungated rfl rfl) nofun rfl (fun _ => .rfl) (keeps_writeL_writeL ..)⟩
  | .lclz .. | .lshl .. | .lshr .. | .bmsb .. => .plain rfl rfl rfl rfl (keeps_writeL ..)
  | .sadd .. | .ssub .. => .plain rfl rfl rfl rfl (keeps_writeF_setC ..)
  | .sshl .. | .sshr .. | .sand .. | .sor .. | .sxor .. | .snot .. | .bzero .. | .bone .. | .bmov .. =>
    .plain rfl rfl rfl rfl (keeps_writeF ..)
  | .scmp .. => .plain rfl rfl rfl rfl (keeps_setCmp ..)
  | .spow2 .. => ⟨_, rfl, .tested .precondRange (.ungated rfl rfl) nofun rfl (fun _ => .rfl) (keeps_writeF ..)⟩
  | .bisz .. => .plain rfl rfl rfl rfl (keeps_setT ..)
  | .bsamp .. | .bsampnz .. | .bsampui .. => .plain rfl rfl rfl rfl ((keeps_writeF ..).tookDraws 1)
  | .bsampu .. =>
    ⟨_, rfl, .tested .precondRange (.ungated rfl rfl) nofun rfl (fun _ => seqIsZero_eq _)
      ((keeps_writeF ..).tookDraws 1)⟩
  | .bsampr .. =>
    ⟨_, rfl, .tested .precondRange (.ungated rfl rfl) nofun rfl (fun _ => (seqCmp_eq _ _).1.not.trans Nat.not_lt)
      ((keeps_writeF ..).tookDraws 1)⟩
  | .bsampri .. =>
    ⟨_, rfl, .tested .precondRange (.ungated rfl rfl) nofun rfl (fun _ => (seqCmp_eq _ _).2.2)
      ((keeps_writeF ..).tookDraws 1)⟩
  | .gadd .. | .gsub .. | .gneg .. | .gmp2 .. =>
    .noWindow rfl rfl rfl fun hp => .completed hp rfl (keeps_writeF ..)
  | .gmp2cf .. =>
    .noWindow rfl rfl rfl fun hp => .tested .precondVariant hp nofun rfl
      (fun hr => topBit_iff (Nat.le_trans (by decide) (Geometry.legal.le_n hr.1)) hr.2.2.2.2.2.1) (keeps_writeF ..)
  | .ftom .. | .ffromm .. | .fmul .. =>
    .noWindow rfl rfl rfl fun hp => .completed hp rfl ((keeps_writeF ..).tookDraws 1)
  | .fpow .. | .fpowl .. =>
    .windowed rfl rfl rfl fun hp => .completed hp rfl (((keeps_writeF ..).tookDraws 1).scratch ..)
  | .finv .. =>
    .windowed rfl rfl rfl fun hp => .tested .undefinedInverse hp nofun rfl (fun _ => seqIsZero_eq _)
      (((keeps_writeF ..).tookDraws 1).scratch ..)
  | .fsqrt .. =>
    .windowed rfl rfl rfl fun hp => .completed hp rfl
      (((Keeps.ite (keeps_writeF_setT ..) (.ite (.ite (keeps_writeF_setT ..) (keeps_writeF_setT ..))
        (keeps_writeF_setT ..))).tookDraws 2).scratch ..)
  | .pisinf .. => .noWindow rfl rfl rfl fun hp => .completed hp rfl ((keeps_setT ..).tookDraws 1)
  | .psetinf .. => .noWindow rfl rfl rfl fun hp => .completed hp rfl (keeps_writePz ..)
  | .ponc .. | .peq .. =>
    .windowed rfl rfl rfl fun hp => .completed hp rfl (((keeps_setT ..).tookDraws 1).scratch ..)
  | .pneg .. | .pmov .. => .noWindow rfl rfl rfl fun hp => .completed hp rfl ((keeps_writeP ..).tookDraws 3)
  | .paddd .. | .pdbl .. | .psmul .. =>
    .windowed rfl rfl rfl fun hp => .completed hp rfl (((keeps_writeP ..).tookDraws 3).scratch ..)
  | .padd .. =>
    .windowed rfl rfl rfl fun hp => .completed hp rfl
      (((Keeps.ite (by split; exacts [keeps_writePz .., keeps_writeP ..]) (keeps_writeP ..)).tookDraws 3).scratch ..)
  | .ptoaff .. =>
    .windowed rfl rfl rfl fun hp => .completed hp rfl
      (((Keeps.ite (keeps_refl ..) (.ite (keeps_writePxy ..) (keeps_writePxy ..))).tookDraws 2).scratch ..)
  | .pfromaff .. =>
    .noWindow rfl rfl rfl fun hp => .completed hp rfl ((Keeps.ite (keeps_refl ..) (keeps_writePz ..)).tookDraws 1)
end

/-- Settles O8: a command that met a fault would have one by its profile, so it completed, inside its footprint. -/
theorem commandsChangeOnlyTheirFootprint : Obligations.CommandsChangeOnlyTheirFootprint := by
  intro i s ⟨hrange, _⟩ hnone
  obtain ⟨t, hexec, heffect⟩ := executes s i
  refine ⟨t, hexec, ?_⟩
  cases heffect with
  | faults e _ cause => simp [cause hrange] at hnone
  | completes _ keeps => exact keeps.frame

end Sys2Proof.Proofs.Effects
end

section
/-!
PROOFS. What a step can do, said once for every host action (20_memory.md R71 to R74, 60_exceptions.md R343,
70_reset_and_hazards.md R370), and from it: the invariant, the life of `CFGOK`, and `STATUS` after reset.
-/

namespace Sys2Proof.Proofs.Steps

open Sys2Proof.Machine Sys2Proof.Safety Sys2Proof.Proofs.Effects

/-! ### The host's actions -/

/-- What a host action may make of `s`. -/
inductive HostEffect (s : State) : HostAction → State → Prop
  /-- A write to an illegal index or to a read-only register (R71). -/
  | ignored {sel : Sel} {i v : Nat} : HostEffect s (.write sel i v) s
  /-- A write of one limb of a register; one of a configuration register clears `CFGOK` (R73). -/
  | wrote {sel : Sel} {i v : Nat} (hi : i < sel.limbs s.geom.N) (hv : v < 2 ^ sel.width s.W) :
      HostEffect s (.write sel i v)
        (if sel.isConfig then (s.putLimb sel i v).setCfgok false else s.putLimb sel i v)
  /-- A read of an element (R72). -/
  | answered {sel : Sel} {i v : Nat} : HostEffect s (.read sel i) { s with hostOut := s.hostOut ++ [v] }
  /-- A command word handed over, by either of the host's two ways (R74). -/
  | issued {a : HostAction} {w : Word32} {t : State} (ha : a = .issue w ∨ a = .write .cmd 0 w.toNat)
      (h : issue w s = .next t) : HostEffect s a t
  /-- The reset input (70_reset_and_hazards.md R370). -/
  | reset : HostEffect s .reset (resetInput s)

section
variable {s t : State}

theorem hostWrite_effect {sel : Sel} {i v : Nat} (h : hostWrite sel i v s = .next t) :
    HostEffect s (.write sel i v) t := by
  unfold hostWrite at h
  split at h
  · cases h; exact .ignored
  next hlegal =>
  simp only [Bool.or_eq_true, decide_eq_true_eq, not_or, Nat.not_le] at hlegal
  split at h
  · cases h
  next hv =>
  split at h
  · next hcmd =>
    subst hcmd
    have hi : i = 0 := Nat.lt_one_iff.1 hlegal.2
    have hw : (BitVec.ofNat 32 v).toNat = v := Nat.mod_eq_of_lt (Nat.not_le.1 hv)
    exact .issued (.inr (by rw [hi, hw])) h
  · cases h; exact .wrote hlegal.2 (Nat.not_le.1 hv)

theorem hostRead_effect {sel : Sel} {i : Nat} (h : hostRead sel i s = .next t) : HostEffect s (.read sel i) t := by
  unfold hostRead at h
  split at h
  · cases h; exact .answered
  · cases h

theorem hostAct_effect {a : HostAction} (h : hostAct a s = .next t) : HostEffect s a t := by
  cases a with
  | write sel i v => exact hostWrite_effect h
  | read sel i => exact hostRead_effect h
  | issue w => exact .issued (.inl rfl) h
  | reset => exact Host.Outcome.next.inj h ▸ .reset

/-- All a step can do: nothing, with no action pending, or the effect of the first pending one. -/
theorem step_cases (h : step s = .next t) :
    (s.hostIn = [] ∧ t = s) ∨
      ∃ a rest, s.hostIn = a :: rest ∧ HostEffect { s with hostIn := rest } a t := by
  unfold step hostStep at h
  split at h
  · next hin => cases h; exact .inl ⟨hin, rfl⟩
  · next a rest hin => exact .inr ⟨a, rest, hin, hostAct_effect h⟩

/-- All an issue can do: drop the word, record it as illegal, or execute the command it decodes to (R343, R106). -/
theorem issue_cases {w : Word32} (h : issue w s = .next t) :
    t = s ∨ t = s.raise .illegalCmd w ∨ ∃ i, decode w = .ok i ∧ exec i s = .next t ∧ Effect i s t := by
  unfold issue at h
  split at h
  · cases h; exact .inl rfl
  · split at h
    · cases h; exact .inr (.inl rfl)
    · next i hdecode =>
      obtain ⟨t', hexec, heffect⟩ := executes s i
      cases hexec.symm.trans h
      exact .inr (.inr ⟨i, hdecode, hexec, heffect⟩)
end

/-! ### The invariant -/

section
variable {s t : State}

/-- The components of a point register fit its width (10_state.md R33). -/
abbrev PointFits (s : State) (P : Point) : Prop := P.x < 2 ^ s.n ∧ P.y < 2 ^ s.n ∧ P.z < 2 ^ s.n

theorem inv_effect (hs : Invariant s) {i : Instr} (h : Effect i s t) : Invariant t := by
  cases h with
  | faults e _ _ => exact inv_raise hs e _
  | completes _ keeps => exact keeps.inv hs

theorem inv_issue (hs : Invariant s) {w : Word32} (h : issue w s = .next t) : Invariant t := by
  obtain rfl | rfl | ⟨i, _, _, heffect⟩ := issue_cases h
  · exact hs
  · exact inv_raise hs _ _
  · exact inv_effect hs heffect

/-- What holds of every register of a file still holds after one is set to a value of which it holds. -/
theorem forall_set {α : Type} {Q : α → Prop} {regs : Vector α 16} {x : α} (h : ∀ r : Reg, Q regs[r]) (hx : Q x)
    (k r : Reg) : Q (regs.set k x)[r] := by
  rw [Fin.getElem_fin, Vector.getElem_set]
  split
  · exact hx
  · exact h r

/-- A limb that fits its element leaves the register in its range (R71). -/
theorem inRange_putLimb (hs : InRange s) {sel : Sel} {i v : Nat} (hi : i < sel.limbs s.geom.N)
    (hv : v < 2 ^ sel.width s.W) : InRange (s.putLimb sel i v) := by
  obtain ⟨hg, hl, hf, hp, hmprime, hmod, hrr, hrone, hca, hcb⟩ := hs
  have setPoint (k : Reg) (P : Point) (hP : PointFits s P) : InRange { s with p := s.p.set k P } :=
    ⟨hg, hl, hf, forall_set (Q := PointFits s) hp hP k, hmprime, hmod, hrr, hrone, hca, hcb⟩
  cases sel with
  | l k => exact ⟨hg, forall_set (Q := (· < 2 ^ s.W)) hl hv k, hf, hp, hmprime, hmod, hrr, hrone, hca, hcb⟩
  | f k =>
    have hset := forall_set (Q := (· < 2 ^ s.n)) hf (setLimb_lt hi hv (hf k)) k
    exact ⟨hg, hl, hset, hp, hmprime, hmod, hrr, hrone, hca, hcb⟩
  | px k => exact setPoint k _ ⟨setLimb_lt hi hv (hp k).1, (hp k).2⟩
  | py k => exact setPoint k _ ⟨(hp k).1, setLimb_lt hi hv (hp k).2.1, (hp k).2.2⟩
  | pz k => exact setPoint k _ ⟨(hp k).1, (hp k).2.1, setLimb_lt hi hv (hp k).2.2⟩
  | mod => exact ⟨hg, hl, hf, hp, hmprime, setLimb_lt hi hv hmod, hrr, hrone, hca, hcb⟩
  | mprime => exact ⟨hg, hl, hf, hp, hv, hmod, hrr, hrone, hca, hcb⟩
  | rr => exact ⟨hg, hl, hf, hp, hmprime, hmod, setLimb_lt hi hv hrr, hrone, hca, hcb⟩
  | rone => exact ⟨hg, hl, hf, hp, hmprime, hmod, hrr, setLimb_lt hi hv hrone, hca, hcb⟩
  | ca => exact ⟨hg, hl, hf, hp, hmprime, hmod, hrr, hrone, setLimb_lt hi hv hca, hcb⟩
  | cb => exact ⟨hg, hl, hf, hp, hmprime, hmod, hrr, hrone, hca, setLimb_lt hi hv hcb⟩
  | status | errcmd | cmd => exact ⟨hg, hl, hf, hp, hmprime, hmod, hrr, hrone, hca, hcb⟩

@[simp] theorem putLimb_status (sel : Sel) (i v : Nat) : (s.putLimb sel i v).status = s.status := by cases sel <;> rfl

/-- A write to no configuration register leaves the configuration as it is. -/
theorem configSound_putLimb {sel : Sel} (hsel : sel.isConfig = false) (i v : Nat) :
    ConfigSound (s.putLimb sel i v) ↔ ConfigSound s := by
  cases sel with
  | mod | mprime | rr | rone | ca | cb => cases hsel
  | l | f | px | py | pz | status | errcmd | cmd => exact .rfl

theorem inv_wrote (hs : Invariant s) {sel : Sel} {i v : Nat} (hi : i < sel.limbs s.geom.N)
    (hv : v < 2 ^ sel.width s.W) :
    Invariant (if sel.isConfig then (s.putLimb sel i v).setCfgok false else s.putLimb sel i v) := by
  obtain ⟨hrange, herr, hcfg⟩ := hs
  have hrange' := inRange_putLimb hrange hi hv
  have herr' : ErrLegal (s.putLimb sel i v) := by rwa [ErrLegal, putLimb_status]
  split
  · exact ⟨hrange', herr', nofun⟩
  · next hsel =>
    refine ⟨hrange', herr', fun hok => ?_⟩
    rw [putLimb_status] at hok
    exact (configSound_putLimb (by simpa using hsel) i v).2 (hcfg hok)

theorem resetInput_status : (resetInput s).status = Status.reset := rfl

@[simp] theorem resetInput_geom : (resetInput s).geom = s.geom := by rw [resetInput]

@[simp] theorem resetInput_W : (resetInput s).W = s.W := by rw [State.W, State.W, resetInput_geom]

@[simp] theorem resetInput_n : (resetInput s).n = s.n := by rw [State.n, State.n, resetInput_geom]

@[simp] theorem resetInput_readL (r : Reg) : (resetInput s).readL r = s.free r % 2 ^ s.W :=
  Vector.getElem_ofFn r.isLt

@[simp] theorem resetInput_readF (r : Reg) : (resetInput s).readF r = s.free (16 + r) % 2 ^ s.n :=
  Vector.getElem_ofFn r.isLt

@[simp] theorem resetInput_readP (r : Reg) : (resetInput s).readP r =
    ⟨s.free (32 + 3 * r) % 2 ^ s.n, s.free (33 + 3 * r) % 2 ^ s.n, s.free (34 + 3 * r) % 2 ^ s.n⟩ :=
  Vector.getElem_ofFn r.isLt

@[simp] theorem resetInput_mprime : (resetInput s).mprime = s.free 81 % 2 ^ s.W := rfl

/-- The five configuration registers that are as wide as a value register. -/
theorem resetInput_config : (resetInput s).mod = s.free 80 % 2 ^ s.n ∧ (resetInput s).rr = s.free 82 % 2 ^ s.n ∧
    (resetInput s).rone = s.free 83 % 2 ^ s.n ∧ (resetInput s).ca = s.free 84 % 2 ^ s.n ∧
    (resetInput s).cb = s.free 85 % 2 ^ s.n := ⟨rfl, rfl, rfl, rfl, rfl⟩

/-- After the reset input every register holds a free value of its width. -/
theorem inRange_resetInput (hg : s.geom.legal) : InRange (resetInput s) := by
  obtain ⟨hmod, hrr, hrone, hca, hcb⟩ := resetInput_config (s := s)
  have fits (x k : Nat) : x % 2 ^ k < 2 ^ k := Nat.mod_lt _ (Nat.two_pow_pos k)
  rw [InRange, resetInput_geom]
  refine ⟨hg, ?_⟩
  simp [hmod, hrr, hrone, hca, hcb, fits]

/-- The reset input leaves no fault recorded and nothing committed. -/
theorem inv_resetInput (hg : s.geom.legal) : Invariant (resetInput s) := by
  refine ⟨inRange_resetInput hg, ?err, ?cfgok⟩
  case err => rw [ErrLegal, resetInput_status]; decide
  case cfgok => rw [CfgSound, resetInput_status]; exact nofun

theorem inv_hostEffect (hs : Invariant s) {a : HostAction} (h : HostEffect s a t) : Invariant t := by
  cases h with
  | ignored => exact hs
  | wrote hi hv => exact inv_wrote hs hi hv
  | answered => exact hs
  | issued _ hissue => exact inv_issue hs hissue
  | reset => exact inv_resetInput hs.1.1
end

/-- Settles O56: the effect of every host action keeps the invariant, of an issued command by `Effect`. -/
theorem invariantKeptByEveryStep : Obligations.InvariantKeptByEveryStep := by
  intro s t hs hstep
  obtain ⟨_, rfl⟩ | ⟨a, rest, _, heffect⟩ := step_cases hstep
  · exact hs
  · exact inv_hostEffect (s := { s with hostIn := rest }) hs heffect

/-! ### The life of `CFGOK` -/

section
variable {s t : State}

theorem foot_cfgok {i : Instr} (h : i ≠ .cfg) : (profile i).foot.cfgok = false := by
  cases i with
  | cfg => exact absurd rfl h
  | _ => rfl

/-- No command but `CFG` changes `CFGOK`. -/
theorem effect_cfgok {i : Instr} (hi : i ≠ .cfg) (h : Effect i s t) : t.status.cfgok = s.status.cfgok := by
  cases h with
  | faults e only _ => exact if_neg fun he => hi (only he)
  | completes _ keeps =>
    obtain ⟨_, _, _, _, _, _, hcfgok, _⟩ := keeps.frame
    exact hcfgok (foot_cfgok hi)

/-- `CFG` leaves `CFGOK` 1 exactly over a configuration that passes the checks (48_system.md R331). -/
theorem exec_cfg_cfgok (h : exec .cfg s = .next t) : t.status.cfgok = true ↔ ConfigSound s := by
  cases h
  rw [← configChecks_iff]
  split
  · next hc => simp [hc]
  · next hc => simp [hc]

/-! What a decoded word of each format holds (30_encoding.md R101, R106), and so the one word of `CFG`. -/

theorem form0_eq_ok {unused : List Nat} {imm : Nat} {i j : Instr} :
    form0 unused imm i = .ok j ↔ unused.all (· == 0) = true ∧ imm = 0 ∧ i = j := by
  unfold form0; grind

theorem formK_eq_ok {unused : List Nat} {i j : Instr} :
    formK unused i = .ok j ↔ unused.all (· == 0) = true ∧ i = j := by
  unfold formK; grind

theorem formHW_eq_ok {unused : List Nat} {imm : Nat} {i j : Instr} :
    formHW unused imm i = .ok j ↔ unused.all (· == 0) = true ∧ imm / 16 = 0 ∧ i = j := by
  unfold formHW; grind

theorem decodeFields_eq_cfg {f : Fields} (h : decodeFields f = .ok .cfg) : f = ⟨1, 0, 0, 0, 0⟩ := by
  unfold decodeFields at h
  split at h <;> simp [form0_eq_ok, formK_eq_ok, formHW_eq_ok] at h
  next hop =>
  obtain ⟨⟨hrd, hra, hrb⟩, himm⟩ := h
  cases f; simp_all

theorem decode_eq_cfg {w : Word32} (h : decode w = .ok .cfg) : w = 0x01000000#32 := by
  have hf := decodeFields_eq_cfg h
  simp only [fieldsOf, Fields.mk.injEq] at hf
  obtain ⟨hop, hrd, hra, hrb, himm⟩ := hf
  apply BitVec.eq_of_toNat_eq
  simp only [BitVec.toNat_ofNat]
  omega

/-- An issued word that changes `CFGOK` is the word of `CFG`, which sets it to whether the configuration passes. -/
theorem issue_cfgok {w : Word32} (h : issue w s = .next t) (hne : t.status.cfgok ≠ s.status.cfgok) :
    w = 0x01000000#32 ∧ (t.status.cfgok = true ↔ ConfigSound s) := by
  obtain rfl | rfl | ⟨i, hdecode, hexec, heffect⟩ := issue_cases h
  · exact absurd rfl hne
  · exact absurd rfl hne
  · by_cases hi : i = .cfg
    · subst hi
      exact ⟨decode_eq_cfg hdecode, exec_cfg_cfgok hexec⟩
    · exact absurd (effect_cfgok hi heffect) hne

/-- The three host actions that change `CFGOK`, and to what. -/
theorem hostEffect_cfgok {a : HostAction} (h : HostEffect s a t) (hne : t.status.cfgok ≠ s.status.cfgok) :
    (t.status.cfgok = false ∧ (a = .reset ∨ ∃ sel i v, a = .write sel i v ∧ sel.isConfig = true)) ∨
      ((a = .issue 0x01000000#32 ∨ a = .write .cmd 0 0x01000000) ∧ (t.status.cfgok = true ↔ ConfigSound s)) := by
  cases h with
  | ignored => exact absurd rfl hne
  | answered => exact absurd rfl hne
  | reset => exact .inl ⟨rfl, .inl rfl⟩
  | @wrote sel i v _ _ =>
    by_cases hsel : sel.isConfig = true
    · exact .inl ⟨by simp [hsel], .inr ⟨sel, i, v, rfl, hsel⟩⟩
    · exact absurd (by simp [hsel]) hne
  | issued ha hissue =>
    obtain ⟨rfl, hcfg⟩ := issue_cfgok hissue hne
    exact .inr ⟨ha, hcfg⟩
end

/-- Settles O59: a step that changes `CFGOK` is one of the three host actions that do. -/
theorem configFlagLifetime : Obligations.ConfigFlagLifetime := by
  intro s t hstep
  obtain ⟨_, rfl⟩ | ⟨a, rest, hin, heffect⟩ := step_cases hstep
  · exact ⟨fun h0 h1 => by simp [h0] at h1, fun h1 h0 => by simp [h1] at h0⟩
  · have hchange := hostEffect_cfgok (s := { s with hostIn := rest }) heffect
    constructor
    · intro h0 h1
      obtain ⟨hfalse, _⟩ | ⟨ha, hcfg⟩ := hchange (by simp [h0, h1])
      · simp [h1] at hfalse
      · refine ⟨hcfg.1 h1, rest, ?_⟩
        rw [hin]
        exact ha.imp (fun h => by rw [h]) (fun h => by rw [h])
    · intro h1 h0
      refine ⟨a, rest, hin, ?_⟩
      obtain ⟨_, hreset | hwrite⟩ | ⟨ha, hcfg⟩ := hchange (by simp [h0, h1])
      · exact .inl hreset
      · exact .inr (.inl hwrite)
      · exact .inr (.inr ⟨fun hs => by simp [hcfg.2 hs] at h0, ha⟩)

/-! ### Reset -/

theorem word_reset : Status.reset.word = 0 := by decide

/-- Settles O54: the reset input is a step whatever the state, and it writes `STATUS` and `ERRCMD` as `State.reset` has
them. -/
theorem resetClearsStatus : Obligations.ResetClearsStatus := by
  refine ⟨word_reset, rfl, fun s rest hin => ⟨resetInput { s with hostIn := rest }, ?_, ?_, rfl, rfl, rfl⟩⟩
  · simp only [step, hostStep, hin, hostAct]
  · rw [resetInput_status, word_reset]

end Sys2Proof.Proofs.Steps
end

section
/-!
PROOFS. The word the host reads from `STATUS` (10_state.md R37 to R39, R49 to R51).
-/

namespace Sys2Proof.Proofs.StatusWord

open Sys2Proof.Machine

theorem code_lt (c : Cmp) : c.code < 3 := by cases c <;> decide

variable (q : Status)

/-- The fields of the word, from bit 0 up: `C`, two bits of `CMP`, `T`, `CFGOK`, three zeros, `ERR`. No field runs
into the next, and the word is below `2^16`. -/
theorem word_toNat : q.word.toNat =
    q.c.toNat + 2 * (q.cmp.code + 4 * (q.t.toNat + 2 * (q.cfgok.toNat + 16 * q.err.toNat))) := by
  have hc := Bool.toNat_le q.c
  have hcmp := code_lt q.cmp
  have ht := Bool.toNat_le q.t
  have hcfgok := Bool.toNat_le q.cfgok
  have herr := q.err.isLt
  rw [Status.word, BitVec.toNat_ofNat, Nat.mod_eq_of_lt (by omega)]
  omega

theorem word_bit (k : Nat) : q.word.getLsbD k = decide (q.word.toNat / 2 ^ k % 2 = 1) :=
  Nat.testBit_eq_decide_div_mod_eq

/-- The bit of a word that holds the flag `b`. -/
theorem word_bit_eq {k : Nat} {b : Bool} (h : q.word.toNat / 2 ^ k % 2 = b.toNat) : q.word.getLsbD k = b := by
  rw [word_bit, h]; cases b <;> rfl

/-- Settles O53: each field is read off the sum `word_toNat`, as the fields below it do not reach it. -/
theorem statusWordLayout : Obligations.StatusWordLayout := by
  intro q
  have hword := word_toNat q
  have hc := Bool.toNat_le q.c
  have hcmp := code_lt q.cmp
  have ht := Bool.toNat_le q.t
  have hcfgok := Bool.toNat_le q.cfgok
  have hzero : false.toNat = 0 := rfl
  refine ⟨word_bit_eq q ?_, ?cmp, hcmp.ne, word_bit_eq q ?_, word_bit_eq q ?_, word_bit_eq q ?_, word_bit_eq q ?_,
    word_bit_eq q ?_, ?err⟩
  case cmp =>
    rw [BitVec.toNat_and, BitVec.toNat_ushiftRight, Nat.shiftRight_eq_div_pow]
    change _ &&& (2 ^ 2 - 1) = _
    rw [Nat.and_two_pow_sub_one_eq_mod]
    omega
  case err => rw [BitVec.toNat_ushiftRight, Nat.shiftRight_eq_div_pow]; omega
  all_goals omega

end Sys2Proof.Proofs.StatusWord
end

section
/-!
PROOFS. The curve is closed under the commands that compute a point (46_point.md R300, 47_scalar_mul.md R324), over any
odd modulus: each formula is read in `ZMod M`, where the curve equation of the result is a multiple of those of the
operands.
-/

namespace Sys2Proof.Proofs.Curve

open Sys2Proof.Machine Sys2Proof.Safety

/-! ### Two identities of a commutative ring -/

section
variable {R : Type} [CommRing R]

/-- The doubling formula stays on the curve `y² = x³ + a*x*z⁴ + b*z⁶`. -/
theorem curve_double {a b x y z S T x' : R} (h : y ^ 2 = x ^ 3 + a * x * z ^ 4 + b * z ^ 6)
    (hS : S = 4 * x * y ^ 2) (hT : T = 3 * x ^ 2 + a * z ^ 4) (hx : x' = T ^ 2 - 2 * S) :
    (T * (S - x') - 8 * y ^ 4) ^ 2 =
      x' ^ 3 + a * x' * (2 * y * z) ^ 4 + b * (2 * y * z) ^ 6 := by
  subst hx hS hT
  linear_combination (64 * y ^ 6) * h

/-- The chord through `(A, C)` and `(B, D)` of the curve `Y² = X³ + a*X + b` meets it in a third point; here with the
denominators `E = B - A` cleared, so that it holds for `E = 0` too. -/
theorem curve_chord {a b A B C D E F x : R} (h : C ^ 2 = A ^ 3 + a * A + b) (h' : D ^ 2 = B ^ 3 + a * B + b)
    (hE : E = B - A) (hF : F = D - C) (hx : x = F ^ 2 - 2 * A * E ^ 2 - E ^ 3) :
    (F * (A * E ^ 2 - x) - C * E ^ 3) ^ 2 = x ^ 3 + a * x * E ^ 4 + b * E ^ 6 := by
  obtain rfl : B = A + E := by rw [hE]; ring
  obtain rfl : D = C + F := by rw [hF]; ring
  subst hx
  linear_combination (E ^ 6 - E ^ 3 * (F ^ 2 - 3 * A * E ^ 2 - E ^ 3)) * h +
    E ^ 3 * (F ^ 2 - 3 * A * E ^ 2 - E ^ 3) * h'
end

/-! ### The doubling formula in the residues (R289) -/

section
variable {n M ca : Nat} {P Q : Point}

/-- `S = 4*x*y²` of the doubling formula. -/
def dblS (n M : Nat) (P : Point) : Nat := gMp2 n M (montMul n M P.x (montSq n M P.y)) 2

/-- `T = 3*x² + a*z⁴` of the doubling formula. -/
def dblT (n M ca : Nat) (P : Point) : Nat :=
  gAdd n M (gAdd n M (gAdd n M (montSq n M P.x) (montSq n M P.x)) (montSq n M P.x))
    (montMul n M ca (montSq n M (montSq n M P.z)))

/-- `x' = T² - 2*S` of the doubling formula. -/
def dblX (n M ca : Nat) (P : Point) : Nat :=
  gSub n M (gSub n M (montSq n M (dblT n M ca P)) (dblS n M P)) (dblS n M P)

theorem dbl_eq : dbl n M ca P =
    { x := dblX n M ca P
      y := gSub n M (montMul n M (dblT n M ca P) (gSub n M (dblS n M P) (dblX n M ca P)))
        (gMp2 n M (montSq n M (montSq n M P.y)) 3)
      z := gMp2 n M (montMul n M P.y P.z) 1 } := rfl

section
variable (hn : 2 ≤ n) (h0 : 0 < M) (hM : M < 2 ^ n)
include hn h0 hM

theorem dblS_lt : dblS n M P < M := gMp2_lt hn hM (montMul_lt h0 ..) 2

theorem elt_dblS : elt n M (dblS n M P) = 4 * elt n M P.x * elt n M P.y ^ 2 := by
  rw [dblS, elt_gMp2 hn hM (montMul_lt h0 ..), elt_montMul, elt_montSq]; ring

omit hn in
theorem elt_dblT : elt n M (dblT n M ca P) = 3 * elt n M P.x ^ 2 + elt n M ca * elt n M P.z ^ 4 := by
  have hx := montSq_lt (n := n) h0 P.x
  rw [dblT, elt_gAdd hM (gAdd_lt hM (gAdd_lt hM hx hx) hx) (montMul_lt h0 ..), elt_gAdd hM (gAdd_lt hM hx hx) hx,
    elt_gAdd hM hx hx, elt_montMul, elt_montSq, elt_montSq, elt_montSq]
  ring

theorem dblX_lt : dblX n M ca P < M :=
  gSub_lt hM (gSub_lt hM (montSq_lt h0 _) (dblS_lt hn h0 hM)) (dblS_lt hn h0 hM)

theorem elt_dblX : elt n M (dblX n M ca P) = elt n M (dblT n M ca P) ^ 2 - 2 * elt n M (dblS n M P) := by
  have hS := dblS_lt (P := P) hn h0 hM
  rw [dblX, elt_gSub hM (gSub_lt hM (montSq_lt h0 _) hS) hS, elt_gSub hM (montSq_lt h0 _) hS, elt_montSq]
  ring

theorem dbl_lt : (dbl n M ca P).x < M ∧ (dbl n M ca P).y < M ∧ (dbl n M ca P).z < M := by
  rw [dbl_eq]
  exact ⟨dblX_lt hn h0 hM, gSub_lt hM (montMul_lt h0 ..) (gMp2_lt hn hM (montSq_lt h0 _) 3),
    gMp2_lt hn hM (montMul_lt h0 ..) 1⟩

theorem elt_dbl_y : elt n M (dbl n M ca P).y =
    elt n M (dblT n M ca P) * (elt n M (dblS n M P) - elt n M (dblX n M ca P)) - 8 * elt n M P.y ^ 4 := by
  rw [dbl_eq]
  rw [elt_gSub hM (montMul_lt h0 ..) (gMp2_lt hn hM (montSq_lt h0 _) 3), elt_montMul,
    elt_gSub hM (dblS_lt hn h0 hM) (dblX_lt hn h0 hM), elt_gMp2 hn hM (montSq_lt h0 _), elt_montSq, elt_montSq]
  ring

theorem elt_dbl_z : elt n M (dbl n M ca P).z = 2 * elt n M P.y * elt n M P.z := by
  rw [dbl_eq]
  rw [elt_gMp2 hn hM (montMul_lt h0 ..), elt_montMul]
  ring
end

/-! ### The chord formula in the residues (R284, R285) -/

/-- `x3 = F² - 2*A*E² - E³` of the chord formula. -/
def chordX (n M : Nat) (k : Cross) : Nat :=
  gSub n M (gSub n M (gSub n M (montSq n M (gSub n M k.D k.C)) (montMul n M k.A (montSq n M (gSub n M k.B k.A))))
    (montMul n M k.A (montSq n M (gSub n M k.B k.A)))) (montCube n M (gSub n M k.B k.A))

theorem addInner_eq (k : Cross) : addInner n M P Q k =
    { x := chordX n M k
      y := gSub n M (montMul n M (gSub n M k.D k.C)
          (gSub n M (montMul n M k.A (montSq n M (gSub n M k.B k.A))) (chordX n M k)))
        (montMul n M k.C (montCube n M (gSub n M k.B k.A)))
      z := montMul n M (montMul n M P.z Q.z) (gSub n M k.B k.A) } := rfl

/-- The four cross products are below `M`. -/
structure CrossLt (M : Nat) (k : Cross) : Prop where
  A : k.A < M
  B : k.B < M
  C : k.C < M
  D : k.D < M

theorem abcd_lt (h0 : 0 < M) : CrossLt M (abcd n M P Q) :=
  ⟨montMul_lt h0 .., montMul_lt h0 .., montMul_lt h0 .., montMul_lt h0 ..⟩

theorem elt_abcd :
    elt n M (abcd n M P Q).A = elt n M P.x * elt n M Q.z ^ 2 ∧
    elt n M (abcd n M P Q).B = elt n M Q.x * elt n M P.z ^ 2 ∧
    elt n M (abcd n M P Q).C = elt n M P.y * elt n M Q.z ^ 3 ∧
    elt n M (abcd n M P Q).D = elt n M Q.y * elt n M P.z ^ 3 := by
  simp only [abcd, elt_montMul, elt_montSq, elt_montCube, and_self]

section
variable {k : Cross} (h0 : 0 < M) (hM : M < 2 ^ n)
include h0 hM

theorem chordX_lt : chordX n M k < M :=
  gSub_lt hM (gSub_lt hM (gSub_lt hM (montSq_lt h0 _) (montMul_lt h0 ..)) (montMul_lt h0 ..)) (montCube_lt h0 _)

theorem addInner_lt : (addInner n M P Q k).x < M ∧ (addInner n M P Q k).y < M ∧ (addInner n M P Q k).z < M := by
  rw [addInner_eq]
  exact ⟨chordX_lt h0 hM, gSub_lt hM (montMul_lt h0 ..) (montMul_lt h0 ..), montMul_lt h0 ..⟩

theorem elt_chordX (hk : CrossLt M k) : elt n M (chordX n M k) =
    (elt n M k.D - elt n M k.C) ^ 2 - 2 * elt n M k.A * (elt n M k.B - elt n M k.A) ^ 2 -
      (elt n M k.B - elt n M k.A) ^ 3 := by
  have hF := montSq_lt (n := n) h0 (gSub n M k.D k.C)
  have hG := montMul_lt (n := n) h0 k.A (montSq n M (gSub n M k.B k.A))
  rw [chordX, elt_gSub hM (gSub_lt hM (gSub_lt hM hF hG) hG) (montCube_lt h0 _), elt_gSub hM (gSub_lt hM hF hG) hG,
    elt_gSub hM hF hG, elt_montCube, elt_montMul, elt_montSq, elt_montSq, elt_gSub hM hk.B hk.A, elt_gSub hM hk.D hk.C]
  ring

theorem elt_addInner_y (hk : CrossLt M k) : elt n M (addInner n M P Q k).y =
    (elt n M k.D - elt n M k.C) *
        (elt n M k.A * (elt n M k.B - elt n M k.A) ^ 2 - elt n M (chordX n M k)) -
      elt n M k.C * (elt n M k.B - elt n M k.A) ^ 3 := by
  rw [addInner_eq]
  rw [elt_gSub hM (montMul_lt h0 ..) (montMul_lt h0 ..), elt_montMul, elt_montMul,
    elt_gSub hM (montMul_lt h0 ..) (chordX_lt h0 hM), elt_montMul, elt_montCube, elt_montSq, elt_gSub hM hk.B hk.A,
    elt_gSub hM hk.D hk.C]

omit h0 in
theorem elt_addInner_z (hk : CrossLt M k) : elt n M (addInner n M P Q k).z =
    elt n M P.z * elt n M Q.z * (elt n M k.B - elt n M k.A) := by
  rw [addInner_eq]
  rw [elt_montMul, elt_montMul, elt_gSub hM hk.B hk.A]
end

/-- What `Add(P, Q)` answers unless it is the explicit infinity (47_scalar_mul.md R322). -/
theorem addFull_cases {q : Point} (h : addFull n M ca P Q = some q) :
    (P.z = 0 ∧ q = Q) ∨ (Q.z = 0 ∧ q = P) ∨
      (P.z ≠ 0 ∧ Q.z ≠ 0 ∧ (q = dbl n M ca P ∨ q = addInner n M P Q (abcd n M P Q))) := by
  simp only [addFull, Point.isInf, seqIsZero_eq] at h
  split_ifs at h with hP hQ
  · exact .inl ⟨hP, (Option.some.inj h).symm⟩
  · exact .inr (.inl ⟨hQ, (Option.some.inj h).symm⟩)
  · exact .inr (.inr ⟨hP, hQ, .inl (Option.some.inj h).symm⟩)
  · exact .inr (.inr ⟨hP, hQ, .inr (Option.some.inj h).symm⟩)
end

/-! ### Closure on values -/

section
variable {s : State} {P Q : Point}

theorem onCurve_iff : OnCurve s P ↔ P.z = 0 ∨
    elt s.n s.mod P.y ^ 2 = elt s.n s.mod P.x ^ 3 + elt s.n s.mod s.ca * elt s.n s.mod P.x * elt s.n s.mod P.z ^ 4 +
      elt s.n s.mod s.cb * elt s.n s.mod P.z ^ 6 := .rfl

/-- A point that is on the curve with all its coordinates below `M`, infinite or not. -/
def Sound (s : State) (P : Point) : Prop := Below s P ∧ OnCurve s P

theorem Sound.curvePoint (h : Sound s P) : CurvePoint s P := .inr h

theorem CurvePoint.sound (h : CurvePoint s P) (hb : Below s P) : Sound s P :=
  ⟨hb, h.elim .inl fun h' => h'.2⟩

theorem CurvePoint.sound_of_finite (h : CurvePoint s P) (hz : P.z ≠ 0) : Sound s P := h.resolve_left hz

/-- What a committed configuration gives to the formulas. -/
structure Modulus (n M : Nat) : Prop where
  width : 2 ≤ n
  pos : 0 < M
  lt : M < 2 ^ n
  odd : M % 2 = 1

variable (hs : Configured s)
include hs

theorem modulus : Modulus s.n s.mod := by
  obtain ⟨⟨hrange, _, hsound⟩, hok⟩ := hs
  obtain ⟨hg, _, _, _, _, hmod, _⟩ := hrange
  obtain ⟨hodd, h3, _⟩ := hsound hok
  exact ⟨Nat.le_trans (by decide) (Geometry.legal.le_n hg), by omega, hmod, hodd⟩

/-- A point below `M` whose `z` stands for 0 is infinity. -/
theorem onCurve_of_elt_z {q : Point} (hb : Below s q) (hz : elt s.n s.mod q.z = 0) : OnCurve s q :=
  .inl ((elt_eq_zero (modulus hs).odd hb.2.2).1 hz)

theorem sound_dbl (hP : Sound s P) : Sound s (dbl s.n s.mod s.ca P) := by
  obtain ⟨hn, h0, hM, hodd⟩ := modulus hs
  have hb : Below s (dbl s.n s.mod s.ca P) := dbl_lt hn h0 hM
  refine ⟨hb, ?_⟩
  rcases onCurve_iff.1 hP.2 with hz | hcurve
  · refine onCurve_of_elt_z hs hb ?_
    rw [elt_dbl_z hn h0 hM, hz, elt_zero, mul_zero]
  · refine onCurve_iff.2 (.inr ?_)
    rw [elt_dbl_y hn h0 hM, elt_dbl_z hn h0 hM]
    exact curve_double hcurve (elt_dblS hn h0 hM) (elt_dblT h0 hM) (elt_dblX hn h0 hM)

theorem sound_addInner (hP : Sound s P) (hQ : Sound s Q) :
    Sound s (addInner s.n s.mod P Q (abcd s.n s.mod P Q)) := by
  obtain ⟨_, h0, hM, hodd⟩ := modulus hs
  have hk := abcd_lt (n := s.n) (P := P) (Q := Q) h0
  have hb : Below s (addInner s.n s.mod P Q (abcd s.n s.mod P Q)) := addInner_lt h0 hM
  have hz := elt_addInner_z (P := P) (Q := Q) hM hk
  refine ⟨hb, ?_⟩
  rcases onCurve_iff.1 hP.2 with hPz | hPcurve
  · exact onCurve_of_elt_z hs hb (by rw [hz, hPz, elt_zero, zero_mul, zero_mul])
  rcases onCurve_iff.1 hQ.2 with hQz | hQcurve
  · exact onCurve_of_elt_z hs hb (by rw [hz, hQz, elt_zero, mul_zero, zero_mul])
  refine onCurve_iff.2 (.inr ?_)
  obtain ⟨hA, hB, hC, hD⟩ := elt_abcd (n := s.n) (M := s.mod) (P := P) (Q := Q)
  have hchord := curve_chord (a := elt s.n s.mod s.ca * (elt s.n s.mod P.z * elt s.n s.mod Q.z) ^ 4)
    (b := elt s.n s.mod s.cb * (elt s.n s.mod P.z * elt s.n s.mod Q.z) ^ 6)
    (C := elt s.n s.mod (abcd s.n s.mod P Q).C) (D := elt s.n s.mod (abcd s.n s.mod P Q).D)
    (by rw [hA, hC]; linear_combination elt s.n s.mod Q.z ^ 6 * hPcurve)
    (by rw [hB, hD]; linear_combination elt s.n s.mod P.z ^ 6 * hQcurve)
    rfl rfl (elt_chordX h0 hM hk)
  rw [elt_addInner_y h0 hM hk, hz, hchord, addInner_eq]
  ring

theorem curvePoint_addFull {q : Point} (hP : CurvePoint s P) (hQ : CurvePoint s Q)
    (h : addFull s.n s.mod s.ca P Q = some q) : CurvePoint s q := by
  obtain ⟨_, rfl⟩ | ⟨_, rfl⟩ | ⟨hPz, hQz, rfl | rfl⟩ := addFull_cases h
  · exact hQ
  · exact hP
  · exact (sound_dbl hs (CurvePoint.sound_of_finite hP hPz)).curvePoint
  · exact (sound_addInner hs (CurvePoint.sound_of_finite hP hPz) (CurvePoint.sound_of_finite hQ hQz)).curvePoint

theorem sound_addFull {q : Point} (hP : Sound s P) (hQ : Sound s Q)
    (h : addFull s.n s.mod s.ca P Q = some q) : Sound s q := by
  obtain ⟨_, rfl⟩ | ⟨_, rfl⟩ | ⟨_, _, rfl | rfl⟩ := addFull_cases h
  · exact hQ
  · exact hP
  · exact sound_dbl hs hP
  · exact sound_addInner hs hP hQ

/-- The accumulator of the scalar multiplication is infinity or a point on the curve, at every step of the loop. -/
theorem sound_smulStep (hP : Sound s P) (bit : Bool) {acc : Option Point} (hacc : ∀ q ∈ acc, Sound s q) :
    ∀ q ∈ smulStep s.n s.mod s.ca P bit acc, Sound s q := by
  cases acc with
  | none => cases bit <;> simp [smulStep, hP]
  | some a =>
    have hdbl := sound_dbl hs (hacc a rfl)
    cases bit with
    | false => simpa [smulStep] using hdbl
    | true => exact fun q hq => sound_addFull hs hdbl hP hq

theorem sound_smulLoop (hP : Sound s P) (k : Nat) : ∀ (i : Nat) {acc : Option Point}, (∀ q ∈ acc, Sound s q) →
    ∀ q ∈ smulLoop s.n s.mod s.ca P k acc i, Sound s q
  | 0, _, hacc => hacc
  | i + 1, _, hacc => sound_smulLoop hP k i (sound_smulStep hs hP _ hacc)

theorem sound_smul (hP : Sound s P) (k : Nat) : ∀ q ∈ smul s.n s.mod s.ca P k, Sound s q := by
  unfold smul
  split
  · exact nofun
  · exact sound_smulLoop hs hP k _ (by simpa using hP)

/-- The negative of a point on the curve: `(-y)² = y²`. -/
theorem sound_neg (hP : Sound s P) : Sound s { P with y := gNeg s.n s.mod P.y } := by
  obtain ⟨_, _, hM, _⟩ := modulus hs
  obtain ⟨⟨hx, hy, hz⟩, hcurve⟩ := hP
  refine ⟨⟨hx, gNeg_lt hM hy, hz⟩, onCurve_iff.2 ((onCurve_iff.1 hcurve).imp_right fun h => ?_)⟩
  rw [elt_gNeg hM hy, neg_sq, h]

/-! ### The commands -/

theorem coordsOk_iff : s.coordsOk P = true ↔ Below s P := by
  have hsound : s.configChecks = true := (configChecks_iff s).2 (hs.1.2.2 hs.2)
  simp [State.coordsOk, hsound]

/-- A point the group law is about is inside the contract of the commands. -/
theorem pointOk_of_curvePoint (hP : CurvePoint s P) : s.pointOk P = true := by
  rw [State.pointOk, Bool.or_eq_true, coordsOk_iff hs, Point.isInf, seqIsZero_eq]
  exact hP.imp_right fun h => h.1

/-- Writing a point to a register keeps a point the group law is about as it is, but for the `x` and `y` of infinity. -/
theorem curvePoint_stored (hP : CurvePoint s P) :
    CurvePoint s ⟨P.x % 2 ^ s.n, P.y % 2 ^ s.n, P.z % 2 ^ s.n⟩ := by
  have hM := (modulus hs).lt
  rcases hP with hz | ⟨⟨hx, hy, hz⟩, hcurve⟩
  · exact .inl (by rw [hz, Nat.zero_mod])
  · rw [Nat.mod_eq_of_lt (hx.trans hM), Nat.mod_eq_of_lt (hy.trans hM), Nat.mod_eq_of_lt (hz.trans hM)]
    exact .inr ⟨⟨hx, hy, hz⟩, hcurve⟩

/-- What a command that writes a whole point of the group law leaves in its destination. -/
theorem curvePoint_writeP (hP : CurvePoint s P) (rd : Reg) : CurvePoint s ((s.writeP rd P).readP rd) := by
  rw [State.writeP_readP_same]; exact curvePoint_stored hs hP

variable (rd ra rb ws : Reg)

theorem closed_pneg (hP : CurvePoint s (s.readP ra)) :
    ∃ t, exec (.pneg rd ra) s = .next t ∧ CurvePoint s (t.readP rd) := by
  refine ⟨_, requireCfg_on hs.2, curvePoint_writeP hs ?_ rd⟩
  rw [if_pos (pointOk_of_curvePoint hs hP)]
  rcases hP with hz | hfinite
  · exact .inl hz
  · rw [if_pos hfinite.1.2.1]
    exact (sound_neg hs hfinite).curvePoint

theorem closed_pdbl (hw : ws.val + 2 ≤ 16) (hP : CurvePoint s (s.readP ra)) :
    ∃ t, exec (.pdbl rd ra ws) s = .next t ∧ CurvePoint s (t.readP rd) := by
  refine ⟨_, require_both hs.2 ⟨hw, by simp⟩, curvePoint_writeP hs ?_ rd⟩
  split_ifs with hb hz
  · exact (sound_dbl hs (CurvePoint.sound hP ((coordsOk_iff hs).1 hb))).curvePoint
  · exact .inl rfl
  · rcases hP with h | h
    · exact absurd ((seqIsZero_eq _).2 h) hz
    · exact absurd ((coordsOk_iff hs).2 h.1) hb

theorem closed_paddd (hw : ws.val + 5 ≤ 16) (hP : CurvePoint s (s.readP ra)) (hQ : CurvePoint s (s.readP rb)) :
    ∃ t, exec (.paddd rd ra rb ws) s = .next t ∧ CurvePoint s (t.readP rd) := by
  refine ⟨_, require_both hs.2 ⟨hw, by simp⟩, curvePoint_writeP hs ?_ rd⟩
  split_ifs with hb hok
  · rw [Bool.and_eq_true, coordsOk_iff hs, coordsOk_iff hs] at hb
    exact (sound_addInner hs (CurvePoint.sound hP hb.1) (CurvePoint.sound hQ hb.2)).curvePoint
  · exact .inl rfl
  · exact absurd (by rw [pointOk_of_curvePoint hs hP, pointOk_of_curvePoint hs hQ]; rfl) hok

theorem closed_padd (hw : ws.val + 5 ≤ 16) (hP : CurvePoint s (s.readP ra)) (hQ : CurvePoint s (s.readP rb)) :
    ∃ t, exec (.padd rd ra rb ws) s = .next t ∧ CurvePoint s (t.readP rd) := by
  refine ⟨_, require_both hs.2 ⟨hw, by simp⟩, ?_⟩
  rw [if_pos (by rw [pointOk_of_curvePoint hs hP, pointOk_of_curvePoint hs hQ]; rfl), State.scratch_readP,
    State.tookDraws_readP]
  split
  · exact .inl (by simp [State.writePz_readP])
  · next r hr => exact curvePoint_writeP hs (curvePoint_addFull hs hP hQ hr) rd

theorem closed_psmul (hw : WindowGood ws 5 [rb]) (hP : CurvePoint s (s.readP ra)) :
    ∃ t, exec (.psmul rd ra rb ws) s = .next t ∧ CurvePoint s (t.readP rd) := by
  refine ⟨_, require_both hs.2 hw, curvePoint_writeP hs ?_ rd⟩
  rw [if_pos (pointOk_of_curvePoint hs hP)]
  split
  · exact .inl rfl
  next hfinite =>
  have hz : (s.readP ra).z ≠ 0 := fun h => hfinite (by simp [Point.isInf, seqIsZero, h])
  split
  · exact .inl rfl
  · next q hq =>
    split
    · exact .inl rfl
    · exact (sound_smul hs (CurvePoint.sound_of_finite hP hz) _ q hq).curvePoint
end

/-- Settles O49: the formulas of the five commands stay on the curve, by the identities `curve_double` and
`curve_chord`. -/
theorem curveClosedUnderPointCommands : Obligations.CurveClosedUnderPointCommands :=
  fun rd ra rb ws _ hs hP =>
    ⟨closed_pneg hs rd ra hP, fun hw => closed_pdbl hs rd ra ws hw hP,
      fun hw hQ => ⟨closed_paddd hs rd ra rb ws hw hP hQ, closed_padd hs rd ra rb ws hw hP hQ⟩,
      fun hw => closed_psmul hs rd ra rb ws hw hP⟩

end Sys2Proof.Proofs.Curve
end

section
/-!
PROOFS. The limb procedures of 41_limbseq.md compute on values: the compare (R152), the bit length and the zero test
(R165).
-/

namespace Sys2Proof.Proofs.LimbProcedures

open Sys2Proof.Machine

section
variable {W : Nat}

/-- `W` bits below a value that is not 0 make it `W` bits longer. -/
theorem bitLength_add_mul {a h : Nat} (ha : a < 2 ^ W) (hh : h ≠ 0) :
    bitLength (a + 2 ^ W * h) = W + bitLength h := by
  have hpos : 0 < 2 ^ W * h := Nat.mul_pos (Nat.two_pow_pos W) (Nat.pos_of_ne_zero hh)
  have hlog : Nat.log2 (a + 2 ^ W * h) = W + Nat.log2 h := by
    rw [Nat.log2_eq_iff (by omega), Nat.add_assoc, pow_add, pow_add]
    constructor
    · exact Nat.le_add_left_of_le (Nat.mul_le_mul_left _ (Nat.log2_self_le hh))
    · calc a + 2 ^ W * h < 2 ^ W * (h + 1) := by rw [mul_add]; omega
        _ ≤ 2 ^ W * 2 ^ (Nat.log2 h + 1) := Nat.mul_le_mul_left _ Nat.lt_log2_self
  rw [bitLength_pos (by omega), bitLength_pos hh, hlog, Nat.add_assoc]

/-- In a limb, the position that the leading zeros leave is the bit length. -/
theorem sub_clz {a : Nat} (ha : a < 2 ^ W) : W - clz W a = bitLength a := by
  rw [clz, Nat.sub_sub_self (bitLength_le ha)]

theorem ofLimbs_eq_zero {xs : List Nat} : ofLimbs W xs = 0 ↔ ∀ x ∈ xs, x = 0 := by
  induction xs with
  | nil => simp [ofLimbs]
  | cons x xs ih => simp [ofLimbs, ih]

/-- The limb formula of `SeqMsb`, on the limbs from index `j` up, is their bit length moved up by `j` limbs. -/
theorem msbLimbs_eq {xs : List Nat} (hx : ∀ x ∈ xs, x < 2 ^ W) (j : Nat) :
    msbLimbs W j xs = if ofLimbs W xs = 0 then 0 else j * W + bitLength (ofLimbs W xs) := by
  induction xs generalizing j with
  | nil => rfl
  | cons a as ih =>
    have ha : a < 2 ^ W := hx a (by simp)
    rw [msbLimbs, ih (fun x h => hx x (by simp [h])), ofLimbs]
    by_cases hrest : ofLimbs W as = 0
    · simp [hrest, sub_clz ha]
    · have hlen : bitLength (ofLimbs W as) ≠ 0 := by rw [bitLength_pos hrest]; exact Nat.succ_ne_zero _
      simp [hrest, hlen, bitLength_add_mul ha hrest, Nat.succ_mul, Nat.add_assoc]

/-- A value that fits `N` limbs is the value of its `N` limbs. -/
theorem ofLimbs_toLimbs_of_lt {N v : Nat} (hv : v < 2 ^ (N * W)) : ofLimbs W (toLimbs W N v) = v := by
  rw [ofLimbs_toLimbs, Nat.mod_eq_of_lt hv]
end

/-- Settles O23: each limb procedure is a function of the value of the limbs. -/
theorem compareAndMsbByLimbs : Obligations.CompareAndMsbByLimbs := by
  intro W N a b ha hb
  have hva := ofLimbs_toLimbs_of_lt ha
  refine ⟨?compare, ?msb, ?zero⟩
  case compare =>
    rw [cmpLimbs_spec (W := W) _ _ (by simp) (fun _ => mem_toLimbs_lt) (fun _ => mem_toLimbs_lt), hva,
      ofLimbs_toLimbs_of_lt hb]
  case msb =>
    rw [msbLimbs_eq (fun _ => mem_toLimbs_lt), hva, seqMsb]
    split
    · next h => rw [h, bitLength_zero]
    · rw [Nat.zero_mul, Nat.zero_add]
  case zero => rw [seqIsZero_eq, ← ofLimbs_eq_zero (W := W), hva]

end Sys2Proof.Proofs.LimbProcedures
end

section
/-!
PROOFS. The host's accesses (20_memory.md R70 to R74, R78 to R81): what each access does, one lemma per case, and what
every element of the register space holds, also after a write.
-/

namespace Sys2Proof.Proofs.HostAccess

open Sys2Proof.Machine Sys2Proof.Safety

section
variable {s : State}

/-! ### The step and the issue (R74, R81) -/

theorem step_cons {a : HostAction} {rest : List HostAction} (h : s.hostIn = a :: rest) :
    step s = hostAct a { s with hostIn := rest } := by rw [step, hostStep, h]

theorem issue_decoded {w : Word32} {i : Instr} (hdecode : decode w = .ok i) (herr : s.status.err = 0) :
    issue w s = exec i s := by rw [issue, if_neg (fun h => h.1 herr), hdecode]

/-! ### The cases of a host write (R71, R78; log entries 7 and 8) -/

section
variable {sel : Sel} {i v : Nat}

theorem hostWrite_ignored (h : sel.readOnly = true ∨ sel.limbs s.geom.N ≤ i) : hostWrite sel i v s = .next s :=
  if_pos (by simpa using h)

theorem hostWrite_legal (hro : sel.readOnly = false) (hi : i < sel.limbs s.geom.N) : hostWrite sel i v s =
    if 2 ^ sel.width s.W ≤ v then .refused .hostAccessWidth
    else if sel = .cmd then issue (BitVec.ofNat 32 v) s
    else .next (if sel.isConfig then (s.putLimb sel i v).setCfgok false else s.putLimb sel i v) :=
  if_neg (by simp [hro, hi])

theorem hostWrite_tooWide (hro : sel.readOnly = false) (hi : i < sel.limbs s.geom.N) (hv : 2 ^ sel.width s.W ≤ v) :
    hostWrite sel i v s = .refused .hostAccessWidth := by rw [hostWrite_legal hro hi, if_pos hv]

theorem hostWrite_cmd (w : Word32) : hostWrite .cmd 0 w.toNat s = issue w s := by
  have hfits : ¬ 2 ^ Sel.cmd.width s.W ≤ w.toNat := Nat.not_le.2 w.isLt
  rw [hostWrite_legal rfl Nat.one_pos, if_neg hfits, if_pos rfl, BitVec.ofNat_toNat, BitVec.setWidth_eq]

theorem hostWrite_register (hro : sel.readOnly = false) (hcmd : sel ≠ .cmd) (hi : i < sel.limbs s.geom.N)
    (hv : v < 2 ^ sel.width s.W) : hostWrite sel i v s =
      .next (if sel.isConfig then (s.putLimb sel i v).setCfgok false else s.putLimb sel i v) := by
  rw [hostWrite_legal hro hi, if_neg (Nat.not_le.2 hv), if_neg hcmd]

/-! ### The cases of a host read (R72; log entry 8) -/

theorem hostRead_some (h : s.element sel i = some v) :
    hostRead sel i s = .next { s with hostOut := s.hostOut ++ [v] } := by rw [hostRead, h]

theorem hostRead_none (h : s.element sel i = none) : hostRead sel i s = .fault .noSuchElement := by rw [hostRead, h]

/-! ### What an element holds (R70, R72) -/

theorem element_of_regValue {x : Nat} (hi : i < sel.limbs s.geom.N) (hx : s.regValue sel = some x) :
    s.element sel i = some (limbOf (sel.width s.W) x i) := by rw [State.element, if_pos hi, hx, Option.map_some]

theorem element_illegal (hi : sel.limbs s.geom.N ≤ i) : s.element sel i = none := if_neg (Nat.not_lt.2 hi)

theorem element_cmd : s.element .cmd i = none := by rw [State.element]; split <;> rfl

/-- The element of a register of one element is the register. -/
theorem element_single {x : Nat} (hi : 0 < sel.limbs s.geom.N) (hx : s.regValue sel = some x)
    (hfits : x < 2 ^ sel.width s.W) : s.element sel 0 = some x := by
  rw [element_of_regValue hi hx, limbOf_self hfits]

theorem regValue_eq_some (h : sel ≠ .cmd) : ∃ x, s.regValue sel = some x := by
  cases sel with
  | cmd => exact absurd rfl h
  | _ => exact ⟨_, rfl⟩

/-- Every register but the three of 32 bits is made of limbs of `W` bits. -/
theorem width_eq (hro : sel.readOnly = false) (hcmd : sel ≠ .cmd) (W : Nat) : sel.width W = W := by
  cases sel with
  | status | errcmd => cases hro
  | cmd => exact absurd rfl hcmd
  | _ => rfl

/-! ### What a write of one limb leaves unchanged -/

@[simp] theorem putLimb_geom : (s.putLimb sel i v).geom = s.geom := by cases sel <;> rfl

@[simp] theorem putLimb_W : (s.putLimb sel i v).W = s.W := by rw [State.W, State.W, putLimb_geom]

@[simp] theorem putLimb_hostIn : (s.putLimb sel i v).hostIn = s.hostIn := by cases sel <;> rfl

@[simp] theorem putLimb_hostOut : (s.putLimb sel i v).hostOut = s.hostOut := by cases sel <;> rfl

/-- What is read of a register of a file after a write to it or to another one: as before, unless the write changes
just that. -/
theorem proj_set {α β : Type} (g : α → β) (regs : Vector α 16) {k r : Reg} {x : α} (h : r = k → g x = g regs[k]) :
    g (regs.set k x)[r] = g regs[r] := by
  rw [Fin.getElem_fin, Vector.getElem_set]
  split
  · next heq => obtain rfl : r = k := Fin.ext heq.symm; exact h rfl
  · rfl

/-- A write of one limb keeps every register but the one it names. -/
theorem regValue_putLimb_other {sel' : Sel} (hne : sel' ≠ sel) :
    (s.putLimb sel i v).regValue sel' = s.regValue sel' := by
  have other {c : Reg → Sel} {r k : Reg} (h : c r ≠ c k) : r ≠ k := fun e => h (congrArg c e)
  cases sel with
  | l k =>
    cases sel' with
    | l r => exact proj_set some s.l fun e => absurd e (other hne)
    | _ => rfl
  | f k =>
    cases sel' with
    | f r => exact proj_set some s.f fun e => absurd e (other hne)
    | _ => rfl
  | px k =>
    cases sel' with
    | px r => exact proj_set (fun P : Point => some P.x) s.p fun e => absurd e (other hne)
    | py r => exact proj_set (fun P : Point => some P.y) s.p fun _ => rfl
    | pz r => exact proj_set (fun P : Point => some P.z) s.p fun _ => rfl
    | _ => rfl
  | py k =>
    cases sel' with
    | px r => exact proj_set (fun P : Point => some P.x) s.p fun _ => rfl
    | py r => exact proj_set (fun P : Point => some P.y) s.p fun e => absurd e (other hne)
    | pz r => exact proj_set (fun P : Point => some P.z) s.p fun _ => rfl
    | _ => rfl
  | pz k =>
    cases sel' with
    | px r => exact proj_set (fun P : Point => some P.x) s.p fun _ => rfl
    | py r => exact proj_set (fun P : Point => some P.y) s.p fun _ => rfl
    | pz r => exact proj_set (fun P : Point => some P.z) s.p fun e => absurd e (other hne)
    | _ => rfl
  | status | errcmd | cmd => rfl
  | mod =>
    cases sel' with
    | mod => exact absurd rfl hne
    | _ => rfl
  | mprime =>
    cases sel' with
    | mprime => exact absurd rfl hne
    | _ => rfl
  | rr =>
    cases sel' with
    | rr => exact absurd rfl hne
    | _ => rfl
  | rone =>
    cases sel' with
    | rone => exact absurd rfl hne
    | _ => rfl
  | ca =>
    cases sel' with
    | ca => exact absurd rfl hne
    | _ => rfl
  | cb =>
    cases sel' with
    | cb => exact absurd rfl hne
    | _ => rfl

/-- A write of one limb sets that limb of the register it names and keeps the others; a register of one limb is that
limb. -/
theorem regValue_putLimb_same (hs : InRange s) (hro : sel.readOnly = false) (hi : i < sel.limbs s.geom.N) :
    (s.putLimb sel i v).regValue sel = (s.regValue sel).map fun x => setLimb s.W x i v := by
  obtain ⟨_, hl, _, _, hmprime, _⟩ := hs
  have single {x : Nat} (hx : x < 2 ^ s.W) (h0 : i < 1) : v = setLimb s.W x i v := by
    obtain rfl : i = 0 := Nat.lt_one_iff.1 h0
    simp [setLimb, Nat.div_eq_of_lt hx, Nat.mod_one]
  cases sel with
  | l k => exact congrArg some ((Vector.getElem_set_self k.isLt).trans (single (hl k) hi))
  | mprime => exact congrArg some (single hmprime hi)
  | f k => exact congrArg some (Vector.getElem_set_self k.isLt)
  | px k => exact congrArg (fun P : Point => some P.x) (Vector.getElem_set_self k.isLt)
  | py k => exact congrArg (fun P : Point => some P.y) (Vector.getElem_set_self k.isLt)
  | pz k => exact congrArg (fun P : Point => some P.z) (Vector.getElem_set_self k.isLt)
  | mod | rr | rone | ca | cb | cmd => rfl
  | status | errcmd => cases hro

/-- Every element after a write: the one written is the value, every other one is as before (R71). -/
theorem element_putLimb (hs : InRange s) (hro : sel.readOnly = false) (hcmd : sel ≠ .cmd)
    (hi : i < sel.limbs s.geom.N) (hv : v < 2 ^ sel.width s.W) (sel' : Sel) (j : Nat) :
    (s.putLimb sel i v).element sel' j = if (sel', j) = (sel, i) then some v else s.element sel' j := by
  by_cases hsel : sel' = sel
  · subst hsel
    rw [width_eq hro hcmd] at hv
    obtain ⟨x, hx⟩ := regValue_eq_some (s := s) hcmd
    rw [State.element, State.element, putLimb_geom, putLimb_W, regValue_putLimb_same hs hro hi, hx,
      width_eq hro hcmd]
    simp only [Option.map_some, limbOf_setLimb hv, Prod.mk.injEq, true_and]
    by_cases hj : j = i
    · rw [if_pos hj, if_pos hj, if_pos (hj ▸ hi)]
    · rw [if_neg hj, if_neg hj]
  · rw [if_neg fun h => hsel (Prod.mk.inj h).1, State.element, State.element, putLimb_geom, putLimb_W,
      regValue_putLimb_other hsel]

/-- `CFGOK` shows in no element but `STATUS`. -/
theorem element_setCfgok {b : Bool} (h : sel ≠ .status) : (s.setCfgok b).element sel i = s.element sel i := by
  cases sel with
  | status => exact absurd rfl h
  | _ => rfl

/-! ### Physical accesses (R78, R80; log entries 8 and 26) -/

/-- Under a map that gives every element its own address, the element at that address is found there. -/
theorem elementAt_own {m : HostMap} {N : Nat} (hm : m.Proper N) (hi : i < sel.limbs N) :
    m.elementAt N (m sel i) = some (sel, i) := by
  obtain ⟨e, he, hlegal, haddr⟩ | ⟨_, hnone⟩ := m.elementAt_cases N (m sel i)
  · have heq : e = (sel, i) :=
      List.inj_on_of_nodup_map hm (mem_hostElements.2 hlegal) (mem_hostElements.2 hi) haddr
    rw [he, heq]
  · exact absurd rfl (hnone sel i hi)

theorem busTo_own {m : HostMap} {b : BusAccess} (hm : m.Proper s.geom.N) (hi : i < sel.limbs s.geom.N)
    (hb : b.addr = m sel i) : busTo m b s =
      if b.bits = sel.width s.W ∧ m sel i % (b.bits / 8) = 0
      then .next { s with hostIn := s.hostIn ++ [b.actionOn (sel, i)] } else .refused .notAlignedWord := by
  have haligned : b.alignedWord (sel.width s.W) = true ↔ b.bits = sel.width s.W ∧ m sel i % (b.bits / 8) = 0 := by
    rw [BusAccess.alignedWord, Bool.and_eq_true, beq_iff_eq, beq_iff_eq, hb]
    exact and_congr_right fun h => by rw [h]
  simp only [busTo, hb, elementAt_own hm hi, haligned]

theorem busTo_nowhere {m : HostMap} {b : BusAccess}
    (h : ∀ sel' j, j < sel'.limbs s.geom.N → m sel' j ≠ b.addr) : busTo m b s = .refused .noElementAt := by
  obtain ⟨e, _, hlegal, haddr⟩ | ⟨hnone, _⟩ := m.elementAt_cases s.geom.N b.addr
  · exact absurd haddr (h e.1 e.2 hlegal)
  · rw [busTo, hnone]
end
end

/-! ### The statements -/

/-- Settles O5: both host actions come to `issue`, and `issue` of a decoded word to `exec`. -/
theorem stepRunsIssuedCommand : Obligations.StepRunsIssuedCommand := by
  intro w s rest hin
  have hstep : step s = issue w { s with hostIn := rest } := by
    obtain h | h := hin
    · exact step_cons h
    · exact (step_cons h).trans (hostWrite_cmd w)
  exact ⟨hstep, fun i hdecode herr => hstep.trans (issue_decoded hdecode herr)⟩

/-- Settles O57: the cases of a host write, and `element_putLimb` for what the elements hold after one. -/
theorem hostWriteSetsOneElement : Obligations.HostWriteSetsOneElement := by
  intro s sel i v rest hs hin
  have hstep := step_cons hin
  refine ⟨fun hno => hstep.trans (hostWrite_ignored hno), fun hro hcmd hi hv => ?_⟩
  have helement := element_putLimb (s := { s with hostIn := rest }) hs.1 hro hcmd hi hv
  have hnotStatus : sel ≠ .status := fun h => by simp [h, Sel.readOnly] at hro
  refine ⟨_, hstep.trans (hostWrite_register hro hcmd hi hv), ?_⟩
  split
  · next hcfg =>
    refine ⟨?_, fun sel' j hstatus hne => ?_, by simp [hcfg], by simp, by simp, by simp⟩
    · rw [element_setCfgok hnotStatus, helement, if_pos rfl]
    · rw [element_setCfgok hstatus, helement, if_neg hne]; rfl
  · next hcfg =>
    refine ⟨?_, fun sel' j _ hne => ?_, by simp [hcfg], by simp, by simp, by simp⟩
    · rw [helement, if_pos rfl]
    · rw [helement, if_neg hne]; rfl

/-- Settles O58: the element of each selector is read off its register; the lookup at an address, the cases of a read
and the width check of a write give the rest. -/
theorem hostReadReturnsElement : Obligations.HostReadReturnsElement := by
  intro s sel i v bits rest
  refine ⟨?elements, element_illegal, fun m hm => ⟨?own, ?misfit, ?nowhere⟩, fun hin => ⟨?found, ?absent⟩, ?tooWide⟩
  case elements =>
    rintro ⟨_, hl, _, _, hmprime, _⟩
    have limb {c : Sel} {x j : Nat} (hx : s.regValue c = some x) (hj : j < c.limbs s.geom.N) :=
      element_of_regValue hj hx
    exact ⟨fun k => element_single Nat.one_pos rfl (hl k),
      fun k j hj => ⟨limb rfl hj, limb rfl hj, limb rfl hj, limb rfl hj⟩,
      fun j hj => ⟨limb rfl hj, limb rfl hj, limb rfl hj, limb rfl hj, limb rfl hj⟩,
      element_single Nat.one_pos rfl hmprime, element_single Nat.one_pos rfl s.status.word.isLt,
      element_single Nat.one_pos rfl s.errcmd.isLt, element_cmd⟩
  case own =>
    intro hi hword
    exact ⟨(busTo_own hm hi rfl).trans (if_pos hword), (busTo_own hm hi rfl).trans (if_pos hword)⟩
  case misfit =>
    intro hi hword
    exact ⟨(busTo_own hm hi rfl).trans (if_neg hword), (busTo_own hm hi rfl).trans (if_neg hword)⟩
  case nowhere => exact fun a ha => ⟨busTo_nowhere ha, busTo_nowhere ha⟩
  case found => exact fun h => (step_cons hin).trans (hostRead_some h)
  case absent => exact fun h => (step_cons hin).trans (hostRead_none h)
  case tooWide => exact fun hin hro hi hv => (step_cons hin).trans (hostWrite_tooWide hro hi hv)

end Sys2Proof.Proofs.HostAccess
end

section
/-!
PROOFS. The command words (30_encoding.md R100 to R106): the decoder and the encoder follow the opcode table, row by row;
from it, what decodes, to which command, and that decoding and encoding undo each other.
-/

namespace Sys2Proof.Proofs.Encoding

open Sys2Proof.Machine Sys2Proof.Safety Sys2Proof.Proofs.Steps

/-! ### The fields of a word (30_encoding.md R100) -/

/-- The `m` bits of a word from bit `k` up, as `Row.Matches` and as `fieldsOf` cut them out. -/
theorem bits_eq_zero_iff (w : Word32) (k m : Nat) (hm : m < 32) :
    (w >>> k) &&& BitVec.ofNat 32 (2 ^ m - 1) = 0 ↔ w.toNat / 2 ^ k % 2 ^ m = 0 := by
  have hfits : 2 ^ m - 1 < 2 ^ 32 := (Nat.sub_le ..).trans_lt (Nat.pow_lt_pow_right (by decide) hm)
  rw [← BitVec.toNat_inj, BitVec.toNat_and, BitVec.toNat_ushiftRight, Nat.shiftRight_eq_div_pow, BitVec.toNat_ofNat,
    Nat.mod_eq_of_lt hfits, Nat.and_two_pow_sub_one_eq_mod]
  rfl

/-- The mask `0xFF0` has no low bits, so the masked word is 0 exactly when its bits from 4 up are. -/
theorem immHigh_eq_zero_iff (w : Word32) : w &&& 0xFF0#32 = 0 ↔ w.toNat % 2 ^ 12 / 16 = 0 := by
  have hlow : (w.toNat &&& 0xFF0) % 2 ^ 4 = 0 := by
    rw [Nat.and_mod_two_pow]; exact Nat.and_zero _
  have hhigh : (w.toNat &&& 0xFF0) / 2 ^ 4 = w.toNat / 2 ^ 4 % 2 ^ 8 := by
    rw [Nat.and_div_two_pow]; exact Nat.and_two_pow_sub_one_eq_mod _ 8
  rw [← BitVec.toNat_inj, BitVec.toNat_and]
  change w.toNat &&& 0xFF0 = 0 ↔ _
  omega

/-- The word with the given fields. -/
def word (f : Fields) : Word32 := pack f.op (regOf f.rd) (regOf f.ra) (regOf f.rb) f.imm

theorem word_fieldsOf (w : Word32) : word (fieldsOf w) = w := by
  have hw := w.isLt
  apply BitVec.eq_of_toNat_eq
  simp only [word, pack, fieldsOf, regOf, BitVec.toNat_ofNat]
  omega

theorem imm_fieldsOf_lt (w : Word32) : (fieldsOf w).imm < 4096 := Nat.mod_lt _ (by decide)

/-! ### The rows of the opcode table (R101, R104, R106) -/

/-- The row's format admits the fields, whatever `op` is: R106 (b) to (d). -/
structure Admits (r : Row) (f : Fields) : Prop where
  rd : r.rd = false → f.rd = 0
  ra : r.ra = false → f.ra = 0
  rb : r.rb = false → f.rb = 0
  zero : r.imm = .zero → f.imm = 0
  index : r.imm = .index → f.imm / 16 = 0

theorem matches_iff (r : Row) (w : Word32) : r.Matches w ↔ (fieldsOf w).op = r.op ∧ Admits r (fieldsOf w) := by
  have hop : (w >>> 24).toNat = (fieldsOf w).op := by
    rw [BitVec.toNat_ushiftRight, Nat.shiftRight_eq_div_pow]; rfl
  have hrd : (w >>> 20) &&& 0xF#32 = 0 ↔ (fieldsOf w).rd = 0 := bits_eq_zero_iff w 20 4 (by decide)
  have hra : (w >>> 16) &&& 0xF#32 = 0 ↔ (fieldsOf w).ra = 0 := bits_eq_zero_iff w 16 4 (by decide)
  have hrb : (w >>> 12) &&& 0xF#32 = 0 ↔ (fieldsOf w).rb = 0 := bits_eq_zero_iff w 12 4 (by decide)
  have himm : w &&& 0xFFF#32 = 0 ↔ (fieldsOf w).imm = 0 := by
    simpa [fieldsOf] using bits_eq_zero_iff w 0 12 (by decide)
  have hhigh : w &&& 0xFF0#32 = 0 ↔ (fieldsOf w).imm / 16 = 0 := immHigh_eq_zero_iff w
  rw [Row.Matches, hop, hrd, hra, hrb, himm, hhigh]
  exact and_congr_right fun _ => ⟨fun ⟨hrd, hra, hrb, hzero, hindex⟩ => ⟨hrd, hra, hrb, hzero, hindex⟩,
    fun ⟨hrd, hra, hrb, hzero, hindex⟩ => ⟨hrd, hra, hrb, hzero, hindex⟩⟩

/-- The register fields the row's format marks `-`. -/
def unused (r : Row) (f : Fields) : List Nat :=
  (bif r.rd then [] else [f.rd]) ++ (bif r.ra then [] else [f.ra]) ++ (bif r.rb then [] else [f.rb])

/-- The check of the row's format before command `i` is given back. -/
def check (r : Row) (f : Fields) (i : Instr) : Except DecodeReject Instr :=
  match r.imm with
  | .zero => form0 (unused r f) f.imm i
  | .count => formK (unused r f) i
  | .index => formHW (unused r f) f.imm i

theorem admits_iff (r : Row) (f : Fields) : Admits r f ↔
    (unused r f).all (· == 0) = true ∧ (r.imm = .zero → f.imm = 0) ∧ (r.imm = .index → f.imm / 16 = 0) := by
  have hreg (b : Bool) (v : Nat) : (bif b then [] else [v]).all (· == 0) = true ↔ (b = false → v = 0) := by
    cases b <;> simp
  simp only [unused, List.all_append, Bool.and_eq_true, hreg]
  exact ⟨fun ⟨hrd, hra, hrb, hzero, hindex⟩ => ⟨⟨⟨hrd, hra⟩, hrb⟩, hzero, hindex⟩,
    fun ⟨⟨⟨hrd, hra⟩, hrb⟩, hzero, hindex⟩ => ⟨hrd, hra, hrb, hzero, hindex⟩⟩

theorem check_eq_ok {r : Row} {f : Fields} {i j : Instr} : check r f i = .ok j ↔ Admits r f ∧ i = j := by
  rw [admits_iff, check]
  cases r.imm with
  | zero => simp [form0_eq_ok, and_assoc]
  | count => simp [formK_eq_ok]
  | index => simp [formHW_eq_ok, and_assoc]

/-- The word row `r` gives fields `f`: a register field the format marks `-` is 0, and `imm` is as the format says. -/
def rowWord (r : Row) (f : Fields) : Word32 :=
  pack r.op (bif r.rd then regOf f.rd else 0) (bif r.ra then regOf f.ra else 0) (bif r.rb then regOf f.rb else 0)
    (match r.imm with
    | .zero => 0
    | .count => f.imm
    | .index => regOf f.imm)

/-- Fields that the format admits lose nothing in the row's word. -/
theorem rowWord_eq_word {r : Row} {f : Fields} (hop : f.op = r.op) (h : Admits r f) : rowWord r f = word f := by
  have hreg {b : Bool} {v : Nat} (hv : b = false → v = 0) : (bif b then regOf v else 0) = regOf v := by
    cases b with
    | false => rw [hv rfl]; rfl
    | true => rfl
  rw [rowWord, word, hop, hreg h.rd, hreg h.ra, hreg h.rb]
  congr 1
  split
  · next himm => exact (h.zero himm).symm
  · rfl
  · next himm => have := h.index himm; simp only [regOf]; omega

/-- Command `i` is what row `r` makes of fields `f`: the decoder gives it back after the check of the row's format, its
count (if the format has one) is `imm`, and its word is the row's. -/
structure Names (r : Row) (f : Fields) (i : Instr) : Prop where
  decodes : decodeFields f = check r f i
  wellFormed : i.wellFormed = (r.imm != .count || decide (f.imm < 4096))
  encodes : encode i = rowWord r f

/-- The decoder, the encoder and the well-formedness of commands agree with the table, row by row. -/
theorem exists_names : ∀ r ∈ opcodeTable, ∀ f : Fields, f.op = r.op → ∃ i, Names r f i := by
  simp only [opcodeTable, List.cons_append, List.nil_append, List.forall_mem_cons, List.not_mem_nil, false_implies,
    implies_true, and_true]
  and_intros
  all_goals
    rintro ⟨_, rd, ra, rb, imm⟩ ⟨⟩
    exact ⟨_, rfl, rfl, rfl⟩

/-- R106 (a): an `op` of no row. -/
theorem decodeFields_unassigned {f : Fields} (h : ∀ r ∈ opcodeTable, f.op ≠ r.op) :
    decodeFields f = .error .unassignedOp := by
  simp only [opcodeTable, List.cons_append, List.nil_append, List.forall_mem_cons] at h
  simp [decodeFields, h]

/-- All the decoder can give: the command of the row with the fields' `op`, where that row's format admits them. -/
theorem decodeFields_eq_ok {f : Fields} {i : Instr} :
    decodeFields f = .ok i ↔ ∃ r ∈ opcodeTable, f.op = r.op ∧ Admits r f ∧ Names r f i := by
  constructor
  · intro h
    by_cases hop : ∃ r ∈ opcodeTable, f.op = r.op
    · obtain ⟨r, hr, hop⟩ := hop
      obtain ⟨j, hj⟩ := exists_names r hr f hop
      obtain ⟨hadmits, rfl⟩ := check_eq_ok.1 (hj.decodes.symm.trans h)
      exact ⟨r, hr, hop, hadmits, hj⟩
    · push Not at hop
      rw [decodeFields_unassigned hop] at h
      cases h
  · rintro ⟨r, _, _, hadmits, hi⟩
    exact hi.decodes.trans (check_eq_ok.2 ⟨hadmits, rfl⟩)

theorem decodes_iff_matches (w : Word32) : (∃ i, decode w = .ok i) ↔ ∃ r ∈ opcodeTable, r.Matches w := by
  constructor
  · rintro ⟨i, h⟩
    obtain ⟨r, hr, hop, hadmits, _⟩ := decodeFields_eq_ok.1 h
    exact ⟨r, hr, (matches_iff r w).2 ⟨hop, hadmits⟩⟩
  · rintro ⟨r, hr, hw⟩
    obtain ⟨hop, hadmits⟩ := (matches_iff r w).1 hw
    obtain ⟨i, hi⟩ := exists_names r hr _ hop
    exact ⟨i, decodeFields_eq_ok.2 ⟨r, hr, hop, hadmits, hi⟩⟩

/-! ### Illegal words (R106) -/

theorem illegalWord_iff (w : Word32) : IllegalWord w ↔ ∀ i, decode w ≠ .ok i := by
  simpa [IllegalWord] using (decodes_iff_matches w).not.symm

theorem opcodeTable_ops_distinct : opcodeTable.Pairwise fun a b => a.op ≠ b.op := by decide

theorem issue_illegal {w : Word32} {s : State} (herr : s.status.err = 0) (hw : IllegalWord w) :
    issue w s = .next (recorded 1 w s) := by
  rw [issue, if_neg (fun h => h.1 herr)]
  split
  · rfl
  · next i hi => exact absurd hi ((illegalWord_iff w).1 hw i)

/-! ### From a command to its word and back -/

section
open Sys2Proof.Laws.RoundTrip

/-- The laws of the 56 constructors, one arm each. -/
theorem decode_encode : ∀ i, Statement i
  | .nop => nop | .cfg => cfg | .clrerr => clrerr | .ladd rd ra rb => ladd rd ra rb | .ladc rd ra rb => ladc rd ra rb
  | .lsub rd ra rb => lsub rd ra rb | .lsbb rd ra rb => lsbb rd ra rb | .lmul rd ra rb rh => lmul rd ra rb rh
  | .lclz rd ra => lclz rd ra | .lshl rd ra k => lshl rd ra k | .lshr rd ra k => lshr rd ra k
  | .sadd rd ra rb => sadd rd ra rb | .ssub rd ra rb => ssub rd ra rb | .sshl rd ra k => sshl rd ra k
  | .sshr rd ra k => sshr rd ra k | .scmp ra rb => scmp ra rb | .sand rd ra rb => sand rd ra rb
  | .sor rd ra rb => sor rd ra rb | .sxor rd ra rb => sxor rd ra rb | .snot rd ra => snot rd ra
  | .spow2 rd k => spow2 rd k | .bisz ra => bisz ra | .bzero rd => bzero rd | .bone rd => bone rd
  | .bmsb rd ra => bmsb rd ra | .bsamp rd => bsamp rd | .bsampnz rd => bsampnz rd | .bsampu rd ra => bsampu rd ra
  | .bsampr rd ra rb => bsampr rd ra rb | .bsampui rd ra => bsampui rd ra | .bsampri rd ra rb => bsampri rd ra rb
  | .bmov rd ra => bmov rd ra | .gadd rd ra rb => gadd rd ra rb | .gsub rd ra rb => gsub rd ra rb
  | .gneg rd ra => gneg rd ra | .gmp2 rd ra k => gmp2 rd ra k | .gmp2cf rd ra k => gmp2cf rd ra k
  | .ftom rd ra => ftom rd ra | .ffromm rd ra => ffromm rd ra | .fmul rd ra rb => fmul rd ra rb
  | .fpow rd ra rb ws => fpow rd ra rb ws | .fpowl rd ra rb ws => fpowl rd ra rb ws | .finv rd ra ws => finv rd ra ws
  | .fsqrt rd ra ws => fsqrt rd ra ws | .pisinf ra => pisinf ra | .psetinf rd => psetinf rd
  | .ponc ra ws => ponc ra ws | .peq ra rb ws => peq ra rb ws | .pneg rd ra => pneg rd ra
  | .paddd rd ra rb ws => paddd rd ra rb ws | .pdbl rd ra ws => pdbl rd ra ws | .padd rd ra rb ws => padd rd ra rb ws
  | .psmul rd ra rb ws => psmul rd ra rb ws | .ptoaff rd ws => ptoaff rd ws | .pfromaff rd => pfromaff rd
  | .pmov rd ra => pmov rd ra
end

/-- A spelled word decodes to the well-formed command whose word it is. -/
theorem decode_of_encode_eq {i : Instr} {w : Word32} (hi : i.wellFormed = true) (hw : encode i = w) :
    decode w = .ok i := hw ▸ decode_encode i hi

/-! ### The statements -/

/-- Settles O1, by the laws of the constructors: what is packed is read back, and the row's format admits it. -/
theorem decodeAfterEncode : Obligations.DecodeAfterEncode := decode_encode

/-- Settles O2: the word is the word of the row it matches, and the row's word is the command's. -/
theorem encodeAfterDecode : Obligations.EncodeAfterDecode := by
  intro w i h
  obtain ⟨r, _, hop, hadmits, hi⟩ := decodeFields_eq_ok.1 h
  constructor
  · simp [hi.wellFormed, imm_fieldsOf_lt]
  · rw [hi.encodes, rowWord_eq_word hop hadmits, word_fieldsOf]

/-- Settles O4: the rows' `op`s are distinct, so they exclude each other; a word that matches none is not decoded, and
`issue` then raises `ILLEGAL_CMD`. -/
theorem illegalWordsRecorded : Obligations.IllegalWordsRecorded := by
  refine ⟨illegalWord_iff, opcodeTable_ops_distinct.imp ?_, fun w s => issue_illegal⟩
  intro a b hne w ⟨ha, hb⟩
  exact hne (ha.1.symm.trans hb.1)

/-- Settles O3: each word is the encoder's word of its command. -/
theorem spelledWordsDecode : Obligations.SpelledWordsDecode := by
  unfold Obligations.SpelledWordsDecode
  and_intros <;> exact decode_of_encode_eq rfl (by decide)

end Sys2Proof.Proofs.Encoding
end

section
/-!
PROOFS. The limb commands (40_limb.md R130 to R143): what the primitives compute, beside the defining equations of
Laws/Arith.lean, and that each command writes its primitive's limbs to its destinations as they are.
-/

namespace Sys2Proof.Proofs.LimbCommands

open Sys2Proof.Machine Sys2Proof.Safety Sys2Proof.Laws

/-! ### The primitives (R130 to R135) -/

section
variable {W t a b c k hi lo : Nat}

/-- A sum that fits a limb has no carry. -/
theorem addc_of_lt {cin : Bool} (h : a + b + cin.toNat < 2 ^ W) : addc W a b cin = (a + b + cin.toNat, false) := by
  simp [addc, Nat.mod_eq_of_lt h, h]

theorem mulw_high_lt (ha : a < 2 ^ W) (hb : b < 2 ^ W) : (mulw W a b).1 < 2 ^ W :=
  Nat.div_lt_of_lt_mul (Nat.mul_lt_mul'' ha hb)

/-- The limbs of `mac` are the only two with their value. -/
theorem mac_unique (h : hi * 2 ^ W + lo = t + a * b + c) (hlo : lo < 2 ^ W) : mac W t a b c = (hi, lo) := by
  have hpos : 0 < 2 ^ W := Nat.two_pow_pos W
  have hsum : lo + 2 ^ W * hi = t + a * b + c := by rw [← h, Nat.mul_comm, Nat.add_comm]
  exact Prod.ext_iff.2 ((Nat.div_mod_unique hpos).2 ⟨hsum, hlo⟩)

/-- Two limbs hold `t + a*b + c`: at most `(2^W - 1) + (2^W - 1)² + (2^W - 1) = 2^(2W) - 1`. -/
theorem mac_high_lt (ht : t < 2 ^ W) (ha : a < 2 ^ W) (hb : b < 2 ^ W) (hc : c < 2 ^ W) :
    (mac W t a b c).1 < 2 ^ W := by
  obtain ⟨d, hd⟩ : ∃ d, 2 ^ W = d + 1 := ⟨2 ^ W - 1, by omega⟩
  rw [hd] at ht ha hb hc
  have hab : a * b ≤ d * d := Nat.mul_le_mul (Nat.le_of_lt_succ ha) (Nat.le_of_lt_succ hb)
  refine Nat.div_lt_of_lt_mul ?_
  rw [hd]
  calc t + a * b + c < d + d * d + (d + 1) := by omega
    _ = (d + 1) * (d + 1) := by ring

theorem clz_zero : clz W 0 = W := rfl

theorem clz_le : clz W a ≤ W := Nat.sub_le ..

/-- The highest set bit is the one below the leading zeros. -/
theorem clz_bounds (ha : a < 2 ^ W) (h0 : a ≠ 0) :
    clz W a < W ∧ 2 ^ (W - 1 - clz W a) ≤ a ∧ a < 2 ^ (W - clz W a) := by
  have hlen : W - clz W a = bitLength a := LimbProcedures.sub_clz ha
  have hpos : 0 < bitLength a := by rw [bitLength_pos h0]; exact Nat.succ_pos _
  rw [Nat.sub_right_comm, hlen]
  exact ⟨by omega, two_pow_le_of_bitLength h0, lt_two_pow_bitLength a⟩

theorem shl_of_le (h : W ≤ k) : shl W a k = 0 := if_neg (Nat.not_lt.2 h)

theorem shr_of_le (h : W ≤ k) : shr W a k = 0 := if_neg (Nat.not_lt.2 h)

/-- The formula of `shl` needs no bound on the count: from `W` on, no bit is left. -/
theorem shl_eq (W a k : Nat) : shl W a k = a * 2 ^ k % 2 ^ W := by
  rcases Nat.lt_or_ge k W with h | h
  · exact if_pos h
  · rw [shl_of_le h, Nat.mod_eq_zero_of_dvd (Dvd.dvd.mul_left (pow_dvd_pow 2 h) a)]

/-- The formula of `shr` needs no bound on the count: from `W` on, a limb has no bit left. -/
theorem shr_eq (ha : a < 2 ^ W) (k : Nat) : shr W a k = a / 2 ^ k := by
  rcases Nat.lt_or_ge k W with h | h
  · exact if_pos h
  · rw [shr_of_le h, Nat.div_eq_of_lt (ha.trans_le (Nat.pow_le_pow_right (by decide) h))]

/-- Settles O16: the chain's last sum and its low limb have the value of `mac`, so they are its two limbs, and the high
one fits, so the last carry is 0. -/
theorem macFromPrimitives : Obligations.MacFromPrimitives := by
  intro W t a b c ht ha hb hc
  obtain ⟨hlow, hvalue⟩ := mac_eq W t a b c
  have hhigh := mac_high_lt ht ha hb hc
  refine ⟨hhigh, hlow, hvalue, ?_⟩
  intro p r1 r2
  obtain ⟨hp, hproduct⟩ : p.2 < 2 ^ W ∧ p.1 * 2 ^ W + p.2 = a * b := mulw_eq W a b
  obtain ⟨hr1, hsum1⟩ : r1.1 < 2 ^ W ∧ r1.1 + r1.2.toNat * 2 ^ W = p.2 + t + 0 := addc_eq hp ht
  obtain ⟨hr2, hsum2⟩ : r2.1 < 2 ^ W ∧ r2.1 + r2.2.toNat * 2 ^ W = r1.1 + c + 0 := addc_eq hr1 hc
  have hchain : (p.1 + r1.2.toNat + r2.2.toNat) * 2 ^ W + r2.1 = t + a * b + c := by
    rw [Nat.add_mul, Nat.add_mul]; omega
  have hmac : mac W t a b c = (p.1 + r1.2.toNat + r2.2.toNat, r2.1) := mac_unique hchain hr2
  rw [hmac] at hhigh ⊢
  exact ⟨addc_of_lt hhigh, rfl⟩
end

/-! ### The commands (R136 to R143) -/

section
variable {s : State} {v : Nat}

/-- A limb is stored as it is. -/
theorem writeL_readL_of_lt (rd : Reg) (hv : v < 2 ^ s.W) : (s.writeL rd v).readL rd = v := by
  rw [State.writeL_readL_same, Nat.mod_eq_of_lt hv]

variable (hs : InRange s) (rd ra rb : Reg)
include hs

theorem readL_lt (r : Reg) : s.readL r < 2 ^ s.W := hs.2.1 r

/-- `LADD` and `LADC`, which differ in the carry in. -/
theorem limbCarryResult_addc (cin : Bool) :
    ∃ t, limbCarryResult rd (addc s.W (s.readL ra) (s.readL rb) cin) s = .next t ∧ t.readL rd < 2 ^ s.W ∧
      t.readL rd + t.status.c.toNat * 2 ^ s.W = s.readL ra + s.readL rb + cin.toNat ∧
      Footprint.Frame { l := [rd], c := true } s t := by
  obtain ⟨hlt, hsum⟩ := addc_eq (c := cin) (readL_lt hs ra) (readL_lt hs rb)
  refine ⟨_, rfl, ?_⟩
  rw [State.setC_readL, writeL_readL_of_lt rd hlt]
  exact ⟨hlt, hsum, frame_writeL_setC ..⟩

/-- `LSUB` and `LSBB`, which differ in the borrow in. -/
theorem limbCarryResult_subb (bin : Bool) :
    ∃ t, limbCarryResult rd (subb s.W (s.readL ra) (s.readL rb) bin) s = .next t ∧ t.readL rd < 2 ^ s.W ∧
      t.readL rd + s.readL rb + bin.toNat = s.readL ra + t.status.c.toNat * 2 ^ s.W ∧
      Footprint.Frame { l := [rd], c := true } s t := by
  obtain ⟨hlt, hdiff⟩ := subb_eq (c := bin) (readL_lt hs ra) (readL_lt hs rb)
  refine ⟨_, rfl, ?_⟩
  rw [State.setC_readL, writeL_readL_of_lt rd hlt]
  exact ⟨hlt, hdiff, frame_writeL_setC ..⟩

/-- `LMUL` into two registers: the write of the high half keeps the low half. -/
theorem exec_lmul_halves {rh : Reg} (hne : rd ≠ rh) :
    ∃ t, exec (.lmul rd ra rb rh) s = .next t ∧ t.readL rd < 2 ^ s.W ∧ t.readL rh < 2 ^ s.W ∧
      t.readL rh * 2 ^ s.W + t.readL rd = s.readL ra * s.readL rb ∧
      Footprint.Frame { l := [rd, rh] } s t := by
  obtain ⟨hlow, hproduct⟩ := mulw_eq s.W (s.readL ra) (s.readL rb)
  have hhigh := mulw_high_lt (readL_lt hs ra) (readL_lt hs rb)
  refine ⟨_, congrArg Host.Outcome.next (if_neg hne), ?_⟩
  rw [writeL_readL_of_lt (s := s.writeL rd _) rh hhigh, State.writeL_readL, if_neg hne, writeL_readL_of_lt rd hlow]
  exact ⟨hlow, hhigh, hproduct, frame_writeL_writeL ..⟩

theorem exec_lclz :
    ∃ t, exec (.lclz rd ra) s = .next t ∧
      (s.readL ra = 0 → t.readL rd = s.W) ∧
      (s.readL ra ≠ 0 → t.readL rd < s.W ∧ 2 ^ (s.W - 1 - t.readL rd) ≤ s.readL ra ∧
        s.readL ra < 2 ^ (s.W - t.readL rd)) ∧
      Footprint.Frame { l := [rd] } s t := by
  have hfits : clz s.W (s.readL ra) < 2 ^ s.W := clz_le.trans_lt Nat.lt_two_pow_self
  refine ⟨_, rfl, ?_⟩
  rw [writeL_readL_of_lt rd hfits]
  exact ⟨fun h => by rw [h, clz_zero], clz_bounds (readL_lt hs ra), frame_writeL ..⟩

theorem exec_lshr (k : Nat) :
    ∃ t, exec (.lshr rd ra k) s = .next t ∧ t.readL rd = s.readL ra / 2 ^ k ∧
      (s.W ≤ k → t.readL rd = 0) ∧ Footprint.Frame { l := [rd] } s t := by
  have hvalue := shr_eq (readL_lt hs ra) k
  have hfits : shr s.W (s.readL ra) k < 2 ^ s.W := by
    rw [hvalue]; exact (Nat.div_le_self ..).trans_lt (readL_lt hs ra)
  refine ⟨_, rfl, ?_⟩
  rw [writeL_readL_of_lt rd hfits]
  exact ⟨hvalue, shr_of_le, frame_writeL ..⟩
end

/-- `LSHL` in any state: the formula itself keeps the result in a limb. -/
theorem exec_lshl (rd ra : Reg) (k : Nat) (s : State) :
    ∃ t, exec (.lshl rd ra k) s = .next t ∧ t.readL rd = s.readL ra * 2 ^ k % 2 ^ s.W ∧
      (s.W ≤ k → t.readL rd = 0) ∧ Footprint.Frame { l := [rd] } s t := by
  have hfits : shl s.W (s.readL ra) k < 2 ^ s.W := by rw [shl_eq]; exact Nat.mod_lt _ (Nat.two_pow_pos _)
  refine ⟨_, rfl, ?_⟩
  rw [writeL_readL_of_lt rd hfits]
  exact ⟨shl_eq .., shl_of_le, frame_writeL ..⟩

/-- `LMUL` with one register for both halves faults, whatever the state. -/
theorem exec_lmul_same (rd ra rb : Reg) (s : State) :
    exec (.lmul rd ra rb rd) s = .next (recorded 4 (encode (.lmul rd ra rb rd)) s) :=
  congrArg Host.Outcome.next ((if_pos rfl).trans (raise_eq .precondOperand _ s nofun))

/-! ### The statements -/

/-- Settles O11: both commands are `limbCarryResult_addc`, `LADD` with carry in 0 and `LADC` with the flag. -/
theorem limbAdd : Obligations.LimbAdd := fun rd ra rb s hs =>
  ⟨RoundTrip.ladd rd ra rb rfl, RoundTrip.ladc rd ra rb rfl, limbCarryResult_addc hs rd ra rb false,
    limbCarryResult_addc hs rd ra rb s.status.c⟩

/-- Settles O12: both commands are `limbCarryResult_subb`, `LSUB` with borrow in 0 and `LSBB` with the flag. -/
theorem limbSubtract : Obligations.LimbSubtract := fun rd ra rb s hs =>
  ⟨RoundTrip.lsub rd ra rb rfl, RoundTrip.lsbb rd ra rb rfl, limbCarryResult_subb hs rd ra rb false,
    limbCarryResult_subb hs rd ra rb s.status.c⟩

/-- Settles O13, by the two cases of the destinations. -/
theorem limbMultiply : Obligations.LimbMultiply := fun rd ra rb rh s hs =>
  ⟨RoundTrip.lmul rd ra rb rh rfl, exec_lmul_halves hs rd ra rb,
    fun h => by subst h; exact exec_lmul_same rd ra rb s⟩

/-- Settles O14: the leading zeros are what the bit length leaves of `W`. -/
theorem limbLeadingZeros : Obligations.LimbLeadingZeros := fun rd ra _ hs =>
  ⟨RoundTrip.lclz rd ra rfl, exec_lclz hs rd ra⟩

/-- Settles O15: the formulas of the shifts hold for every count, and a count below 4096 is what `imm` can hold. -/
theorem limbShift : Obligations.LimbShift := fun rd ra k s hs hk =>
  ⟨RoundTrip.lshl rd ra k (decide_eq_true hk), RoundTrip.lshr rd ra k (decide_eq_true hk), exec_lshl rd ra k s,
    exec_lshr hs rd ra k⟩

end Sys2Proof.Proofs.LimbCommands
end

section
/-!
PROOFS. The limb procedures of 41_limbseq.md that build a sequence: the ripples (R150, R151) and the shifts (R153,
R154).
-/

namespace Sys2Proof.Proofs.SequenceProcedures

open Sys2Proof.Machine Sys2Proof.Proofs.LimbProcedures Sys2Proof.Proofs.LimbCommands

section
variable {W N a b q r i : Nat}

/-! ### The ripples -/

/-- A number has one form `lo + c*m` with `lo < m` and `c` a bit. -/
theorem low_carry_unique {m lo lo' : Nat} {c c' : Bool} (hlo : lo < m) (hlo' : lo' < m)
    (h : lo + c.toNat * m = lo' + c'.toNat * m) : lo = lo' ∧ c = c' := by
  have hc : c.toNat = c'.toNat := by
    have hdiv := congrArg (· / m) h
    simpa [Nat.add_mul_div_right _ _ (Nat.zero_lt_of_lt hlo), Nat.div_eq_of_lt hlo, Nat.div_eq_of_lt hlo'] using hdiv
  rw [hc] at h
  exact ⟨Nat.add_right_cancel h, Function.LeftInverse.injective Bool.ofNat_toNat hc⟩

/-- Both the ripple and `seqAdd` give the low part and the carry of `a + b`. -/
theorem rippleAdd_toLimbs (ha : a < 2 ^ (N * W)) (hb : b < 2 ^ (N * W)) :
    rippleAdd W (toLimbs W N a) (toLimbs W N b) false =
      (toLimbs W N (seqAdd (N * W) a b).1, (seqAdd (N * W) a b).2) := by
  obtain ⟨hlen, hlimbs, hsum⟩ := rippleAdd_spec (toLimbs W N a) (toLimbs W N b) false (by simp)
    (fun _ => mem_toLimbs_lt) (fun _ => mem_toLimbs_lt)
  obtain ⟨hlow, hvalue⟩ := seqAdd_eq ha hb
  have hlow' := ofLimbs_lt hlimbs
  rw [length_toLimbs] at hlen hsum
  rw [hlen] at hlow'
  rw [ofLimbs_toLimbs_of_lt ha, ofLimbs_toLimbs_of_lt hb, Bool.toNat_false, Nat.add_zero, ← hvalue] at hsum
  obtain ⟨hsame, hcarry⟩ := low_carry_unique hlow' hlow hsum
  exact Prod.ext (eq_toLimbs hlen hlimbs hsame) hcarry

/-- Both the ripple and `seqSub` give the low part and the borrow of `a - b`. -/
theorem rippleSub_toLimbs (ha : a < 2 ^ (N * W)) (hb : b < 2 ^ (N * W)) :
    rippleSub W (toLimbs W N a) (toLimbs W N b) false =
      (toLimbs W N (seqSub (N * W) a b).1, (seqSub (N * W) a b).2) := by
  obtain ⟨hlen, hlimbs, hdiff⟩ := rippleSub_spec (toLimbs W N a) (toLimbs W N b) false (by simp)
    (fun _ => mem_toLimbs_lt) (fun _ => mem_toLimbs_lt)
  obtain ⟨hlow, hvalue⟩ := seqSub_eq ha hb
  have hlow' := ofLimbs_lt hlimbs
  rw [length_toLimbs] at hlen hdiff
  rw [hlen] at hlow'
  rw [ofLimbs_toLimbs_of_lt ha, ofLimbs_toLimbs_of_lt hb, Bool.toNat_false, Nat.add_zero] at hdiff
  obtain ⟨hsame, hborrow⟩ := low_carry_unique hlow' hlow (c := (seqSub (N * W) a b).2)
    (c' := (rippleSub W (toLimbs W N a) (toLimbs W N b) false).2) (by omega)
  exact Prod.ext (eq_toLimbs hlen hlimbs hsame) hborrow.symm

/-! ### The shifts, bit by bit -/

theorem seqShl_eq (n a K : Nat) : seqShl n a K = a * 2 ^ K % 2 ^ n := shl_eq n a K

theorem seqShr_eq {n : Nat} (ha : a < 2 ^ n) (K : Nat) : seqShr n a K = a / 2 ^ K := shr_eq ha K

theorem seqShl_of_le {n K : Nat} (h : n ≤ K) : seqShl n a K = 0 := shl_of_le h

theorem seqShr_of_le {n K : Nat} (h : n ≤ K) : seqShr n a K = 0 := shr_of_le h

theorem testBit_shl (W a k j : Nat) : (shl W a k).testBit j = (decide (j < W ∧ k ≤ j) && a.testBit (j - k)) := by
  rw [shl_eq, Nat.testBit_mod_two_pow, Nat.testBit_mul_two_pow, Bool.decide_and, Bool.and_assoc]

theorem testBit_shr (ha : a < 2 ^ W) (k j : Nat) : (shr W a k).testBit j = a.testBit (j + k) := by
  rw [shr_eq ha, Nat.testBit_div_two_pow]

theorem testBit_eq_false {n j : Nat} (ha : a < 2 ^ n) (h : n ≤ j) : a.testBit j = false :=
  Nat.testBit_lt_two_pow (ha.trans_le (Nat.pow_le_pow_right (by decide) h))

/-- R153's formula: at or above the count, bit `j` of limb `i` comes from limb `i - q` when `r ≤ j` and from the limb
below it otherwise; below the count there is no limb to come from. -/
theorem testBit_shlLimb (hr : r < W) {j : Nat} (hj : j < W) : (shlLimb W q r (limbOf W a) i).testBit j =
    (decide (W * q + r ≤ W * i + j) && a.testBit (W * i + j - (W * q + r))) := by
  rcases Nat.lt_or_ge i q with hi | hi
  · have hbelow : W * (i + 1) ≤ W * q := Nat.mul_le_mul_left W hi
    rw [Nat.mul_succ] at hbelow
    simp [shlLimb, hi, show ¬ W * q + r ≤ W * i + j by omega]
  · obtain ⟨d, rfl⟩ := Nat.exists_eq_add_of_le hi
    rw [shlLimb, if_neg (Nat.not_lt.2 hi), Nat.testBit_or, testBit_shl, testBit_limbOf, Nat.add_sub_cancel_left,
      Nat.mul_add]
    rcases Nat.lt_or_ge j r with hjr | hjr
    · cases d with
      | zero => simp [show ¬ r ≤ j by omega]
      | succ d =>
        have hindex : W * q + W * (d + 1) + j - (W * q + r) = W * d + (j + (W - r)) := by rw [Nat.mul_succ]; omega
        rw [hindex]
        simp [testBit_shr (limbOf_lt ..), testBit_limbOf, Nat.mul_succ, show 0 < r by omega, show ¬ r ≤ j by omega,
          show j + (W - r) < W by omega, show W * q + r ≤ W * q + (W * d + W) + j by omega]
    · have hindex : W * q + W * d + j - (W * q + r) = W * d + (j - r) := by omega
      have hhigh (k : Nat) : (shr W (limbOf W a k) (W - r)).testBit j = false := by
        rw [testBit_shr (limbOf_lt ..)]
        exact testBit_eq_false (limbOf_lt ..) (by omega)
      rw [hindex, apply_ite (Nat.testBit · j), hhigh, Nat.zero_testBit, ite_self]
      simp [hj, hjr, show j - r < W by omega, show W * q + r ≤ W * q + W * d + j by omega]

/-- R154's formula: bit `j` of limb `i` comes from limb `i + q` when it holds bit `j + r`, and from the limb above it
otherwise; where the formula has no limb, the value has no bit. -/
theorem testBit_shrLimb (ha : a < 2 ^ (N * W)) (hr : r < W) {j : Nat} (hj : j < W) :
    (shrLimb W N q r (limbOf W a) i).testBit j = a.testBit (W * i + j + (W * q + r)) := by
  have habove {k m : Nat} (hk : N ≤ k) : a.testBit (W * k + m) = false :=
    testBit_eq_false ha ((Nat.mul_comm N W).trans_le (Nat.le_add_right_of_le (Nat.mul_le_mul_left W hk)))
  have hindex : W * i + j + (W * q + r) = W * (i + q) + (j + r) := by rw [Nat.mul_add]; omega
  rw [hindex]
  rcases Nat.lt_or_ge (i + q) N with hi | hi
  · rw [shrLimb, if_neg (Nat.not_le.2 hi), Nat.testBit_or, testBit_shr (limbOf_lt ..), testBit_limbOf]
    rcases Nat.lt_or_ge (j + r) W with hjr | hjr
    · have hlow (k : Nat) : (shl W (limbOf W a k) (W - r)).testBit j = false := by
        simp [testBit_shl, show ¬ W - r ≤ j by omega]
      rw [apply_ite (Nat.testBit · j), hlow, Nat.zero_testBit, ite_self]
      simp [hjr]
    · have hnext : W * (i + q) + (j + r) = W * (i + q + 1) + (j - (W - r)) := by rw [Nat.mul_succ]; omega
      rw [hnext]
      rcases Nat.lt_or_ge (i + q + 1) N with hi' | hi'
      · simp [testBit_shl, testBit_limbOf, hi', hj, show 0 < r by omega, show ¬ j + r < W by omega,
          show W - r ≤ j by omega, show j - (W - r) < W by omega]
      · simp [habove hi', Nat.not_lt.2 hi', show ¬ j + r < W by omega]
  · rw [habove hi, shrLimb, if_pos hi, Nat.zero_testBit]

/-! ### The shifts, limb by limb -/

/-- Two limbs are equal when their `W` bits are. -/
theorem limb_ext {x y : Nat} (hx : x < 2 ^ W) (hy : y < 2 ^ W) (h : ∀ j, j < W → x.testBit j = y.testBit j) :
    x = y := by
  refine Nat.eq_of_testBit_eq fun j => ?_
  rcases Nat.lt_or_ge j W with hj | hj
  · exact h j hj
  · rw [testBit_eq_false hx hj, testBit_eq_false hy hj]

theorem shl_lt (W a k : Nat) : shl W a k < 2 ^ W := by
  rw [shl_eq]; exact Nat.mod_lt _ (Nat.two_pow_pos W)

theorem shr_lt {k : Nat} (ha : a < 2 ^ W) : shr W a k < 2 ^ W := by
  rw [shr_eq ha]; exact (Nat.div_le_self ..).trans_lt ha

theorem shlLimb_lt : shlLimb W q r (limbOf W a) i < 2 ^ W := by
  rw [shlLimb]
  split
  · exact Nat.two_pow_pos W
  · refine Nat.or_lt_two_pow (shl_lt ..) ?_
    split
    · exact shr_lt (limbOf_lt ..)
    · exact Nat.two_pow_pos W

theorem shrLimb_lt : shrLimb W N q r (limbOf W a) i < 2 ^ W := by
  rw [shrLimb]
  split
  · exact Nat.two_pow_pos W
  · refine Nat.or_lt_two_pow (shr_lt (limbOf_lt ..)) ?_
    split
    · exact shl_lt ..
    · exact Nat.two_pow_pos W

/-- Bit `j` of limb `i` is a bit of the register. -/
theorem bit_lt_width {j : Nat} (hi : i < N) (hj : j < W) : W * i + j < N * W :=
  calc W * i + j < W * (i + 1) := by rw [Nat.mul_succ]; omega
    _ ≤ W * N := Nat.mul_le_mul_left W hi
    _ = N * W := Nat.mul_comm W N

theorem limbOf_seqShl (hW : 0 < W) (hi : i < N) (a K : Nat) :
    limbOf W (seqShl (N * W) a K) i = shlLimb W (K / W) (K % W) (limbOf W a) i := by
  refine limb_ext (limbOf_lt ..) shlLimb_lt fun j hj => ?_
  rw [testBit_shlLimb (Nat.mod_lt _ hW) hj, Nat.div_add_mod, testBit_limbOf, seqShl_eq, Nat.testBit_mod_two_pow,
    Nat.testBit_mul_two_pow]
  simp [hj, bit_lt_width hi hj]

theorem limbOf_seqShr (hW : 0 < W) (ha : a < 2 ^ (N * W)) (i K : Nat) :
    limbOf W (seqShr (N * W) a K) i = shrLimb W N (K / W) (K % W) (limbOf W a) i := by
  refine limb_ext (limbOf_lt ..) shrLimb_lt fun j hj => ?_
  rw [testBit_shrLimb ha (Nat.mod_lt _ hW) hj, Nat.div_add_mod, testBit_limbOf, seqShr_eq ha, Nat.testBit_div_two_pow]
  simp [hj]
end

/-! ### The statements -/

/-- Settles O22: an addition or subtraction has one low part and one carry. -/
theorem rippleAddSubtract : Obligations.RippleAddSubtract := fun _ _ _ _ ha hb =>
  ⟨rippleAdd_toLimbs ha hb, rippleSub_toLimbs ha hb⟩

/-- Settles O24: both sides of each formula have the same bits, and the values' equations hold for every count. -/
theorem shiftByLimbs : Obligations.ShiftByLimbs := fun _ _ a K hW ha =>
  ⟨fun _ i hi => ⟨limbOf_seqShl hW hi a K, limbOf_seqShr hW ha i K⟩, fun _ => ⟨seqShl_eq .., seqShr_eq ha K⟩,
    fun h => ⟨seqShl_of_le h, seqShr_of_le h⟩⟩

end Sys2Proof.Proofs.SequenceProcedures
end

section
/-!
PROOFS. The sequence commands (41_limbseq.md R155 to R164): each writes its function's value to `f[rd]` as it is, and
what the bitwise functions and `2^e` are limb by limb.
-/

namespace Sys2Proof.Proofs.SequenceCommands

open Sys2Proof.Machine Sys2Proof.Safety Sys2Proof.Laws Sys2Proof.Proofs.SequenceProcedures

/-! ### The functions, limb by limb -/

section
variable {W N a b e i : Nat}

theorem limbOf_seqAnd (W a b i : Nat) : limbOf W (seqAnd a b) i = limbOf W a i &&& limbOf W b i := by
  simp only [limbOf, seqAnd, Nat.and_div_two_pow, Nat.and_mod_two_pow]

theorem limbOf_seqOr (W a b i : Nat) : limbOf W (seqOr a b) i = limbOf W a i ||| limbOf W b i := by
  simp only [limbOf, seqOr, Nat.or_div_two_pow, Nat.or_mod_two_pow]

theorem limbOf_seqXor (W a b i : Nat) : limbOf W (seqXor a b) i = limbOf W a i ^^^ limbOf W b i := by
  simp only [limbOf, seqXor, Nat.xor_div_two_pow, Nat.xor_mod_two_pow]

/-- The complement of `n` bits inverts each bit below `n`. -/
theorem testBit_seqNot {n : Nat} (ha : a < 2 ^ n) (j : Nat) :
    (seqNot n a).testBit j = (decide (j < n) && !a.testBit j) := by
  rw [seqNot, Nat.sub_sub, Nat.add_comm 1 a, Nat.testBit_two_pow_sub_succ ha]

theorem seqNot_lt {n : Nat} : seqNot n a < 2 ^ n :=
  (Nat.sub_le ..).trans_lt (Nat.sub_one_lt (Nat.two_pow_pos n).ne')

/-- Each limb of the complement is the complement of the limb, by their bits. -/
theorem limbOf_seqNot (ha : a < 2 ^ (N * W)) (hi : i < N) :
    limbOf W (seqNot (N * W) a) i = seqNot W (limbOf W a i) := by
  refine limb_ext (limbOf_lt ..) seqNot_lt fun j hj => ?_
  rw [testBit_limbOf, testBit_seqNot ha, testBit_seqNot (limbOf_lt ..), testBit_limbOf]
  simp [hj, bit_lt_width hi hj]

/-- `2^e` is what a write of `2^(e mod W)` to limb `e div W` makes of 0. -/
theorem limbOf_two_pow (hW : 0 < W) : limbOf W (2 ^ e) i = if i = e / W then 2 ^ (e % W) else 0 := by
  have hlimb : setLimb W 0 (e / W) (2 ^ (e % W)) = 2 ^ e := by
    simp [setLimb, ← pow_add, Nat.mod_add_div]
  have hx : 2 ^ (e % W) < 2 ^ W := Nat.pow_lt_pow_right (by decide) (Nat.mod_lt e hW)
  rw [← hlimb, limbOf_setLimb hx]
  simp [limbOf]
end

/-! ### The commands -/

section
variable {s : State} {v : Nat}

/-- A value that fits is stored as it is, and nothing else changes. -/
theorem seqResult_stores (rd : Reg) (hv : v < 2 ^ s.n) :
    ∃ t, seqResult rd v s = .next t ∧ t.readF rd = v ∧ Footprint.Frame { f := [rd] } s t :=
  ⟨_, rfl, by rw [State.writeF_readF_same, Nat.mod_eq_of_lt hv], frame_writeF ..⟩

/-- As `seqResult_stores`, with the flag. -/
theorem seqCarryResult_stores (rd : Reg) {r : Nat × Bool} (hv : r.1 < 2 ^ s.n) :
    ∃ t, seqCarryResult rd r s = .next t ∧ t.readF rd = r.1 ∧ t.status.c = r.2 ∧
      Footprint.Frame { f := [rd], c := true } s t :=
  ⟨_, rfl, by rw [State.setC_readF, State.writeF_readF_same, Nat.mod_eq_of_lt hv], rfl, frame_writeF_setC ..⟩

/-- A stored value has the limbs it was computed with. -/
theorem seqResult_limbs (rd : Reg) {g : Nat → Nat} (hv : v < 2 ^ s.n) (hg : ∀ i, limbOf s.W v i = g i) :
    ∃ t, seqResult rd v s = .next t ∧ t.readF rd < 2 ^ s.n ∧ (∀ i, limbOf s.W (t.readF rd) i = g i) ∧
      Footprint.Frame { f := [rd] } s t := by
  obtain ⟨t, ht, rfl, hframe⟩ := seqResult_stores rd hv
  exact ⟨t, ht, hv, hg, hframe⟩

/-- `SSHL` in any state: the formula itself keeps the result in the register. -/
theorem exec_sshl (rd ra : Reg) (k : Nat) (s : State) :
    ∃ t, exec (.sshl rd ra k) s = .next t ∧ t.readF rd = s.readF ra * 2 ^ k % 2 ^ s.n ∧
      (s.n ≤ k → t.readF rd = 0) ∧ Footprint.Frame { f := [rd] } s t := by
  obtain ⟨t, ht, hvalue, hframe⟩ := seqResult_stores rd (shl_lt s.n (s.readF ra) k)
  exact ⟨t, ht, hvalue.trans (seqShl_eq ..), fun h => hvalue.trans (seqShl_of_le h), hframe⟩

/-- `SPOW2` from `n` on, whatever the state. -/
theorem exec_spow2_fault (rd : Reg) {e : Nat} (h : s.n ≤ e) :
    exec (.spow2 rd e) s = .next (recorded 5 (pack 0x29 rd 0 0 e) s) :=
  congrArg Host.Outcome.next ((if_pos h).trans (raise_eq .precondRange _ s nofun))

theorem code_eq_zero (c : Cmp) : c.code = 0 ↔ c = .eq := by cases c <;> decide

theorem code_eq_one (c : Cmp) : c.code = 1 ↔ c = .lt := by cases c <;> decide

theorem code_eq_two (c : Cmp) : c.code = 2 ↔ c = .gt := by cases c <;> decide

/-- `SCMP` in any state. -/
theorem exec_scmp (ra rb : Reg) (s : State) :
    ∃ t, exec (.scmp ra rb) s = .next t ∧
      (t.status.cmp.code = 0 ↔ s.readF ra = s.readF rb) ∧
      (t.status.cmp.code = 1 ↔ s.readF ra < s.readF rb) ∧
      (t.status.cmp.code = 2 ↔ s.readF rb < s.readF ra) ∧
      Footprint.Frame { cmp := true } s t := by
  obtain ⟨hlt, heq, hgt⟩ := seqCmp_eq (s.readF ra) (s.readF rb)
  refine ⟨_, rfl, ?_, ?_, ?_, frame_setCmp ..⟩
  · exact (code_eq_zero _).trans heq
  · exact (code_eq_one _).trans hlt
  · exact (code_eq_two _).trans hgt

variable (hs : InRange s) (rd ra rb : Reg)
include hs

theorem readF_lt (r : Reg) : s.readF r < 2 ^ s.n := by
  obtain ⟨_, _, hf, _⟩ := hs
  exact hf r

theorem W_pos : 0 < s.W := by
  obtain ⟨⟨hW, _⟩, _⟩ := hs
  rcases hW with h | h <;> rw [State.W, h] <;> decide

theorem exec_sadd :
    ∃ t, exec (.sadd rd ra rb) s = .next t ∧ t.readF rd < 2 ^ s.n ∧
      t.readF rd + t.status.c.toNat * 2 ^ s.n = s.readF ra + s.readF rb ∧
      Footprint.Frame { f := [rd], c := true } s t := by
  obtain ⟨hlt, hsum⟩ := seqAdd_eq (readF_lt hs ra) (readF_lt hs rb)
  obtain ⟨t, ht, hvalue, hcarry, hframe⟩ := seqCarryResult_stores rd hlt
  rw [← hvalue] at hlt hsum
  rw [← hcarry] at hsum
  exact ⟨t, ht, hlt, hsum, hframe⟩

theorem exec_ssub :
    ∃ t, exec (.ssub rd ra rb) s = .next t ∧ t.readF rd < 2 ^ s.n ∧
      t.readF rd + s.readF rb = s.readF ra + t.status.c.toNat * 2 ^ s.n ∧
      (t.status.c = true ↔ s.readF ra < s.readF rb) ∧
      Footprint.Frame { f := [rd], c := true } s t := by
  obtain ⟨hlt, hdiff⟩ := seqSub_eq (readF_lt hs ra) (readF_lt hs rb)
  obtain ⟨t, ht, hvalue, hborrow, hframe⟩ := seqCarryResult_stores rd hlt
  rw [← hvalue] at hlt hdiff
  rw [← hborrow] at hdiff
  exact ⟨t, ht, hlt, hdiff, by rw [hborrow]; exact decide_eq_true_iff, hframe⟩

theorem exec_sshr (k : Nat) :
    ∃ t, exec (.sshr rd ra k) s = .next t ∧ t.readF rd = s.readF ra / 2 ^ k ∧
      (s.n ≤ k → t.readF rd = 0) ∧ Footprint.Frame { f := [rd] } s t := by
  obtain ⟨t, ht, hvalue, hframe⟩ := seqResult_stores rd (shr_lt (k := k) (readF_lt hs ra))
  exact ⟨t, ht, hvalue.trans (seqShr_eq (readF_lt hs ra) k), fun h => hvalue.trans (seqShr_of_le h), hframe⟩

theorem exec_snot :
    ∃ t, exec (.snot rd ra) s = .next t ∧ t.readF rd = 2 ^ s.n - 1 - s.readF ra ∧
      (∀ i, i < s.geom.N → limbOf s.W (t.readF rd) i = 2 ^ s.W - 1 - limbOf s.W (s.readF ra) i) ∧
      Footprint.Frame { f := [rd] } s t := by
  obtain ⟨t, ht, hvalue, hframe⟩ := seqResult_stores rd (v := seqNot s.n (s.readF ra)) seqNot_lt
  refine ⟨t, ht, hvalue, fun i hi => ?_, hframe⟩
  rw [hvalue]
  exact limbOf_seqNot (readF_lt hs ra) hi

theorem exec_spow2 {e : Nat} (he : e < s.n) :
    ∃ t, exec (.spow2 rd e) s = .next t ∧ t.readF rd = 2 ^ e ∧
      (∀ i, limbOf s.W (t.readF rd) i = if i = e / s.W then 2 ^ (e % s.W) else 0) ∧
      Footprint.Frame { f := [rd] } s t := by
  obtain ⟨t, ht, hvalue, hframe⟩ := seqResult_stores rd (Nat.pow_lt_pow_right Nat.one_lt_two he)
  refine ⟨t, ?_, hvalue, fun i => ?_, hframe⟩
  · exact (congrArg Host.Outcome.next (if_neg (Nat.not_le.2 he))).trans ht
  · rw [hvalue]; exact limbOf_two_pow (W_pos hs)
end

/-! ### The statements -/

/-- Settles O17: both commands store the value and the flag of the value-level function. -/
theorem sequenceAddSubtract : Obligations.SequenceAddSubtract := fun rd ra rb _ hs =>
  ⟨RoundTrip.sadd rd ra rb rfl, RoundTrip.ssub rd ra rb rfl, exec_sadd hs rd ra rb, exec_ssub hs rd ra rb⟩

/-- Settles O18: the formulas of the shifts hold for every count, and a count below 4096 is what `imm` can hold. -/
theorem sequenceShift : Obligations.SequenceShift := fun rd ra k s hs hk =>
  ⟨RoundTrip.sshl rd ra k (decide_eq_true hk), RoundTrip.sshr rd ra k (decide_eq_true hk), exec_sshl rd ra k s,
    exec_sshr hs rd ra k⟩

/-- Settles O19: the codes of `CMP` tell the three outcomes of `seqCmp` apart. -/
theorem sequenceCompare : Obligations.SequenceCompare := fun ra rb s =>
  ⟨RoundTrip.scmp ra rb rfl, exec_scmp ra rb s⟩

/-- Settles O20: the bitwise functions act on each limb by itself, and `n` bits stay `n` bits. -/
theorem sequenceBitwise : Obligations.SequenceBitwise := fun rd ra rb s hs =>
  have ha := readF_lt hs ra
  have hb := readF_lt hs rb
  ⟨RoundTrip.sand rd ra rb rfl, RoundTrip.sor rd ra rb rfl, RoundTrip.sxor rd ra rb rfl, RoundTrip.snot rd ra rfl,
    seqResult_limbs rd (Nat.and_lt_two_pow _ hb) (limbOf_seqAnd s.W _ _),
    seqResult_limbs rd (Nat.or_lt_two_pow ha hb) (limbOf_seqOr s.W _ _),
    seqResult_limbs rd (Nat.xor_lt_two_pow ha hb) (limbOf_seqXor s.W _ _), exec_snot hs rd ra⟩

/-- Settles O21, by the two cases of the exponent. -/
theorem sequencePowerOfTwo : Obligations.SequencePowerOfTwo := fun rd _ _ hs he =>
  ⟨RoundTrip.spow2 rd _ (decide_eq_true he), exec_spow2 hs rd, exec_spow2_fault rd⟩

end Sys2Proof.Proofs.SequenceCommands
end

section
/-!
PROOFS. The commands on big integers (42_bigint.md R182 to R197): the zero test, the constants, the copy and the bit
length; and the samplers, each one draw from a range `[lo, hi)` that its register holds whole.
-/

namespace Sys2Proof.Proofs.BigIntCommands

open Sys2Proof.Machine Sys2Proof.Safety Sys2Proof.Laws
open Sys2Proof.Proofs.LimbCommands (writeL_readL_of_lt)
open Sys2Proof.Proofs.SequenceCommands (seqResult_stores readF_lt)

/-! ### A draw (R190, R191) -/

section
variable {i : Instr} {s : State} {lo hi size : Nat}

/-- Whatever the RNG answers, a draw is a value of its range. -/
theorem rngDraw_mem (s : State) (hsize : lo + size = hi) (hne : lo < hi) :
    lo ≤ s.rngDraw lo size ∧ s.rngDraw lo size < hi := by
  have hmod : Config.rng s.draws % size < size := Nat.mod_lt _ (by omega)
  exact ⟨Nat.le_add_right .., hsize ▸ Nat.add_lt_add_left hmod lo⟩

/-- A sample of a range that fits the register is stored as it was drawn, and nothing else changes. -/
theorem exec_sample {rd : Reg} (he : exec i s = .next (sampleResult rd lo size s)) (hsize : lo + size = hi)
    (hne : lo < hi) (hfits : hi ≤ 2 ^ s.n) :
    ∃ t, exec i s = .next t ∧ lo ≤ t.readF rd ∧ t.readF rd < hi ∧ Footprint.Frame { f := [rd] } s t := by
  obtain ⟨hlo, hhi⟩ := rngDraw_mem s hsize hne
  have hvalue : (sampleResult rd lo size s).readF rd = s.rngDraw lo size := by
    rw [sampleResult, State.tookDraws_readF, State.writeF_readF_same, Nat.mod_eq_of_lt (hhi.trans_le hfits)]
  rw [← hvalue] at hlo hhi
  exact ⟨_, he, hlo, hhi, Frame.tookDraws 1 (frame_writeF ..)⟩
end

/-! ### The commands -/

section
variable {s : State}

/-- `BISZ` in any state. -/
theorem exec_bisz (ra : Reg) (s : State) :
    ∃ t, exec (.bisz ra) s = .next t ∧ (t.status.t = true ↔ s.readF ra = 0) ∧ Footprint.Frame { t := true } s t :=
  ⟨_, rfl, seqIsZero_eq _, frame_setT ..⟩

/-- A range test that fails is recorded as `PRECOND_RANGE` (code 5), and nothing else changes. -/
theorem exec_precondRange {i : Instr} {empty : Prop} [Decidable empty] {body : State}
    (he : exec i s = .next (if empty then s.raise .precondRange (encode i) else body)) (h : empty) :
    exec i s = .next (recorded 5 (encode i) s) :=
  he.trans (congrArg Host.Outcome.next ((if_pos h).trans (raise_eq .precondRange _ s nofun)))

theorem exec_bsampu_empty (rd : Reg) {ra : Reg} (h : s.readF ra = 0) :
    exec (.bsampu rd ra) s = .next (recorded 5 (pack 0x36 rd ra 0 0) s) :=
  exec_precondRange rfl ((seqIsZero_eq _).2 h)

theorem exec_bsampr_empty (rd : Reg) {ra rb : Reg} (h : s.readF rb ≤ s.readF ra) :
    exec (.bsampr rd ra rb) s = .next (recorded 5 (pack 0x37 rd ra rb 0) s) :=
  exec_precondRange rfl fun hlt => Nat.not_lt.2 h ((seqCmp_eq _ _).1.1 hlt)

theorem exec_bsampri_empty (rd : Reg) {ra rb : Reg} (h : s.readF rb < s.readF ra) :
    exec (.bsampri rd ra rb) s = .next (recorded 5 (pack 0x39 rd ra rb 0) s) :=
  exec_precondRange rfl ((seqCmp_eq _ _).2.2.2 h)

variable (hs : InRange s) (rd : Reg) {ra rb : Reg}
include hs

theorem n_pos : 0 < s.n := Nat.lt_of_lt_of_le (by decide) (Geometry.legal.le_n hs.1)

/-- A bit position fits a limb: a value has at most 4096 bits, and a limb at least 32. -/
theorem n_lt_limb : s.n < 2 ^ s.W := by
  obtain ⟨⟨hW, _, hn⟩, _⟩ := hs
  have h32 : 32 ≤ s.W := by rcases hW with h | h <;> rw [State.W, h]; decide
  calc s.n ≤ 4096 := hn
    _ < 2 ^ 32 := by decide
    _ ≤ 2 ^ s.W := Nat.pow_le_pow_right (by decide) h32

theorem exec_bone :
    ∃ t, exec (.bone rd) s = .next t ∧ t.readF rd = 1 ∧ Footprint.Frame { f := [rd] } s t :=
  seqResult_stores rd (Nat.one_lt_two_pow (n_pos hs).ne')

theorem exec_bmsb (ra : Reg) :
    ∃ t, exec (.bmsb rd ra) s = .next t ∧ t.readL rd ≤ s.n ∧
      (s.readF ra = 0 → t.readL rd = 0) ∧
      (s.readF ra ≠ 0 → 1 ≤ t.readL rd ∧ 2 ^ (t.readL rd - 1) ≤ s.readF ra ∧ s.readF ra < 2 ^ t.readL rd) ∧
      Footprint.Frame { l := [rd] } s t := by
  have hle : bitLength (s.readF ra) ≤ s.n := bitLength_le (readF_lt hs ra)
  have hvalue : (s.writeL rd (seqMsb (s.readF ra))).readL rd = bitLength (s.readF ra) :=
    writeL_readL_of_lt rd (hle.trans_lt (n_lt_limb hs))
  refine ⟨_, rfl, ?_⟩
  rw [hvalue]
  refine ⟨hle, fun h => by rw [h, bitLength_zero], fun h => ?_, frame_writeL ..⟩
  exact ⟨by rw [bitLength_pos h]; exact Nat.le_add_left .., two_pow_le_of_bitLength h, lt_two_pow_bitLength _⟩

theorem exec_bsampnz :
    ∃ t, exec (.bsampnz rd) s = .next t ∧ 1 ≤ t.readF rd ∧ t.readF rd < 2 ^ s.n ∧
      Footprint.Frame { f := [rd] } s t :=
  have hne : 1 < 2 ^ s.n := Nat.one_lt_two_pow (n_pos hs).ne'
  exec_sample rfl (Nat.add_sub_cancel' hne.le) hne le_rfl

theorem exec_bsampui (ra : Reg) :
    ∃ t, exec (.bsampui rd ra) s = .next t ∧ t.readF rd ≤ s.readF ra ∧ Footprint.Frame { f := [rd] } s t := by
  obtain ⟨t, ht, _, hlt, hframe⟩ :=
    exec_sample (i := .bsampui rd ra) rfl (Nat.zero_add _) (Nat.succ_pos (s.readF ra)) (readF_lt hs ra)
  exact ⟨t, ht, Nat.le_of_lt_succ hlt, hframe⟩

theorem exec_bsampu (h : s.readF ra ≠ 0) :
    ∃ t, exec (.bsampu rd ra) s = .next t ∧ t.readF rd < s.readF ra ∧ Footprint.Frame { f := [rd] } s t := by
  have hrange : ¬ seqIsZero (s.readF ra) = true := fun hz => h ((seqIsZero_eq _).1 hz)
  obtain ⟨t, ht, _, hlt, hframe⟩ :=
    exec_sample (i := .bsampu rd ra) (congrArg Host.Outcome.next (if_neg hrange)) (Nat.zero_add _)
      (Nat.pos_of_ne_zero h) (readF_lt hs ra).le
  exact ⟨t, ht, hlt, hframe⟩

theorem exec_bsampr (h : s.readF ra < s.readF rb) :
    ∃ t, exec (.bsampr rd ra rb) s = .next t ∧ s.readF ra ≤ t.readF rd ∧ t.readF rd < s.readF rb ∧
      Footprint.Frame { f := [rd] } s t := by
  have hrange : ¬ seqCmp (s.readF ra) (s.readF rb) ≠ .lt := not_not.2 ((seqCmp_eq _ _).1.2 h)
  exact exec_sample (congrArg Host.Outcome.next (if_neg hrange)) (Nat.add_sub_cancel' h.le) h (readF_lt hs rb).le

theorem exec_bsampri (h : s.readF ra ≤ s.readF rb) :
    ∃ t, exec (.bsampri rd ra rb) s = .next t ∧ s.readF ra ≤ t.readF rd ∧ t.readF rd ≤ s.readF rb ∧
      Footprint.Frame { f := [rd] } s t := by
  have hrange : ¬ seqCmp (s.readF ra) (s.readF rb) = .gt := fun hgt => Nat.not_lt.2 h ((seqCmp_eq _ _).2.2.1 hgt)
  have hsize : s.readF ra + (s.readF rb - s.readF ra + 1) = s.readF rb + 1 := by omega
  obtain ⟨t, ht, hge, hlt, hframe⟩ :=
    exec_sample (i := .bsampri rd ra rb) (congrArg Host.Outcome.next (if_neg hrange)) hsize (Nat.lt_succ_of_le h)
      (readF_lt hs rb)
  exact ⟨t, ht, hge, Nat.le_of_lt_succ hlt, hframe⟩
end

/-- `BSAMP` in any state: its range is all the register can hold. -/
theorem exec_bsamp (rd : Reg) (s : State) :
    ∃ t, exec (.bsamp rd) s = .next t ∧ t.readF rd < 2 ^ s.n ∧ Footprint.Frame { f := [rd] } s t := by
  obtain ⟨t, ht, _, hlt, hframe⟩ :=
    exec_sample (i := .bsamp rd) rfl (Nat.zero_add _) (Nat.two_pow_pos s.n) le_rfl
  exact ⟨t, ht, hlt, hframe⟩

/-! ### The statements -/

/-- Settles O25: the zero test of the value, and three stores of a value that fits. -/
theorem bigIntTestConstantsCopy : Obligations.BigIntTestConstantsCopy := fun rd ra s hs =>
  ⟨RoundTrip.bisz ra rfl, RoundTrip.bzero rd rfl, RoundTrip.bone rd rfl, RoundTrip.bmov rd ra rfl, exec_bisz ra s,
    seqResult_stores rd (Nat.two_pow_pos s.n), exec_bone hs rd, seqResult_stores rd (readF_lt hs ra)⟩

/-- Settles O26: the bit length of a value fits a limb, so `BMSB` stores it as it is. -/
theorem bigIntMostSignificantBit : Obligations.BigIntMostSignificantBit := fun rd ra _ hs =>
  ⟨RoundTrip.bmsb rd ra rfl, exec_bmsb hs rd ra⟩

/-- Settles O27: the three ranges are never empty. -/
theorem samplersWithoutFault : Obligations.SamplersWithoutFault := fun rd ra s hs =>
  ⟨RoundTrip.bsamp rd rfl, RoundTrip.bsampnz rd rfl, RoundTrip.bsampui rd ra rfl, exec_bsamp rd s, exec_bsampnz hs rd,
    exec_bsampui hs rd ra⟩

/-- Settles O28: each command's test is whether its range is empty. -/
theorem samplersWithBounds : Obligations.SamplersWithBounds := fun rd ra rb _ hs =>
  ⟨RoundTrip.bsampu rd ra rfl, RoundTrip.bsampr rd ra rb rfl, RoundTrip.bsampri rd ra rb rfl, exec_bsampu hs rd,
    exec_bsampu_empty rd, exec_bsampr hs rd, exec_bsampr_empty rd, exec_bsampri hs rd, exec_bsampri_empty rd⟩

end Sys2Proof.Proofs.BigIntCommands
end

section
/-!
PROOFS. The add-group functions (43_addgroup.md R211 to R215): the value each leaves on every register content, by what
its one correction by `M` does, and the laws that hold below `M` (R222).
-/

namespace Sys2Proof.Proofs.GroupProcedures

open Sys2Proof.Machine Sys2Proof.Proofs.SequenceProcedures

section
variable {n M a b t : Nat}

/-! ### The value on every content (R210) -/

/-- The correction subtracts `M` after a carry or from `M` on, and drops the borrow. -/
theorem reduceOnce_formula (n M : Nat) (c : Bool) (v : Nat) :
    reduceOnce n M c v = if c = true ∨ M ≤ v then (v + 2 ^ n - M) % 2 ^ n else v := by
  have hcmp : (seqCmp v M != .lt) = true ↔ M ≤ v := by rw [bne_iff_ne, ne_eq, (seqCmp_eq v M).1, Nat.not_lt]
  simp only [reduceOnce, seqSub, Bool.or_eq_true, hcmp]

theorem reduceOnce_lt {c : Bool} {v : Nat} (hv : v < 2 ^ n) : reduceOnce n M c v < 2 ^ n := by
  rw [reduceOnce_formula]
  split
  · exact Nat.mod_lt _ (Nat.two_pow_pos n)
  · exact hv

theorem gAdd_formula (n M a b : Nat) : gAdd n M a b =
    if 2 ^ n ≤ a + b ∨ M ≤ (a + b) % 2 ^ n then ((a + b) % 2 ^ n + 2 ^ n - M) % 2 ^ n else (a + b) % 2 ^ n := by
  simp only [gAdd, reduceOnce_formula, seqAdd, decide_eq_true_eq]

theorem gSub_formula (ha : a < 2 ^ n) :
    gSub n M a b = if a < b then ((a + 2 ^ n - b) % 2 ^ n + M) % 2 ^ n else a - b := by
  rcases Nat.lt_or_ge a b with h | h
  · simp only [gSub, seqSub, seqAdd, h, decide_true, if_true]
  · rw [gSub, seqSub_of_le ha h, if_neg (Nat.not_lt.2 h)]
    exact if_neg (by simpa [seqSub] using h)

theorem gNeg_formula (n M a : Nat) : gNeg n M a = if a = 0 then 0 else (M + 2 ^ n - a) % 2 ^ n := by
  simp only [gNeg, seqIsZero_eq, seqSub]

theorem gDoubleCf_formula (n M t : Nat) : gDoubleCf n M t =
    if M ≤ 2 * t % 2 ^ n then (2 * t % 2 ^ n + 2 ^ n - M) % 2 ^ n else 2 * t % 2 ^ n := by
  simp only [gDoubleCf, reduceOnce_formula, seqShl_eq, Nat.pow_one, Nat.mul_comm t, Bool.false_eq_true, false_or]

/-! ### The width -/

theorem gAdd_lt_width : gAdd n M a b < 2 ^ n := reduceOnce_lt (Nat.mod_lt _ (Nat.two_pow_pos n))

theorem gSub_lt_width (ha : a < 2 ^ n) : gSub n M a b < 2 ^ n := by
  rw [gSub_formula ha]
  split
  · exact Nat.mod_lt _ (Nat.two_pow_pos n)
  · exact (Nat.sub_le ..).trans_lt ha

theorem gNeg_lt_width : gNeg n M a < 2 ^ n := by
  rw [gNeg_formula]
  split
  · exact Nat.two_pow_pos n
  · exact Nat.mod_lt _ (Nat.two_pow_pos n)

theorem gMp2_lt_width (ha : a < 2 ^ n) : ∀ K, gMp2 n M a K < 2 ^ n
  | 0 => ha
  | _ + 1 => reduceOnce_lt (shl_lt ..)

theorem gMp2Cf_lt_width (ha : a < 2 ^ n) : ∀ K, gMp2Cf n M a K < 2 ^ n
  | 0 => ha
  | _ + 1 => reduceOnce_lt (shl_lt ..)

/-! ### The powers of two as iterations -/

/-- A one-bit left shift is the sum of the value with itself, and the bit shifted out its carry. -/
theorem seqAdd_self (hn : 0 < n) (ht : t < 2 ^ n) : seqAdd n t t = (seqShl n t 1, topBit n t) := by
  have hpow : 2 ^ (n - 1) * 2 = 2 ^ n := Nat.two_pow_pred_mul_two hn
  have hcarry : decide (2 ^ n ≤ t + t) = topBit n t := by
    rw [Bool.eq_iff_iff, decide_eq_true_iff, topBit_iff hn ht]; omega
  rw [seqAdd, seqShl_eq, Nat.pow_one, Nat.mul_two, hcarry]

theorem gDouble_eq_gAdd (hn : 0 < n) (ht : t < 2 ^ n) : gDouble n M t = gAdd n M t t := by
  rw [gDouble, gAdd, seqAdd_self hn ht]

/-- `GMp2` is `K` doublings by `GAdd` on every content. -/
theorem gMp2_eq_iterate (hn : 0 < n) (ha : a < 2 ^ n) (K : Nat) :
    gMp2 n M a K = (fun x => gAdd n M x x)^[K] a := by
  induction K with
  | zero => rfl
  | succ K ih => rw [gMp2, gDouble_eq_gAdd hn (gMp2_lt_width ha K), ih, Function.iterate_succ_apply']

theorem gMp2Cf_eq_iterate (n M a K : Nat) : gMp2Cf n M a K = (gDoubleCf n M)^[K] a := by
  induction K with
  | zero => rfl
  | succ K ih => rw [gMp2Cf, ih, Function.iterate_succ_apply']

theorem gMp2_formula (hn : 0 < n) (ha : a < 2 ^ n) (K : Nat) : gMp2 n M a K =
    (fun v => if 2 ^ n ≤ 2 * v ∨ M ≤ 2 * v % 2 ^ n then (2 * v % 2 ^ n + 2 ^ n - M) % 2 ^ n
      else 2 * v % 2 ^ n)^[K] a := by
  simp only [gMp2_eq_iterate hn ha, gAdd_formula, Nat.two_mul]

theorem gMp2Cf_formula (n M a K : Nat) : gMp2Cf n M a K =
    (fun v => if M ≤ 2 * v % 2 ^ n then (2 * v % 2 ^ n + 2 ^ n - M) % 2 ^ n else 2 * v % 2 ^ n)^[K] a := by
  rw [gMp2Cf_eq_iterate, funext (gDoubleCf_formula n M)]

/-! ### The laws below `M` (R222) -/

section
variable (hM : M < 2 ^ n) (ha : a < M)
include hM ha

theorem gSub_self : gSub n M a a = 0 := by
  rw [gSub_eq hM ha ha, Nat.add_sub_cancel_left, Nat.mod_self]

theorem gAdd_gNeg : gAdd n M a (gNeg n M a) = 0 := by
  rw [gAdd_eq hM ha (gNeg_lt hM ha), gNeg_eq hM ha, Nat.add_mod_mod, Nat.add_sub_cancel' ha.le, Nat.mod_self]

/-- `gMp2_eq` down to the width 1, which the geometry excludes but R222 does not. -/
theorem gMp2_eq_of_pos (hn : 0 < n) (K : Nat) : gMp2 n M a K = 2 ^ K * a % M := by
  induction K with
  | zero => rw [gMp2, Nat.pow_zero, Nat.one_mul, Nat.mod_eq_of_lt ha]
  | succ K ih =>
    have hlt : 2 ^ K * a % M < M := Nat.mod_lt _ (Nat.zero_lt_of_lt ha)
    rw [gMp2, ih, gDouble_eq_gAdd hn (hlt.trans hM), gAdd_eq hM hlt hlt, ← Nat.two_mul, Nat.mul_mod_mod,
      ← Nat.mul_assoc, ← Nat.pow_succ']
end

/-- A spare top bit above a nonzero modulus leaves `n` two bits or more, so `gMp2Cf_eq` applies. -/
theorem gMp2Cf_eq_gMp2 (hM : M < 2 ^ (n - 1)) (ha : a < M) (K : Nat) : gMp2Cf n M a K = gMp2 n M a K := by
  have hn : 2 ≤ n := by
    by_contra h
    rw [show n - 1 = 0 by omega, Nat.pow_zero] at hM
    omega
  have hMn : M < 2 ^ n := hM.trans_le (Nat.pow_le_pow_right (by decide) (Nat.sub_le ..))
  rw [gMp2Cf_eq hn hM ha, gMp2_eq hn hMn ha]
end

/-- Settles O32: the values modulo `M`, and `GMp2` as iterated doubling. -/
theorem addGroupLaws : Obligations.AddGroupLaws := fun _ _ _ _ K hn hM ha hb =>
  ⟨gAdd_lt hM ha hb, gSub_self hM ha, gAdd_gNeg hM ha, gMp2_eq_iterate hn (ha.trans hM) 1,
    gMp2_eq_iterate hn (ha.trans hM) K, gMp2_eq_of_pos hM ha hn K, fun hspare => gMp2Cf_eq_gMp2 hspare ha K⟩

end Sys2Proof.Proofs.GroupProcedures
end

section
/-!
PROOFS. The add-group commands (43_addgroup.md R216 to R220): under a committed configuration each stores the value of
its function on every register content (R210); `GMP2CF` only where `M` has a spare top bit.
-/

namespace Sys2Proof.Proofs.GroupCommands

open Sys2Proof.Machine Sys2Proof.Safety Sys2Proof.Laws Sys2Proof.Proofs.GroupProcedures
open Sys2Proof.Proofs.SequenceCommands (seqResult_stores readF_lt)
open Sys2Proof.Proofs.Curve (modulus)

/-- Command `i` completes from `s` with `v` in `f[rd]` and changes nothing else. -/
def Stores (i : Instr) (s : State) (rd : Reg) (v : Nat) : Prop :=
  ∃ t, exec i s = .next t ∧ t.readF rd = v ∧ Footprint.Frame { f := [rd] } s t

section
variable {i : Instr} {s : State} {rd : Reg} {v w : Nat}

theorem Stores.of_eq (h : Stores i s rd v) (hvalue : v = w) : Stores i s rd w := hvalue ▸ h

theorem Stores.value (h : Stores i s rd v) (hvalue : v = w) : ∃ t, exec i s = .next t ∧ t.readF rd = w := by
  obtain ⟨t, ht, hread, _⟩ := h
  exact ⟨t, ht, hread.trans hvalue⟩

variable (hs : Configured s)
include hs

theorem exec_of_requireCfg {body : State} (he : exec i s = requireCfg i s body) : exec i s = .next body :=
  he.trans (requireCfg_on hs.2)

/-- A configured command whose body is one store of a value that fits. -/
theorem stores_of_requireCfg (he : exec i s = requireCfg i s (s.writeF rd v)) (hv : v < 2 ^ s.n) :
    Stores i s rd v := by
  rw [Stores, exec_of_requireCfg hs he]
  exact seqResult_stores rd hv

theorem operand_lt (r : Reg) : s.readF r < 2 ^ s.n := by
  obtain ⟨⟨hrange, _⟩, _⟩ := hs
  exact readF_lt hrange r

theorem width_pos : 0 < s.n := Nat.zero_lt_of_lt (modulus hs).width

theorem topBit_mod_iff : topBit s.n s.mod = true ↔ 2 ^ (s.n - 1) ≤ s.mod :=
  topBit_iff (width_pos hs) (modulus hs).lt
end

section
variable {s : State} (hs : Configured s) (rd ra rb : Reg) (k : Nat)
include hs

theorem exec_gadd : Stores (.gadd rd ra rb) s rd (gAdd s.n s.mod (s.readF ra) (s.readF rb)) :=
  stores_of_requireCfg hs rfl gAdd_lt_width

theorem exec_gsub : Stores (.gsub rd ra rb) s rd (gSub s.n s.mod (s.readF ra) (s.readF rb)) :=
  stores_of_requireCfg hs rfl (gSub_lt_width (operand_lt hs ra))

theorem exec_gneg : Stores (.gneg rd ra) s rd (gNeg s.n s.mod (s.readF ra)) :=
  stores_of_requireCfg hs rfl gNeg_lt_width

theorem exec_gmp2 : Stores (.gmp2 rd ra k) s rd (gMp2 s.n s.mod (s.readF ra) k) :=
  stores_of_requireCfg hs rfl (gMp2_lt_width (operand_lt hs ra) k)

theorem exec_gmp2cf (hspare : s.mod < 2 ^ (s.n - 1)) :
    Stores (.gmp2cf rd ra k) s rd (gMp2Cf s.n s.mod (s.readF ra) k) := by
  have htop : ¬ topBit s.n s.mod = true := fun h => Nat.not_le.2 hspare ((topBit_mod_iff hs).1 h)
  exact stores_of_requireCfg hs (congrArg (requireCfg _ s) (if_neg htop)) (gMp2Cf_lt_width (operand_lt hs ra) k)

theorem exec_gmp2cf_fault (hfull : 2 ^ (s.n - 1) ≤ s.mod) :
    exec (.gmp2cf rd ra k) s = .next (recorded 6 (pack 0x44 rd ra 0 k) s) := by
  have hraise : exec (.gmp2cf rd ra k) s =
      requireCfg (.gmp2cf rd ra k) s (s.raise .precondVariant (encode (.gmp2cf rd ra k))) :=
    congrArg (requireCfg _ s) (if_pos ((topBit_mod_iff hs).2 hfull))
  exact (exec_of_requireCfg hs hraise).trans (congrArg Host.Outcome.next (raise_eq .precondVariant _ s nofun))
end

/-! ### The statements -/

/-- Settles O29: the values stored, for operands below `M`. -/
theorem groupAddSubtractNegate : Obligations.GroupAddSubtractNegate := fun rd ra rb _ hs =>
  have hM := (modulus hs).lt
  ⟨RoundTrip.gadd rd ra rb rfl, RoundTrip.gsub rd ra rb rfl, RoundTrip.gneg rd ra rfl,
    fun ha hb => ⟨(exec_gadd hs rd ra rb).of_eq (gAdd_eq hM ha hb), (exec_gsub hs rd ra rb).of_eq (gSub_eq hM ha hb)⟩,
    fun ha => (exec_gneg hs rd ra).of_eq (gNeg_eq hM ha)⟩

/-- Settles O30: the values stored, for an operand below `M`; the test of `GMP2CF` is the top bit of `M`. -/
theorem groupMultiplyByPowerOfTwo : Obligations.GroupMultiplyByPowerOfTwo := fun rd ra k _ hs hk =>
  have hmod := modulus hs
  ⟨RoundTrip.gmp2 rd ra k (decide_eq_true hk), RoundTrip.gmp2cf rd ra k (decide_eq_true hk),
    fun ha => (exec_gmp2 hs rd ra k).of_eq (gMp2_eq hmod.width hmod.lt ha k),
    fun hspare ha => (exec_gmp2cf hs rd ra k hspare).of_eq (gMp2Cf_eq hmod.width hspare ha k),
    exec_gmp2cf_fault hs rd ra k⟩

/-- Settles O31: the values stored, by the formulas that hold on every content. -/
theorem groupAlgorithmsOnAnyContent : Obligations.GroupAlgorithmsOnAnyContent := fun rd ra rb k _ hs =>
  have ha := operand_lt hs ra
  ⟨(exec_gadd hs rd ra rb).value (gAdd_formula ..), (exec_gsub hs rd ra rb).value (gSub_formula ha),
    (exec_gneg hs rd ra).value (gNeg_formula ..), (exec_gmp2 hs rd ra k).value (gMp2_formula (width_pos hs) ha k),
    fun hspare => (exec_gmp2cf hs rd ra k hspare).value (gMp2Cf_formula ..)⟩

end Sys2Proof.Proofs.GroupCommands
end

section
/-!
PROOFS. The two Montgomery multipliers meet the contract of the product (44_field_mont.md R232, R234, R235): each leaves
an accumulator below `2*M` that times `R` is `a*b` plus a multiple of `M`, and the final subtraction reduces it.
-/

namespace Sys2Proof.Proofs.Multipliers

open Sys2Proof.Machine Sys2Proof.Proofs.LimbProcedures

/-! ### The contract without the inverse of `R` -/

/-- The product is the one residue that times `R` is `a*b` (R232). -/
theorem mod_eq_montMul_iff {n M a b v : Nat} (hodd : M % 2 = 1) :
    v % M = montMul n M a b ↔ v * 2 ^ n % M = a * b % M := by
  have hinv := two_pow_mul_rInv (n := n) hodd
  rw [montMul, ← ZMod.natCast_eq_natCast_iff', ← ZMod.natCast_eq_natCast_iff']
  push_cast
  constructor <;> intro h
  · rw [h]; linear_combination (a * b : ZMod M) * hinv
  · linear_combination (rInv n M : ZMod M) * h - (v : ZMod M) * hinv

/-- What a multiplier shows of its accumulator before the final subtraction. -/
theorem montMul_of_accumulator {n M a b v q : Nat} (hodd : M % 2 = 1) (h : v * 2 ^ n = a * b + M * q) :
    v % M = montMul n M a b := by
  rw [mod_eq_montMul_iff hodd, h, Nat.add_mul_mod_self_left]

/-! ### The limbs of the modulus and of the operands -/

/-- An odd modulus of limbs `m0 :: ms`, and an `MPRIME` that makes a reduction row clear the low limb (R231). -/
structure Reducer (W mprime m0 : Nat) (ms : List Nat) : Prop where
  width : 0 < W
  limbs : ∀ x ∈ m0 :: ms, x < 2 ^ W
  odd : ofLimbs W (m0 :: ms) % 2 = 1
  factor : (mprime * m0 + 1) % 2 ^ W = 0

/-- The limbs of a value below the modulus. -/
structure Operand (W : Nat) (mod a : List Nat) : Prop where
  length : a.length = mod.length
  limbs : ∀ x ∈ a, x < 2 ^ W
  lt : ofLimbs W a < ofLimbs W mod

/-- A limb procedure meets the contract of R232 for the modulus and the operands above. -/
def MeetsContract (mul : Nat → Nat → List Nat → List Nat → List Nat → List Nat) : Prop :=
  ∀ (W mprime m0 : Nat) (ms a b : List Nat), Reducer W mprime m0 ms → Operand W (m0 :: ms) a →
    Operand W (m0 :: ms) b → mul W mprime (m0 :: ms) a b =
      toLimbs W (ms.length + 1)
        (montMul ((ms.length + 1) * W) (ofLimbs W (m0 :: ms)) (ofLimbs W a) (ofLimbs W b))

/-- Values have such limbs: an odd modulus below `2^(N*W)` is at least one limb of at least one bit. -/
theorem MeetsContract.on_values {mul : Nat → Nat → List Nat → List Nat → List Nat → List Nat}
    (h : MeetsContract mul) {W N M mprime a b : Nat} (hodd : M % 2 = 1) (hM : M < 2 ^ (N * W))
    (hm : (mprime * (M % 2 ^ W) + 1) % 2 ^ W = 0) (ha : a < M) (hb : b < M) :
    mul W mprime (toLimbs W N M) (toLimbs W N a) (toLimbs W N b) = toLimbs W N (montMul (N * W) M a b) := by
  have hNW : N * W ≠ 0 := fun h => by rw [h, pow_zero] at hM; omega
  obtain ⟨hN, hW⟩ := Nat.mul_ne_zero_iff.1 hNW
  obtain ⟨k, rfl⟩ := Nat.exists_eq_succ_of_ne_zero hN
  have hvM : ofLimbs W (toLimbs W (k + 1) M) = M := ofLimbs_toLimbs_of_lt hM
  have operand {v : Nat} (hv : v < M) : Operand W (toLimbs W (k + 1) M) (toLimbs W (k + 1) v) :=
    ⟨by simp, fun _ => mem_toLimbs_lt, by rwa [hvM, ofLimbs_toLimbs_of_lt (hv.trans hM)]⟩
  have hr : Reducer W mprime (M % 2 ^ W) (toLimbs W k (M / 2 ^ W)) := by
    refine ⟨Nat.pos_of_ne_zero hW, ?_, ?_, hm⟩ <;> rw [← toLimbs_succ]
    · exact fun _ => mem_toLimbs_lt
    · rwa [hvM]
  have hmul := h W mprime _ _ (toLimbs W (k + 1) a) (toLimbs W (k + 1) b) hr
    (by rw [← toLimbs_succ]; exact operand ha) (by rw [← toLimbs_succ]; exact operand hb)
  rwa [← toLimbs_succ, hvM, ofLimbs_toLimbs_of_lt (ha.trans hM), ofLimbs_toLimbs_of_lt (hb.trans hM),
    length_toLimbs] at hmul

section
variable {W mprime m0 : Nat} {ms : List Nat}

/-- An accumulator below `2*M` that times `R` is the product up to multiples of `M` ends as the contract's value. -/
theorem montFinish_eq_montMul (hr : Reducer W mprime m0 ms) {us : List Nat} {top a b q : Nat}
    (hl : us.length = ms.length + 1) (hus : ∀ x ∈ us, x < 2 ^ W)
    (hlt : accVal W (us, top) < 2 * ofLimbs W (m0 :: ms))
    (hq : accVal W (us, top) * 2 ^ ((ms.length + 1) * W) = a * b + ofLimbs W (m0 :: ms) * q) :
    montFinish W (m0 :: ms) us top =
      toLimbs W (ms.length + 1) (montMul ((ms.length + 1) * W) (ofLimbs W (m0 :: ms)) a b) := by
  rw [montFinish_spec (by simpa using hl) hr.limbs hus hlt, montMul_of_accumulator hr.odd hq, List.length_cons]

/-! ### CIOS (R234) -/

/-- The accumulator of CIOS between two iterations. -/
structure CiosAcc (W : Nat) (mod : List Nat) (t : List Nat × Nat) : Prop where
  length : t.1.length = mod.length
  limbs : ∀ x ∈ t.1, x < 2 ^ W
  top : t.2 < 2 ^ W
  lt : accVal W t < 2 * ofLimbs W mod

/-- Over all limbs of `b` the iterations keep the accumulator below `2*M`, add the product and multiples of `M`, and
divide by `2^W` each time. -/
theorem foldl_ciosIter_spec (hr : Reducer W mprime m0 ms) {a : List Nat} (ha : Operand W (m0 :: ms) a)
    (bs : List Nat) (hb : ∀ x ∈ bs, x < 2 ^ W) (t : List Nat × Nat) (ht : CiosAcc W (m0 :: ms) t) :
    CiosAcc W (m0 :: ms) (bs.foldl (ciosIter W mprime (m0 :: ms) a) t) ∧
      ∃ q, accVal W (bs.foldl (ciosIter W mprime (m0 :: ms) a) t) * 2 ^ (bs.length * W) =
        accVal W t + ofLimbs W a * ofLimbs W bs + ofLimbs W (m0 :: ms) * q := by
  induction bs generalizing t with
  | nil => exact ⟨ht, 0, by simp [ofLimbs]⟩
  | cons b bs ih =>
    obtain ⟨hlength, hlimbs, htop, hlt, q, hq⟩ := ciosIter_spec hr.width ha.length ht.length hr.limbs ha.limbs
      ht.limbs ht.top (hb b (by simp)) hr.factor ha.lt ht.lt
    obtain ⟨hacc, p, hp⟩ := ih (fun x hx => hb x (by simp [hx])) _ ⟨hlength, hlimbs, htop, hlt⟩
    refine ⟨hacc, q + 2 ^ W * p, ?_⟩
    rw [List.foldl_cons, List.length_cons, Nat.succ_mul, pow_add, ofLimbs]
    linear_combination 2 ^ W * hp + hq

/-- The accumulator CIOS starts from. -/
theorem ciosAcc_zero {mod : List Nat} (hM : 0 < ofLimbs W mod) :
    CiosAcc W mod (mod.map fun _ => 0, 0) ∧ accVal W (mod.map fun _ => 0, 0) = 0 := by
  have hzero : ofLimbs W (mod.map fun _ => 0) = 0 := ofLimbs_eq_zero.2 (by simp)
  have hval : accVal W (mod.map fun _ => 0, 0) = 0 := by rw [accVal, hzero, Nat.zero_mul]
  exact ⟨⟨by simp, by simp, Nat.two_pow_pos W, by omega⟩, hval⟩

theorem meetsContract_cios : MeetsContract cios := by
  intro W mprime m0 ms a b hr ha hb
  obtain ⟨hinit, hzero⟩ := ciosAcc_zero (Nat.zero_lt_of_lt ha.lt)
  obtain ⟨hacc, q, hq⟩ := foldl_ciosIter_spec hr ha b hb.limbs _ hinit
  rw [hzero, Nat.zero_add, hb.length] at hq
  exact montFinish_eq_montMul hr hacc.length hacc.limbs hacc.lt hq

/-! ### SOS (R235) -/

/-- `T` of SOS with `k` reduction rows still to do, the limbs cleared by the rows done dropped. -/
structure SosAcc (W : Nat) (mod : List Nat) (k : Nat) (T : List Nat) : Prop where
  length : T.length = mod.length + k + 1
  limbs : ∀ x ∈ T, x < 2 ^ W
  lt : ofLimbs W T < ofLimbs W mod * 2 ^ (k * W) + ofLimbs W mod

/-- The low limbs that a reduction row works on, and the limbs its carry runs up. -/
theorem SosAcc.split {k : Nat} {T : List Nat} (hT : SosAcc W (m0 :: ms) k T) :
    ∃ t0 ts vs, T = (t0 :: ts) ++ vs ∧ ts.length = ms.length ∧ vs.length = k + 1 := by
  have hlength := hT.length
  cases T with
  | nil => simp at hlength
  | cons t0 T =>
    simp only [List.length_cons] at hlength
    exact ⟨t0, T.take ms.length, T.drop ms.length, by simp, by simp; omega, by simp; omega⟩

/-- The bounds of a reduction row, in numbers: `T + M*q` divided by `2^W` keeps below the next row's bound, and so its
part `y` above the low limbs fits the limbs there are for it. -/
theorem sosRow_bounds {N k M T q x y : Nat} (hW : 0 < W) (hM : M < 2 ^ ((N + 1) * W)) (hq : q < 2 ^ W)
    (hT : T < M * 2 ^ ((k + 1) * W) + M) (hsum : (x + 2 ^ (N * W) * y) * 2 ^ W = T + M * q) :
    x + 2 ^ (N * W) * y < M * 2 ^ (k * W) + M ∧ y < 2 ^ ((k + 2) * W) := by
  have hbound : x + 2 ^ (N * W) * y < M * 2 ^ (k * W) + M := by
    refine lt_of_mul_lt_mul_right (a := 2 ^ W) ?_ (Nat.zero_le _)
    calc (x + 2 ^ (N * W) * y) * 2 ^ W < M * 2 ^ ((k + 1) * W) + M + M * q := by omega
      _ = M * 2 ^ (k * W) * 2 ^ W + M * (q + 1) := by ring
      _ ≤ M * 2 ^ (k * W) * 2 ^ W + M * 2 ^ W := by gcongr; exact hq
      _ = (M * 2 ^ (k * W) + M) * 2 ^ W := by ring
  refine ⟨hbound, lt_of_mul_lt_mul_left (a := 2 ^ (N * W)) ?_ (Nat.zero_le _)⟩
  calc 2 ^ (N * W) * y < M * 2 ^ (k * W) + M := by omega
    _ ≤ M * 2 ^ (k * W) + M * 2 ^ (k * W) := by gcongr; exact Nat.le_mul_of_pos_right _ (Nat.two_pow_pos _)
    _ = 2 ^ 1 * (M * 2 ^ (k * W)) := by ring
    _ ≤ 2 ^ W * (2 ^ ((N + 1) * W) * 2 ^ (k * W)) := by
      gcongr
      · decide
      · exact hW
    _ = 2 ^ (N * W) * 2 ^ ((k + 2) * W) := by ring

/-- A row of the reduction adds a multiple of `M` that clears the low limb, and its carry never leaves the last limb. -/
theorem sosReduce_row (hr : Reducer W mprime m0 ms) {k : Nat} {T : List Nat} (hT : SosAcc W (m0 :: ms) (k + 1) T) :
    ∃ T', sosReduce W mprime (m0 :: ms) (k + 1) T = sosReduce W mprime (m0 :: ms) k T' ∧
      SosAcc W (m0 :: ms) k T' ∧
      ∃ q, ofLimbs W T' * 2 ^ W = ofLimbs W T + ofLimbs W (m0 :: ms) * q := by
  obtain ⟨t0, ts, vs, rfl, hts, hvs⟩ := hT.split
  obtain ⟨-, hlimbs, hlt⟩ := hT
  obtain ⟨xs, hrow, hxs, hxlimbs, hc, hval⟩ := reduceRow_spec (W := W) hts
    (fun x hx => hlimbs x (List.mem_append_left _ hx)) hr.limbs hr.factor
  have hq := (montFactor_spec (W := W) (t0 := t0) (ts := ts) hr.factor).1
  have hnext : sosReduce W mprime (m0 :: ms) (k + 1) ((t0 :: ts) ++ vs) = sosReduce W mprime (m0 :: ms) k
      (xs ++ carryUp W vs (macRow W (t0 :: ts) (m0 :: ms) (montFactor W mprime (t0 :: ts)) 0).2) := by
    have hlen : (t0 :: ts).length = (m0 :: ms).length := by simp [hts]
    have hhead : montFactor W mprime ((t0 :: ts) ++ vs) = montFactor W mprime (t0 :: ts) := rfl
    rw [sosReduce, List.take_left' hlen, List.drop_left' hlen, hhead, hrow, List.cons_append, List.tail_cons]
  generalize montFactor W mprime (t0 :: ts) = q at *
  generalize (macRow W (t0 :: ts) (m0 :: ms) q 0).2 = c at *
  obtain ⟨hclength, hclimbs, hcarry⟩ :=
    carryUp_spec (W := W) vs c (fun x hx => hlimbs x (List.mem_append_right _ hx)) hc
  have hmod := ofLimbs_lt hr.limbs
  set M := ofLimbs W (m0 :: ms)
  rw [ofLimbs_append] at hlt
  -- the row's value: what the low limbs gain is what the carry and the limbs left of them hold
  have hsum : (ofLimbs W xs + 2 ^ (ms.length * W) * (ofLimbs W vs + c)) * 2 ^ W =
      ofLimbs W (t0 :: ts) + 2 ^ ((t0 :: ts).length * W) * ofLimbs W vs + M * q := by
    rw [List.length_cons, hts, Nat.succ_mul, pow_add]
    rw [hts, Nat.succ_mul, pow_add] at hval
    linear_combination hval
  obtain ⟨hbound, hfit⟩ := sosRow_bounds hr.width hmod hq hlt hsum
  rw [← hvs] at hfit
  have hvalue : ofLimbs W (xs ++ carryUp W vs c) = ofLimbs W xs + 2 ^ (ms.length * W) * (ofLimbs W vs + c) := by
    rw [ofLimbs_append, hcarry hfit, hxs, hts]
  refine ⟨_, hnext, ⟨?length, ?limbs, ?lt⟩, q, ?value⟩
  case length => simp only [List.length_append, List.length_cons, hclength, hvs, hxs, hts]; omega
  case limbs => exact fun x hx => (List.mem_append.1 hx).elim (hxlimbs x) (hclimbs x)
  case lt => rwa [hvalue]
  case value => rw [hvalue, ofLimbs_append, hsum]

/-- The reduction of `k` rows adds multiples of `M` and divides by `2^(k*W)`. -/
theorem sosReduce_spec (hr : Reducer W mprime m0 ms) (k : Nat) (T : List Nat) (hT : SosAcc W (m0 :: ms) k T) :
    SosAcc W (m0 :: ms) 0 (sosReduce W mprime (m0 :: ms) k T) ∧
      ∃ q, ofLimbs W (sosReduce W mprime (m0 :: ms) k T) * 2 ^ (k * W) = ofLimbs W T + ofLimbs W (m0 :: ms) * q := by
  induction k generalizing T with
  | zero => exact ⟨hT, 0, by simp [sosReduce]⟩
  | succ k ih =>
    obtain ⟨T', hnext, hT', q, hq⟩ := sosReduce_row hr hT
    obtain ⟨hacc, p, hp⟩ := ih T' hT'
    rw [hnext]
    refine ⟨hacc, q + 2 ^ W * p, ?_⟩
    rw [Nat.succ_mul, pow_add]
    linear_combination 2 ^ W * hp + hq

/-- The schoolbook product of two values below `M`, a zero limb above it, is what SOS reduces. -/
theorem sosAcc_schoolbook {mod a b : List Nat} (hmod : ∀ x ∈ mod, x < 2 ^ W) (ha : Operand W mod a)
    (hb : Operand W mod b) :
    SosAcc W mod mod.length (schoolbook W a b (mod.map fun _ => 0) ++ [0]) ∧
      ofLimbs W (schoolbook W a b (mod.map fun _ => 0) ++ [0]) = ofLimbs W a * ofLimbs W b := by
  have hpos : 0 < a.length := by
    rw [ha.length]
    exact List.length_pos_of_ne_nil fun h => by have := ha.lt; simp [h, ofLimbs] at this
  have hzero : ofLimbs W (mod.map fun _ => 0) = 0 := ofLimbs_eq_zero.2 (by simp)
  obtain ⟨hlength, hlimbs, hval⟩ :=
    schoolbook_spec ha.limbs b (mod.map fun _ => 0) (by simp [ha.length]) hpos hb.limbs (by simp)
  have hproduct : ofLimbs W (schoolbook W a b (mod.map fun _ => 0) ++ [0]) = ofLimbs W a * ofLimbs W b := by
    rw [ofLimbs_append, hval, hzero]; simp [ofLimbs]
  refine ⟨⟨?length, ?limbs, ?lt⟩, hproduct⟩
  case length => rw [List.length_append, hlength, ha.length, hb.length, List.length_singleton]
  case limbs =>
    intro x hx
    rcases List.mem_append.1 hx with h | h
    · exact hlimbs x h
    · rw [List.mem_singleton.1 h]; exact Nat.two_pow_pos W
  case lt =>
    have hbR : ofLimbs W b ≤ 2 ^ (mod.length * W) := (hb.lt.trans (ofLimbs_lt hmod)).le
    rw [hproduct]
    exact (Nat.mul_le_mul ha.lt.le hbR).trans_lt (Nat.lt_add_of_pos_right (Nat.zero_lt_of_lt ha.lt))

/-- With no row left to do, `T` is the `N` limbs and the limb above them that the final subtraction takes. -/
theorem SosAcc.accVal_eq {mod T : List Nat} (hT : SosAcc W mod 0 T) :
    (T.take mod.length).length = mod.length ∧
      accVal W (T.take mod.length, (T.drop mod.length).headD 0) = ofLimbs W T := by
  have hlength := hT.length
  have htake : (T.take mod.length).length = mod.length := by simp; omega
  obtain ⟨top, htop⟩ := List.length_eq_one_iff.1 (show (T.drop mod.length).length = 1 by simp; omega)
  refine ⟨htake, ?_⟩
  rw [← List.take_append_drop mod.length T, ofLimbs_append]
  simp [accVal, htop, htake, ofLimbs, Nat.mul_comm]

theorem meetsContract_sos : MeetsContract sos := by
  intro W mprime m0 ms a b hr ha hb
  obtain ⟨hinit, hproduct⟩ := sosAcc_schoolbook hr.limbs ha hb
  obtain ⟨hacc, q, hq⟩ := sosReduce_spec hr _ _ hinit
  obtain ⟨htake, hval⟩ := hacc.accVal_eq
  have hlt := hacc.lt
  rw [Nat.zero_mul, pow_zero, Nat.mul_one, ← Nat.two_mul, ← hval] at hlt
  rw [hproduct, ← hval] at hq
  exact montFinish_eq_montMul hr htake (fun x hx => hacc.limbs x (List.mem_of_mem_take hx)) hlt hq
end

/-! ### The statements -/

/-- Settles O36: the iterations of CIOS leave the accumulator that the contract asks for. -/
theorem ciosMeetsContract : Obligations.CiosMeetsContract :=
  fun _ _ _ _ _ _ hodd hM _ hm ha hb => meetsContract_cios.on_values hodd hM hm ha hb

/-- Settles O37: the reduction rows of SOS leave the accumulator that the contract asks for. -/
theorem sosMeetsContract : Obligations.SosMeetsContract :=
  fun _ _ _ _ _ _ hodd hM _ hm ha hb => meetsContract_sos.on_values hodd hM hm ha hb

end Sys2Proof.Proofs.Multipliers
end

section
/-!
PROOFS. The Montgomery commands (44_field_mont.md R237 to R242): under a committed configuration each stores the value
of its function, for operands below `M`; and the laws that runs of them obey under a valid configuration (R243).
-/

namespace Sys2Proof.Proofs.FieldCommands

open Sys2Proof.Machine Sys2Proof.Safety Sys2Proof.Laws Sys2Proof.Proofs.Effects
open Sys2Proof.Proofs.Curve (modulus)
open Sys2Proof.Proofs.Steps (inv_effect)
open Sys2Proof.Proofs.GroupCommands (Stores)
open Sys2Proof.Proofs.Multipliers (mod_eq_montMul_iff)

/-! ### The functions -/

section
variable {n M x y v base : Nat}

/-- `to_montgomery(a) = a*R mod M` (R238). -/
theorem montMul_montRR (hodd : M % 2 = 1) (a : Nat) : montMul n M a (montRR n M) = mont n M a := by
  refine ((mod_eq_montMul_iff hodd).2 ?_).symm
  rw [montRR, Nat.mul_mod_mod, Nat.two_mul, pow_add, Nat.mul_assoc]

/-- `from_montgomery(a) = a*R⁻¹ mod M` (R239). -/
theorem montMul_one (a : Nat) : montMul n M a 1 = unmont n M a := by rw [montMul, Nat.mul_one, unmont]

/-- The plain value of a register below `M` is the residue it stands for. -/
theorem unmont_eq (hx : x < M) (h : elt n M v = x) : unmont n M v = x := by
  rw [elt, ZMod.natCast_eq_natCast_iff', unmont, Nat.mod_mod, Nat.mod_eq_of_lt hx] at h
  exact h

/-- Property (3) of R243. -/
theorem unmont_mont (hodd : M % 2 = 1) (hx : x < M) : unmont n M (mont n M x) = x :=
  unmont_eq hx (elt_mont hodd x)

/-- Property (4) of R243. -/
theorem unmont_montMul_mont (hodd : M % 2 = 1) (hxy : x * y < M) :
    unmont n M (montMul n M (mont n M x) (mont n M y)) = x * y :=
  unmont_eq hxy (by rw [elt_montMul, elt_mont hodd, elt_mont hodd, Nat.cast_mul])

/-- Property (6) of R243: Fermat's theorem, with the exponent `M`. -/
theorem montPow_modulus (hodd : M % 2 = 1) (hp : M.Prime) (hb : base < M) :
    montPow n M (montOne n M) base M = base := by
  have : Fact M.Prime := ⟨hp⟩
  rw [← elt_inj (n := n) hodd (montPow_lt hp.pos (montOne_lt hp.pos)) hb, elt_montPow hodd, ZMod.pow_card]

/-- Property (6) of R243: Fermat's theorem, with the exponent `M - 1`. -/
theorem montPow_modulus_sub_one (hodd : M % 2 = 1) (hp : M.Prime) (hb : base < M) (h0 : base ≠ 0) :
    montPow n M (montOne n M) base (M - 1) = montOne n M := by
  have : Fact M.Prime := ⟨hp⟩
  have helt : elt n M base ≠ 0 := fun h => h0 ((elt_eq_zero hodd hb).1 h)
  rw [eq_montOne_iff hodd (montPow_lt hp.pos (montOne_lt hp.pos)), elt_montPow hodd,
    ZMod.pow_card_sub_one_eq_one helt]
end

/-! ### The products -/

section
variable {s : State} (hs : Configured s)
include hs

theorem configSound : ConfigSound s := by
  obtain ⟨⟨_, _, hsound⟩, hok⟩ := hs
  exact hsound hok

theorem fieldOk_iff {a : Nat} : s.fieldOk a = true ↔ a < s.mod := by
  simp [State.fieldOk, (configChecks_iff s).2 (configSound hs)]

/-- A configured command whose body stores a Montgomery product of operands below `M`. -/
theorem stores_montMul {i : Instr} {rd : Reg} {a b : Nat}
    (he : exec i s = requireCfg i s (fieldResult rd (s.mulOrFree a b) s)) (ha : a < s.mod) (hb : b < s.mod) :
    Stores i s rd (montMul s.n s.mod a b) := by
  have hmod := modulus hs
  have hvalue : s.mulOrFree a b = montMul s.n s.mod a b :=
    if_pos (by rw [(fieldOk_iff hs).2 ha, (fieldOk_iff hs).2 hb]; rfl)
  have hfits : montMul s.n s.mod a b < 2 ^ s.n := (montMul_lt hmod.pos a b).trans hmod.lt
  rw [hvalue] at he
  refine ⟨_, he.trans (requireCfg_on hs.2), ?_, Frame.tookDraws 1 (frame_writeF ..)⟩
  rw [fieldResult, State.tookDraws_readF, State.writeF_readF_same, Nat.mod_eq_of_lt hfits]

variable (rd ra rb : Reg) (ha : s.readF ra < s.mod)
include ha

theorem exec_fmul (hb : s.readF rb < s.mod) :
    Stores (.fmul rd ra rb) s rd (montMul s.n s.mod (s.readF ra) (s.readF rb)) := stores_montMul hs rfl ha hb

theorem exec_ftom : Stores (.ftom rd ra) s rd (montMul s.n s.mod (s.readF ra) s.rr) := by
  obtain ⟨_, _, _, hrr, _⟩ := configSound hs
  exact stores_montMul hs rfl ha hrr

theorem exec_ffromm : Stores (.ffromm rd ra) s rd (montMul s.n s.mod (s.readF ra) 1) := by
  obtain ⟨_, h3, _⟩ := configSound hs
  exact stores_montMul hs rfl ha (by omega)
end

/-- Settles O33: each command stores the product of its operands by the contract. -/
theorem montgomeryProducts : Obligations.MontgomeryProducts := by
  intro rd ra rb s hs ha
  have hmod := modulus hs
  have below (a b : Nat) : montMul s.n s.mod a b < s.mod := montMul_lt hmod.pos a b
  have contract (a b : Nat) : montMul s.n s.mod a b * 2 ^ s.n % s.mod = a * b % s.mod :=
    (mod_eq_montMul_iff hmod.odd).1 (Nat.mod_eq_of_lt (below a b))
  refine ⟨RoundTrip.ftom rd ra rfl, RoundTrip.ffromm rd ra rfl, RoundTrip.fmul rd ra rb rfl, fun hb => ?fmul,
    ?ftom, ?ffromm⟩
  case fmul =>
    obtain ⟨t, ht, hread, hframe⟩ := exec_fmul hs rd ra rb ha hb
    exact ⟨t, ht, hread ▸ below _ _, hread ▸ contract _ _, hframe⟩
  case ftom =>
    obtain ⟨t, ht, hread, hframe⟩ := exec_ftom hs rd ra ha
    refine ⟨t, ht, hread ▸ below _ _, hread ▸ contract _ _, fun hrr => ?_, hframe⟩
    rw [hread, hrr]
    exact montMul_montRR hmod.odd _
  case ffromm =>
    obtain ⟨t, ht, hread, hframe⟩ := exec_ffromm hs rd ra ha
    refine ⟨t, ht, hread ▸ below _ _, ?_, hframe⟩
    rw [hread, contract, Nat.mul_one, Nat.mod_eq_of_lt ha]

/-! ### The powers -/

/-- A command with a workspace that stores a result: it completes, and of the `f` registers only the destination, with
the result, and the window are changed. -/
theorem exec_windowed {i : Instr} {s : State} {rd ws : Reg} {k v : Nat} {operands : List Reg}
    (hok : s.status.cfgok = true) (hw : WindowGood ws k operands) (hrd : rd ∈ operands)
    (he : exec i s = requireCfg i s (requireWs i ws k operands s ((fieldResult rd v s).scratch ws k))) :
    ∃ t, exec i s = .next t ∧ t.readF rd = v % 2 ^ s.n ∧ Footprint.Frame { f := rd :: window ws k } s t := by
  have hout : ¬ inWindow ws k rd = true := by
    rw [inWindow_iff]
    have := hw.2 rd hrd
    omega
  refine ⟨_, he.trans (require_both hok hw), ?_, Frame.scratch ws k (Frame.tookDraws 1 (frame_writeF s rd v))⟩
  rw [State.scratch_readF, if_neg hout, fieldResult, State.tookDraws_readF, State.writeF_readF_same]

section
variable {s : State} (hs : Configured s)
include hs

/-- The power of a base below `M` fits the register it is stored in. -/
theorem powOrFree_mod (hone : s.rone = montOne s.n s.mod) {base : Nat} (hb : base < s.mod) (e : Nat) :
    s.powOrFree base e % 2 ^ s.n = montPow s.n s.mod (montOne s.n s.mod) base e := by
  have hmod := modulus hs
  rw [State.powOrFree, if_pos ((fieldOk_iff hs).2 hb), hone,
    Nat.mod_eq_of_lt ((montPow_lt hmod.pos (montOne_lt hmod.pos)).trans hmod.lt)]

/-- What `FPOW` and `FPOWL` leave in their destination, for a base below `M`. -/
theorem power_spec (hone : s.rone = montOne s.n s.mod) {base e v : Nat} (hv : v = s.powOrFree base e % 2 ^ s.n)
    (hb : base < s.mod) : (e = 0 → v = s.rone) ∧ v < s.mod ∧ elem s v = elem s base ^ e := by
  have hmod := modulus hs
  rw [powOrFree_mod hs hone hb] at hv
  subst hv
  refine ⟨?zero, montPow_lt hmod.pos (montOne_lt hmod.pos), elt_montPow hmod.odd base e⟩
  case zero => rintro rfl; exact hone.symm
end

/-- Settles O35: both commands store the power, of an exponent in `f` or in `l`. -/
theorem fieldPower : Obligations.FieldPower := by
  intro rd ra rb ws s hs hone
  refine ⟨RoundTrip.fpow rd ra rb ws rfl, RoundTrip.fpowl rd ra rb ws rfl, fun hw => ?fpow, fun hw => ?fpowl⟩
  case fpow =>
    obtain ⟨t, ht, hread, hframe⟩ := exec_windowed (i := .fpow rd ra rb ws) hs.2 hw (by simp) rfl
    exact ⟨t, ht, power_spec hs hone hread, hframe⟩
  case fpowl =>
    obtain ⟨t, ht, hread, hframe⟩ := exec_windowed (i := .fpowl rd ra rb ws) hs.2 hw (by simp) rfl
    exact ⟨t, ht, power_spec hs hone hread, hframe⟩

/-! ### Runs under a valid configuration (R243) -/

/-- In `t` the configuration of `s` still stands, and of the `f` registers only `rd` is changed, to `v`. -/
structure After (s : State) (rd : Reg) (v : Nat) (t : State) : Prop where
  valid : ValidConfig t
  mod : t.mod = s.mod
  width : t.n = s.n
  stored : t.readF rd = v
  kept : ∀ r, r ≠ rd → t.readF r = s.readF r

section
variable {s : State} (hs : ValidConfig s)
include hs

/-- A command that only stores a value leaves the configuration valid. -/
theorem after_stores {i : Instr} {rd : Reg} {v : Nat} (h : Stores i s rd v) :
    ∃ t, exec i s = .next t ∧ After s rd v t := by
  obtain ⟨⟨hinv, hok⟩, hprime, hrr, hrone⟩ := hs
  obtain ⟨t, hexec, hread, hframe⟩ := h
  obtain ⟨t', hexec', heffect⟩ := executes s i
  cases hexec.symm.trans hexec'
  obtain ⟨_, hf, _, _, _, _, hcfgok, _, _, hmod, _, hrr', hrone', _, _, hgeom, _, _⟩ := hframe
  have hn : t.n = s.n := congrArg Geometry.n hgeom
  refine ⟨t, hexec, ⟨⟨inv_effect hinv heffect, (hcfgok rfl).trans hok⟩, ?_, ?_, ?_⟩, hmod, hn, hread,
    fun r hr => hf r (by simpa using hr)⟩
  · rwa [hmod]
  · rw [hmod, hn, hrr', hrr]
  · rw [hmod, hn, hrone', hrone]

theorem odd_of_valid : s.mod % 2 = 1 := (modulus hs.1).odd

theorem after_ftom (rd ra : Reg) (ha : s.readF ra < s.mod) :
    ∃ t, exec (.ftom rd ra) s = .next t ∧ After s rd (mont s.n s.mod (s.readF ra)) t := by
  have hrr : s.rr = montRR s.n s.mod := hs.2.2.1
  have h := exec_ftom hs.1 rd ra ha
  rw [hrr, montMul_montRR (odd_of_valid hs)] at h
  exact after_stores hs h

theorem after_ffromm (rd ra : Reg) (ha : s.readF ra < s.mod) :
    ∃ t, exec (.ffromm rd ra) s = .next t ∧ After s rd (unmont s.n s.mod (s.readF ra)) t := by
  have h := exec_ffromm hs.1 rd ra ha
  rw [montMul_one] at h
  exact after_stores hs h

/-- `FTOM` then `FFROMM` gives the value back. -/
theorem runs_roundTrip (ra r1 r2 : Reg) (ha : s.readF ra < s.mod) :
    ∃ t, Runs [.ftom r1 ra, .ffromm r2 r1] s t ∧ t.readF r2 = s.readF ra := by
  have hodd := odd_of_valid hs
  obtain ⟨t1, h1, a1⟩ := after_ftom hs r1 ra ha
  obtain ⟨t2, h2, a2⟩ := after_ffromm a1.valid r2 r1 (by
    rw [a1.stored, a1.mod]; exact Nat.mod_lt _ (Nat.zero_lt_of_lt ha))
  refine ⟨t2, ⟨t1, h1, t2, h2, rfl⟩, ?_⟩
  rw [a2.stored, a1.stored, a1.mod, a1.width, unmont_mont hodd ha]

/-- `FMUL` between the conversions multiplies plain values whose product is below `M`. -/
theorem runs_product (ra rb r1 r2 r3 : Reg) (h1b : r1 ≠ rb) (h12 : r1 ≠ r2) (ha : s.readF ra < s.mod)
    (hb : s.readF rb < s.mod) (hab : s.readF ra * s.readF rb < s.mod) :
    ∃ t, Runs [.ftom r1 ra, .ftom r2 rb, .fmul r3 r1 r2, .ffromm r3 r3] s t ∧
      t.readF r3 = s.readF ra * s.readF rb := by
  have h0 : 0 < s.mod := Nat.zero_lt_of_lt ha
  have hmont (x : Nat) : mont s.n s.mod x < s.mod := Nat.mod_lt _ h0
  obtain ⟨t1, h1, a1⟩ := after_ftom hs r1 ra ha
  have hrb : t1.readF rb = s.readF rb := a1.kept rb h1b.symm
  obtain ⟨t2, h2, a2⟩ := after_ftom a1.valid r2 rb (by rwa [hrb, a1.mod])
  have hmod2 : t2.mod = s.mod := a2.mod.trans a1.mod
  have hn2 : t2.n = s.n := a2.width.trans a1.width
  have hr1 : t2.readF r1 = mont s.n s.mod (s.readF ra) := (a2.kept r1 h12).trans a1.stored
  have hr2 : t2.readF r2 = mont s.n s.mod (s.readF rb) := by rw [a2.stored, a1.mod, a1.width, hrb]
  obtain ⟨t3, h3, a3⟩ := after_stores a2.valid (exec_fmul a2.valid.1 r3 r1 r2
    (by rw [hr1, hmod2]; exact hmont _) (by rw [hr2, hmod2]; exact hmont _))
  have hr3 : t3.readF r3 = montMul s.n s.mod (mont s.n s.mod (s.readF ra)) (mont s.n s.mod (s.readF rb)) := by
    rw [a3.stored, hr1, hr2, hmod2, hn2]
  have hmod3 : t3.mod = s.mod := a3.mod.trans hmod2
  obtain ⟨t4, h4, a4⟩ := after_ffromm a3.valid r3 r3 (by rw [hr3, hmod3]; exact montMul_lt h0 _ _)
  refine ⟨t4, ⟨t1, h1, t2, h2, t3, h3, t4, h4, rfl⟩, ?_⟩
  rw [a4.stored, hr3, hmod3, a3.width.trans hn2, unmont_montMul_mont (odd_of_valid hs) hab]

/-- `FPOW` of a base below `M`, under a valid configuration. -/
theorem exec_fpow_valid (rd ra rb ws : Reg) (hw : WindowGood ws 1 [rd, ra, rb]) (ha : s.readF ra < s.mod) :
    ∃ t, exec (.fpow rd ra rb ws) s = .next t ∧
      t.readF rd = montPow s.n s.mod (montOne s.n s.mod) (s.readF ra) (s.readF rb) := by
  obtain ⟨hcfg, _, _, hone⟩ := hs
  obtain ⟨t, ht, hread, _⟩ := exec_windowed (i := .fpow rd ra rb ws) hcfg.2 hw (by simp) rfl
  exact ⟨t, ht, hread.trans (powOrFree_mod hcfg hone ha _)⟩
end

/-- Settles O34: the runs of the conversions, the product of limbs being below `M`, and Fermat's theorem for `FPOW`. -/
theorem montgomeryFormLaws : Obligations.MontgomeryFormLaws := by
  intro s hs
  have hodd := odd_of_valid hs
  have ⟨_, hprime, _, hone⟩ := hs
  refine ⟨runs_roundTrip hs, fun ra rb r1 r2 r3 h1b h12 hwide ha hb => ?product, fun rd ra rb ws hw ha => ?power⟩
  case product =>
    have hlimb : 2 ^ s.W ≤ 2 ^ (2 * s.W) := Nat.pow_le_pow_right (by decide) (by omega)
    have hab : s.readF ra * s.readF rb < s.mod := by
      calc s.readF ra * s.readF rb ≤ 2 ^ s.W * 2 ^ s.W := Nat.mul_le_mul ha.le hb.le
        _ = 2 ^ (2 * s.W) := by rw [Nat.two_mul, pow_add]
        _ < s.mod := hwide
    exact runs_product hs ra rb r1 r2 r3 h1b h12 (by omega) (by omega) hab
  case power =>
    obtain ⟨t, ht, hread⟩ := exec_fpow_valid hs rd ra rb ws hw ha
    refine ⟨fun he => ⟨t, ht, ?_⟩, fun he h0 => ⟨t, ht, ?_⟩⟩
    · rw [hread, he, montPow_modulus hodd hprime ha]
    · rw [hread, he, montPow_modulus_sub_one hodd hprime ha h0]
      exact hone.symm

end Sys2Proof.Proofs.FieldCommands
end

section
/-!
PROOFS. `FINV` (45_field_inv_sqrt.md R260 to R262): the value stored for an operand that is not zero, and the fault for
zero.
-/

namespace Sys2Proof.Proofs.FieldInverse

open Sys2Proof.Machine Sys2Proof.Safety Sys2Proof.Laws
open Sys2Proof.Proofs.Curve (modulus)
open Sys2Proof.Proofs.FieldCommands (fieldOk_iff exec_windowed)

/-! ### The Montgomery inverse -/

section
variable {n M a x : Nat}

theorem cast_mul_montInv (hM : 1 < M) (hg : Nat.gcd a M = 1) : (a : ZMod M) * (montInv n M a : Nat) = 2 ^ (2 * n) := by
  have h := (modInv_spec hM hg).2
  rw [montInv, ZMod.natCast_mod]
  push_cast
  linear_combination 2 ^ (2 * n) * h

/-- A product that is `R²` as a residue is so as a number (R260). -/
theorem mul_mod_of_cast (h : (a : ZMod M) * x = 2 ^ (2 * n)) : a * x % M = 2 ^ (2 * n) % M := by
  rw [← ZMod.natCast_eq_natCast_iff']
  push_cast
  exact h

/-- The contract of R260 has one solution below `M`. -/
theorem eq_montInv (hM : 1 < M) (hg : Nat.gcd a M = 1) (hx : x < M) (h : (a : ZMod M) * x = 2 ^ (2 * n)) :
    x = montInv n M a := by
  have hprod : a * x % M = a * montInv n M a % M :=
    (mul_mod_of_cast h).trans (mul_mod_of_cast (cast_mul_montInv hM hg)).symm
  have hcancel : x % M = montInv n M a % M := Nat.ModEq.cancel_left_of_coprime (Nat.gcd_comm M a ▸ hg) hprod
  rwa [Nat.mod_eq_of_lt hx, Nat.mod_eq_of_lt (montInv_lt (by omega) a)] at hcancel

/-- An inverse is not 0. -/
theorem montInv_pos (hodd : M % 2 = 1) (hM : 1 < M) (hg : Nat.gcd a M = 1) : 1 ≤ montInv n M a := by
  have : Fact (1 < M) := ⟨hM⟩
  refine Nat.pos_of_ne_zero fun h0 => zero_ne_one (α := ZMod M) ?_
  rw [← elt_montInv (n := n) hodd hM hg, h0, elt_zero, zero_mul]

/-- What is neither 0 nor `M` or more is prime to a prime `M`. -/
theorem gcd_eq_one_of_lt_prime (hp : M.Prime) (h1 : 1 ≤ a) (ha : a < M) : Nat.gcd a M = 1 :=
  (Nat.coprime_of_lt_prime (Nat.ne_of_gt h1) ha hp).symm
end

/-! ### The command -/

theorem exec_finv_eq (rd ra ws : Reg) (s : State) : exec (.finv rd ra ws) s =
    requireCfg (.finv rd ra ws) s (requireWs (.finv rd ra ws) ws 3 [rd, ra] s
      (if seqIsZero (s.readF ra) then s.raise .undefinedInverse (encode (.finv rd ra ws))
       else (fieldResult rd (if s.invOk (s.readF ra) then montInv s.n s.mod (s.readF ra) else s.free 0) s).scratch
         ws 3)) := rfl

section
variable {s : State} {rd ra ws : Reg} (hw : WindowGood ws 3 [rd, ra])
include hw

theorem exec_finv (hs : ValidConfig s) (h1 : 1 ≤ s.readF ra) (ha : s.readF ra < s.mod) :
    ∃ t, exec (.finv rd ra ws) s = .next t ∧ t.readF rd = montInv s.n s.mod (s.readF ra) ∧
      Footprint.Frame { f := rd :: window ws 3 } s t := by
  obtain ⟨hcfg, hprime, hrr, _⟩ := hs
  have hmod := modulus hcfg
  have hok : s.invOk (s.readF ra) = true := by
    simp [State.invOk, (fieldOk_iff hcfg).2 ha, gcd_eq_one_of_lt_prime hprime h1 ha, hrr, montRR]
  have hnonzero : ¬ seqIsZero (s.readF ra) = true := by rw [seqIsZero_eq]; omega
  have hfits : montInv s.n s.mod (s.readF ra) < 2 ^ s.n := (montInv_lt hmod.pos _).trans hmod.lt
  have hexec := exec_finv_eq rd ra ws s
  rw [if_neg hnonzero, if_pos hok] at hexec
  obtain ⟨t, ht, hread, hframe⟩ := exec_windowed hcfg.2 hw (by simp) hexec
  exact ⟨t, ht, hread.trans (Nat.mod_eq_of_lt hfits), hframe⟩

theorem exec_finv_zero (hok : s.status.cfgok = true) (h0 : s.readF ra = 0) :
    exec (.finv rd ra ws) s = .next (recorded 8 (pack 0x55 rd ra 0 ws) s) := by
  have hzero : seqIsZero (s.readF ra) = true := (seqIsZero_eq _).2 h0
  rw [exec_finv_eq, require_both hok hw, if_pos hzero, raise_eq .undefinedInverse _ _ nofun]
  rfl
end

/-- Settles O38: the value stored is the inverse by the contract, and `elt_montInv` says so of the field elements. -/
theorem fieldInverse : Obligations.FieldInverse := by
  intro rd ra ws s hw
  refine ⟨RoundTrip.finv rd ra ws rfl, fun hs h1 ha => ?_, exec_finv_zero hw⟩
  have ⟨hcfg, hprime, _, _⟩ := hs
  have hodd := (modulus hcfg).odd
  have hM : 1 < s.mod := hprime.one_lt
  have hg := gcd_eq_one_of_lt_prime hprime h1 ha
  obtain ⟨t, ht, hread, hframe⟩ := exec_finv hw hs h1 ha
  refine ⟨t, ht, ?_, ?_, ?_, ?_, hframe⟩ <;> rw [hread]
  · exact montInv_pos hodd hM hg
  · exact montInv_lt hprime.pos _
  · exact mul_mod_of_cast (cast_mul_montInv hM hg)
  · exact (mul_comm ..).trans (elt_montInv hodd hM hg)

end Sys2Proof.Proofs.FieldInverse
end

section
/-!
PROOFS. `FSQRT` (45_field_inv_sqrt.md R270 to R272): the destination and `T` for zero, a residue and a non-residue.
-/

namespace Sys2Proof.Proofs.SquareRoot

open Sys2Proof.Machine Sys2Proof.Safety Sys2Proof.Laws
open Sys2Proof.Proofs.Curve (modulus)
open Sys2Proof.Proofs.FieldCommands (fieldOk_iff)
open Sys2Proof.Proofs.Multipliers (mod_eq_montMul_iff)

/-! ### Roots -/

section
variable {n M a r : Nat}

/-- `r` is a root of `a` in the field of R270. -/
def IsRoot (n M a r : Nat) : Prop := r < M ∧ montMul n M r r = a

/-- A root in terms of plain numbers. -/
theorem IsRoot.mul_self (hodd : M % 2 = 1) (ha : a < M) (h : IsRoot n M a r) : r * r % M = a * 2 ^ n % M :=
  ((mod_eq_montMul_iff hodd).1 ((Nat.mod_eq_of_lt ha).trans h.2.symm)).symm

theorem isRoot_zero (hM : 0 < M) : IsRoot n M 0 0 := ⟨hM, by simp [montMul]⟩

theorem isResidue_iff_exists_root (hp : M.Prime) (hodd : M % 2 = 1) (ha : a < M) (h0 : a ≠ 0) :
    isResidue n M a = true ↔ ∃ r, IsRoot n M a r := by
  rw [isResidue_iff hp hodd ha h0]
  constructor
  · rintro ⟨r, -, hroot⟩
    exact ⟨r, hroot⟩
  · rintro ⟨r, hr, hsq⟩
    refine ⟨r, Nat.pos_of_ne_zero ?_, hr, hsq⟩
    rintro rfl
    exact h0 (by simpa [montMul] using hsq.symm)

/-- The other root. -/
theorem IsRoot.gNeg (hodd : M % 2 = 1) (hM : M < 2 ^ n) (h : IsRoot n M a r) : IsRoot n M a (gNeg n M r) := by
  obtain ⟨hr, rfl⟩ := h
  have hpos : 0 < M := Nat.zero_lt_of_lt hr
  refine ⟨gNeg_lt hM hr, (elt_inj (n := n) hodd (montMul_lt hpos ..) (montMul_lt hpos ..)).1 ?_⟩
  rw [elt_montMul, elt_montMul, elt_gNeg hM hr, neg_mul_neg]
end

/-! ### The command -/

/-- What R271 asks of the destination's value `v` and of `T` for the operand `a`. -/
structure Answers (n M a v : Nat) (T : Bool) : Prop where
  exists_iff : T = true ↔ ∃ r, IsRoot n M a r
  root : T = true → IsRoot n M a v
  zero : a = 0 → v = 0

/-- What `FSQRT` leaves before its window is taken. -/
def sqrtBody (rd ra : Reg) (s : State) : State :=
  if seqIsZero (s.readF ra) && s.zeroRootOk then (s.writeF rd 0).setT true
  else if s.sqrtOk (s.readF ra) then
    if isResidue s.n s.mod (s.readF ra) then (s.writeF rd (s.drawRoot (s.readF ra))).setT true
    else (s.writeF rd (s.free 0)).setT false
  else (s.writeF rd (s.free 0)).setT (s.freeBit 1)

theorem exec_fsqrt_eq (rd ra ws : Reg) (s : State) : exec (.fsqrt rd ra ws) s =
    requireCfg (.fsqrt rd ra ws) s (requireWs (.fsqrt rd ra ws) ws 5 [rd, ra] s
      (((sqrtBody rd ra s).tookDraws 2).scratch ws 5)) := rfl

/-- With the value and `T` known, `FSQRT` completes and changes nothing else but the window. -/
theorem exec_fsqrt_of_body {s : State} {rd ra ws : Reg} {v : Nat} {T : Bool} (hok : s.status.cfgok = true)
    (hw : WindowGood ws 5 [rd, ra]) (hbody : sqrtBody rd ra s = (s.writeF rd v).setT T) :
    ∃ t, exec (.fsqrt rd ra ws) s = .next t ∧ t.readF rd = v % 2 ^ s.n ∧ t.status.t = T ∧
      Footprint.Frame { f := rd :: window ws 5, t := true } s t := by
  have hout : ¬ inWindow ws 5 rd = true := by
    rw [inWindow_iff]
    have := hw.2 rd (by simp)
    omega
  refine ⟨_, (exec_fsqrt_eq rd ra ws s).trans (require_both hok hw), ?_, ?_, ?_⟩ <;> rw [hbody]
  · rw [State.scratch_readF, if_neg hout]
    simp
  · rfl
  · exact Frame.scratch ws 5 (Frame.tookDraws 2 (frame_writeF_setT s rd v T))

section
variable {s : State} (hs : ValidConfig s) {rd ra : Reg} (ha : s.readF ra < s.mod)
include hs ha

theorem drawRoot_isRoot (h0 : s.readF ra ≠ 0) (hres : isResidue s.n s.mod (s.readF ra) = true) :
    IsRoot s.n s.mod (s.readF ra) (s.drawRoot (s.readF ra)) := by
  obtain ⟨hcfg, hprime, _⟩ := hs
  have hmod := modulus hcfg
  obtain ⟨-, hroot⟩ := montSqrt_spec hprime hmod.odd ha h0 hres
  rw [State.drawRoot]
  split
  · exact IsRoot.gNeg hmod.odd hmod.lt hroot
  · exact hroot

theorem sqrtBody_answers : ∃ v T, sqrtBody rd ra s = (s.writeF rd v).setT T ∧
    Answers s.n s.mod (s.readF ra) (v % 2 ^ s.n) T := by
  have ⟨hcfg, hprime, _, hrone⟩ := hs
  have hmod := modulus hcfg
  have hfits {v : Nat} (h : IsRoot s.n s.mod (s.readF ra) v) : v % 2 ^ s.n = v := Nat.mod_eq_of_lt (h.1.trans hmod.lt)
  by_cases h0 : s.readF ra = 0
  · have hroot : IsRoot s.n s.mod (s.readF ra) 0 := by
      rw [h0]
      exact isRoot_zero hmod.pos
    refine ⟨0, true, if_pos (by simp [h0, seqIsZero, State.zeroRootOk, hprime]), ?_⟩
    rw [hfits hroot]
    exact ⟨iff_of_true rfl ⟨0, hroot⟩, fun _ => hroot, fun _ => rfl⟩
  have hexists := isResidue_iff_exists_root (n := s.n) hprime hmod.odd ha h0
  have hsqrt : sqrtBody rd ra s = if isResidue s.n s.mod (s.readF ra) then
      (s.writeF rd (s.drawRoot (s.readF ra))).setT true else (s.writeF rd (s.free 0)).setT false := by
    have hok : s.sqrtOk (s.readF ra) = true := by
      simp [State.sqrtOk, (fieldOk_iff hcfg).2 ha, hrone, montOne, hprime]
    exact (if_neg (by simp [seqIsZero, h0])).trans (if_pos hok)
  cases hres : isResidue s.n s.mod (s.readF ra) with
  | true =>
    have hroot : IsRoot s.n s.mod (s.readF ra) (s.drawRoot (s.readF ra)) := drawRoot_isRoot hs ha h0 hres
    refine ⟨_, true, hsqrt.trans (if_pos hres), ?_⟩
    rw [hfits hroot]
    exact ⟨iff_of_true rfl ⟨_, hroot⟩, fun _ => hroot, fun h => absurd h h0⟩
  | false =>
    have hnone : ¬ ∃ r, IsRoot s.n s.mod (s.readF ra) r := by rw [← hexists, hres]; exact nofun
    exact ⟨_, false, hsqrt.trans (if_neg (by simp [hres])), iff_of_false nofun hnone, nofun, fun h => absurd h h0⟩
end

/-- Settles O39: the three kinds of operand, and in plain numbers what a root is. -/
theorem fieldSquareRoot : Obligations.FieldSquareRoot := by
  intro rd ra ws s hs ha hw
  have ⟨⟨_, hok⟩, _⟩ := hs
  have hodd := (modulus hs.1).odd
  obtain ⟨v, T, hbody, hexists, hroot, hzero⟩ := sqrtBody_answers (rd := rd) hs ha
  obtain ⟨t, ht, hread, rfl, hframe⟩ := exec_fsqrt_of_body hok hw hbody
  rw [← hread] at hroot hzero
  exact ⟨RoundTrip.fsqrt rd ra ws rfl, t, ht, hexists,
    fun hT => ⟨(hroot hT).1, (hroot hT).mul_self hodd ha⟩, hzero, hframe⟩

end Sys2Proof.Proofs.SquareRoot
end

section
/-!
PROOFS. The almost inverse and its correction (45_field_inv_sqrt.md R263, R264; 70_reset_and_hazards.md R389). Each step
of phase I halves `u` or `v`, possibly after a subtraction: the product `u*v` is at least halved, which bounds the
steps from above, and the sum `u + v` at most halved, which bounds them from below.
-/

namespace Sys2Proof.Proofs.AlmostInverse

open Sys2Proof.Machine
open Sys2Proof.Proofs.FieldInverse (mul_mod_of_cast eq_montInv gcd_eq_one_of_lt_prime)
open Sys2Proof.Proofs.FieldCommands (montMul_montRR)

/-! ### Phase I -/

/-- The four branches of a step, with the halved numbers written as doubles. -/
inductive Reduces : Almost → Almost → Prop
  | halveU {u v r s k : Nat} : Reduces ⟨2 * u, v, r, s, k⟩ ⟨u, v, r, 2 * s, k + 1⟩
  | halveV {u v r s k : Nat} : Reduces ⟨u, 2 * v, r, s, k⟩ ⟨u, v, 2 * r, s, k + 1⟩
  | lowerU {d v r s k : Nat} (hd : 0 < d) : Reduces ⟨v + 2 * d, v, r, s, k⟩ ⟨d, v, r + s, 2 * s, k + 1⟩
  | lowerV {u d r s k : Nat} : Reduces ⟨u, u + 2 * d, r, s, k⟩ ⟨u, d, 2 * r, s + r, k + 1⟩

theorem almostStep_reduces (q : Almost) : Reduces q (almostStep q) := by
  obtain ⟨u, v, r, s, k⟩ := q
  simp only [almostStep]
  split
  · next hu =>
    obtain ⟨u, rfl⟩ := Nat.dvd_of_mod_eq_zero hu
    rw [Nat.mul_div_cancel_left u (by decide)]
    exact .halveU
  split
  · next hv =>
    obtain ⟨v, rfl⟩ := Nat.dvd_of_mod_eq_zero hv
    rw [Nat.mul_div_cancel_left v (by decide)]
    exact .halveV
  split
  · next hu hv hlt =>
    obtain ⟨d, hd⟩ : ∃ d, u = v + 2 * d := ⟨(u - v) / 2, by omega⟩
    subst hd
    rw [Nat.add_sub_cancel_left, Nat.mul_div_cancel_left d (by decide)]
    exact .lowerU (by omega)
  · next hu hv hle =>
    obtain ⟨d, hd⟩ : ∃ d, v = u + 2 * d := ⟨(v - u) / 2, by omega⟩
    subst hd
    rw [Nat.add_sub_cancel_left, Nat.mul_div_cancel_left d (by decide)]
    exact .lowerV

section
variable {q q' : Almost} (h : Reduces q q')
include h

theorem Reduces.k_eq : q'.k = q.k + 1 := by cases h <;> rfl

theorem Reduces.u_pos (hu : 0 < q.u) : 0 < q'.u := by
  cases h with
  | halveU => dsimp only at *; omega
  | lowerU hd => exact hd
  | halveV | lowerV => exact hu

theorem Reduces.s_pos (hs : 0 < q.s) : 0 < q'.s := by
  cases h <;> dsimp only at * <;> omega

theorem Reduces.coprime (hc : Nat.Coprime q.u q.v) : Nat.Coprime q'.u q'.v := by
  cases h with
  | halveU => exact hc.coprime_mul_left
  | halveV => exact hc.coprime_mul_left_right
  | lowerU => exact (Nat.coprime_self_add_left.1 hc).coprime_mul_left
  | lowerV => exact (Nat.coprime_self_add_right.1 hc).coprime_mul_left_right

theorem Reduces.det : q'.u * q'.s + q'.v * q'.r = q.u * q.s + q.v * q.r := by
  cases h <;> dsimp only <;> ring

theorem Reduces.r_lt (hs : 0 < q.s) : q'.r < 2 * (q.r + q.s) := by
  cases h <;> dsimp only at * <;> omega

/-- The product of `u` and `v` is at least halved. -/
theorem Reduces.product_le : 2 * (q'.u * q'.v) ≤ q.u * q.v := by
  cases h <;> dsimp only <;> nlinarith

/-- The sum of `u` and `v` is at most halved. -/
theorem Reduces.sum_le : q.u + q.v ≤ 2 * (q'.u + q'.v) := by
  cases h <;> dsimp only <;> omega

/-- `r` and `s` follow `u` and `v`. -/
theorem Reduces.residues {M : Nat} {a : ZMod M} (hr : a * q.r = -(q.u * 2 ^ q.k)) (hs : a * q.s = q.v * 2 ^ q.k) :
    a * q'.r = -(q'.u * 2 ^ q'.k) ∧ a * q'.s = q'.v * 2 ^ q'.k := by
  cases h with push_cast at *
  | halveU => exact ⟨by linear_combination hr, by linear_combination 2 * hs⟩
  | halveV => exact ⟨by linear_combination 2 * hr, by linear_combination hs⟩
  | lowerU => exact ⟨by linear_combination hr + hs, by linear_combination 2 * hs⟩
  | lowerV => exact ⟨by linear_combination 2 * hr, by linear_combination hs + hr⟩
end

/-- The invariant of phase I on the modulus `M` and the operand `a`. -/
structure PhaseI (M a : Nat) (q : Almost) : Prop where
  u_pos : 0 < q.u
  s_pos : 0 < q.s
  coprime : Nat.Coprime q.u q.v
  /-- What keeps `r` and `s` small. -/
  det : q.u * q.s + q.v * q.r = M
  r_lt : q.r < 2 * M
  /-- What `r` is for (R263). -/
  r_res : (a : ZMod M) * q.r = -(q.u * 2 ^ q.k)
  s_res : (a : ZMod M) * q.s = q.v * 2 ^ q.k
  product : 2 ^ q.k * (q.u * q.v) ≤ M * a
  sum : M + a ≤ 2 ^ q.k * (q.u + q.v)

section
variable {M a : Nat} {q q' : Almost}

theorem phaseI_start (hM : 0 < M) (hg : Nat.gcd a M = 1) : PhaseI M a ⟨M, a, 0, 1, 0⟩ where
  u_pos := hM
  s_pos := Nat.one_pos
  coprime := Nat.Coprime.symm hg
  det := by simp
  r_lt := by simpa
  r_res := by simp
  s_res := by simp
  product := by simp
  sum := by simp

/-- While `v` is not 0, `r` and `s` together are at most `M`. -/
theorem PhaseI.add_le (h : PhaseI M a q) (hv : q.v ≠ 0) : q.r + q.s ≤ M := by
  calc q.r + q.s ≤ q.v * q.r + q.u * q.s :=
        Nat.add_le_add (Nat.le_mul_of_pos_left _ (Nat.pos_of_ne_zero hv)) (Nat.le_mul_of_pos_left _ h.u_pos)
    _ = M := by rw [Nat.add_comm, h.det]

theorem PhaseI.reduces (h : PhaseI M a q) (hv : q.v ≠ 0) (hstep : Reduces q q') : PhaseI M a q' := by
  have hrs := h.add_le hv
  obtain ⟨hr, hs⟩ := hstep.residues h.r_res h.s_res
  refine ⟨hstep.u_pos h.u_pos, hstep.s_pos h.s_pos, hstep.coprime h.coprime, hstep.det.trans h.det,
    (hstep.r_lt h.s_pos).trans_le (by omega), hr, hs, ?product, ?sum⟩ <;> rw [hstep.k_eq, pow_succ, mul_assoc]
  case product => exact (Nat.mul_le_mul_left _ hstep.product_le).trans h.product
  case sum => exact h.sum.trans (Nat.mul_le_mul_left _ hstep.sum_le)

/-- The loop keeps the invariant, and each of its steps counts in `k`. -/
theorem almostLoop_spec (fuel : Nat) (q : Almost) (h : PhaseI M a q) :
    PhaseI M a (almostLoop fuel q) ∧ (almostLoop fuel q).k ≤ q.k + fuel ∧
      ((almostLoop fuel q).v ≠ 0 → (almostLoop fuel q).k = q.k + fuel) := by
  induction fuel generalizing q with
  | zero => exact ⟨h, le_rfl, fun _ => rfl⟩
  | succ fuel ih =>
    rw [almostLoop]
    split
    · next hv => exact ⟨h, Nat.le_add_right .., fun hne => absurd hv hne⟩
    · next hv =>
      have hstep := almostStep_reduces q
      have hk : q.k + (fuel + 1) = (almostStep q).k + fuel := by rw [hstep.k_eq]; omega
      rw [hk]
      exact ih _ (h.reduces hv hstep)

/-- The product of `u` and `v` bounds the steps after which `v` is not 0 yet. -/
theorem PhaseI.k_lt (h : PhaseI M a q) (ha : a < M) (hv : q.v ≠ 0) : q.k < 2 * bitLength M := by
  have hM := lt_two_pow_bitLength M
  refine (Nat.pow_lt_pow_iff_right (by decide : 1 < 2)).1 ?_
  calc 2 ^ q.k ≤ 2 ^ q.k * (q.u * q.v) :=
        Nat.le_mul_of_pos_right _ (Nat.mul_pos h.u_pos (Nat.pos_of_ne_zero hv))
    _ ≤ M * a := h.product
    _ < 2 ^ bitLength M * 2 ^ bitLength M := Nat.mul_lt_mul'' hM (ha.trans hM)
    _ = 2 ^ (2 * bitLength M) := by rw [Nat.two_mul, pow_add]

theorem PhaseI.u_eq_one (h : PhaseI M a q) (hv : q.v = 0) : q.u = 1 := by
  have hc := h.coprime
  rwa [hv, Nat.coprime_zero_right] at hc

/-- The sum of `u` and `v` bounds the steps that end with `v = 0` from below. -/
theorem PhaseI.le_k (h : PhaseI M a q) (h1 : 1 ≤ a) (hv : q.v = 0) : bitLength M ≤ q.k := by
  have hsum := h.sum
  rw [h.u_eq_one hv, hv, Nat.add_zero, Nat.mul_one] at hsum
  exact bitLength_le (by omega)

/-- What phase I answers (R263). -/
structure AlmostInverseOf (M a : Nat) (rk : Nat × Nat) : Prop where
  pos : 1 ≤ rk.1
  lt : rk.1 < M
  res : (a : ZMod M) * rk.1 = 2 ^ rk.2
  lower : bitLength M ≤ rk.2
  upper : rk.2 ≤ 2 * bitLength M

theorem two_pow_ne_zero (hodd : M % 2 = 1) (hM : 1 < M) (k : Nat) : (2 : ZMod M) ^ k ≠ 0 := by
  have : Fact (1 < M) := ⟨hM⟩
  exact left_ne_zero_of_mul_eq_one (two_pow_mul_rInv (n := k) hodd)

/-- The final subtraction of R263 reduces what is below `2*M`. -/
theorem sub_if_le_eq_mod {r : Nat} (hr : r < 2 * M) : (if M ≤ r then r - M else r) = r % M := by
  split
  · next hle => rw [Nat.mod_eq_sub_mod hle, Nat.mod_eq_of_lt (by omega)]
  · next hlt => rw [Nat.mod_eq_of_lt (by omega)]

theorem almostLoop_ends (hg : Nat.gcd a M = 1) (ha : a < M) :
    (almostLoop (2 * bitLength M) ⟨M, a, 0, 1, 0⟩).v = 0 := by
  obtain ⟨hinv, -, hsteps⟩ := almostLoop_spec (2 * bitLength M) _ (phaseI_start (Nat.zero_lt_of_lt ha) hg)
  by_contra hv
  have := hinv.k_lt ha hv
  have := hsteps hv
  dsimp only at *
  omega

theorem almostInverse_spec (hodd : M % 2 = 1) (hg : Nat.gcd a M = 1) (h1 : 1 ≤ a) (ha : a < M) :
    AlmostInverseOf M a (almostInverse M a) := by
  obtain ⟨hinv, hk, -⟩ := almostLoop_spec (2 * bitLength M) _ (phaseI_start (Nat.zero_lt_of_lt ha) hg)
  have hv := almostLoop_ends hg ha
  rw [almostInverse]
  generalize almostLoop (2 * bitLength M) ⟨M, a, 0, 1, 0⟩ = q at *
  have hrlt : q.r % M < M := Nat.mod_lt _ (Nat.zero_lt_of_lt ha)
  have hr : (a : ZMod M) * (q.r % M : Nat) = -2 ^ q.k := by
    rw [ZMod.natCast_mod, hinv.r_res, hinv.u_eq_one hv, Nat.cast_one, one_mul]
  have hr0 : q.r % M ≠ 0 := fun h0 => two_pow_ne_zero hodd (h1.trans_lt ha) q.k (by simpa [h0] using hr)
  rw [sub_if_le_eq_mod hinv.r_lt]
  refine ⟨Nat.sub_pos_of_lt hrlt, Nat.sub_lt (Nat.zero_lt_of_lt ha) (Nat.pos_of_ne_zero hr0), ?_, hinv.le_k h1 hv,
    hk.trans_eq (Nat.zero_add _)⟩
  dsimp only
  rw [Nat.cast_sub hrlt.le, ZMod.natCast_self]
  linear_combination -hr

/-! ### Phase II -/

section
variable {n r k : Nat}

theorem cast_montMul (a b : Nat) : ((montMul n M a b : Nat) : ZMod M) = a * b * (rInv n M : Nat) := by
  rw [montMul, ZMod.natCast_mod, Nat.cast_mul, Nat.cast_mul]

theorem cast_montMul_montRR (hodd : M % 2 = 1) (r : Nat) :
    ((montMul n M r (montRR n M) : Nat) : ZMod M) = r * 2 ^ n := by
  rw [montMul_montRR hodd, mont, ZMod.natCast_mod]
  push_cast
  rfl

/-- The two products that phase II ends with bring `2^k` up to `R²`. -/
theorem scale_up (hodd : M % 2 = 1) (hk : k ≤ 2 * n) (h : (a : ZMod M) * r = 2 ^ k) :
    (a : ZMod M) * (montMul n M (montMul n M r (montRR n M)) (2 ^ (2 * n - k)) : Nat) = 2 ^ (2 * n) := by
  have hpow : (2 : ZMod M) ^ k * 2 ^ (2 * n - k) = 2 ^ (2 * n) := by rw [← pow_add, Nat.add_sub_cancel' hk]
  rw [cast_montMul, cast_montMul_montRR hodd]
  push_cast
  linear_combination 2 ^ n * 2 ^ (2 * n - k) * (rInv n M : ZMod M) * h +
    2 ^ n * (rInv n M : ZMod M) * hpow + 2 ^ (2 * n) * two_pow_mul_rInv (n := n) hodd

theorem almostCorrect_spec {rk : Nat × Nat} (hodd : M % 2 = 1) (hM : M < 2 ^ n) (h : AlmostInverseOf M a rk) :
    almostCorrect n M (montRR n M) rk < M ∧
      (a : ZMod M) * (almostCorrect n M (montRR n M) rk : Nat) = 2 ^ (2 * n) := by
  refine ⟨montMul_lt (by omega) .., ?_⟩
  have hn := bitLength_le hM
  have hupper := h.upper
  rw [almostCorrect]
  split
  · next hk =>
    refine scale_up hodd (by dsimp only; omega) ?_
    rw [cast_montMul_montRR hodd, pow_add, ← h.res, mul_assoc]
  · exact scale_up hodd (by omega) h.res
end
end

/-- Settles O40: the invariant of phase I at its end, and phase II reaches the one value below `M` that meets R260. -/
theorem almostInverseMeetsContract : Obligations.AlmostInverseMeetsContract := by
  intro n M a hp hodd hM h1 ha
  have hg := gcd_eq_one_of_lt_prime hp h1 ha
  have hrk := almostInverse_spec hodd hg h1 ha
  obtain ⟨hlt, hres⟩ := almostCorrect_spec hodd hM hrk
  refine ⟨almostLoop_ends hg ha, hrk.pos, hrk.lt, ?residue, hrk.lower, hrk.upper, eq_montInv hp.one_lt hg hlt hres,
    mul_mod_of_cast hres⟩
  case residue =>
    rw [← ZMod.natCast_eq_natCast_iff', Nat.mul_comm]
    push_cast
    exact hrk.res

end Sys2Proof.Proofs.AlmostInverse
end

section
/-!
PROOFS. The point commands (46_point.md R286 to R297): what each leaves in its destination or in `T`, for operands inside
the contract, as a value; and what those values are in the residues.
-/

namespace Sys2Proof.Proofs.PointCommands

open Sys2Proof.Machine Sys2Proof.Safety Sys2Proof.Laws Sys2Proof.Proofs.Curve
open Sys2Proof.Proofs.FieldCommands (configSound fieldOk_iff)
open Sys2Proof.Proofs.FieldInverse (gcd_eq_one_of_lt_prime)

/-! ### Point registers -/

/-- What a point register holds after `P` is written to it. -/
def stored (n : Nat) (P : Point) : Point := ⟨P.x % 2 ^ n, P.y % 2 ^ n, P.z % 2 ^ n⟩

section
variable {s : State} {P : Point}

theorem readP_writeP (rd : Reg) : (s.writeP rd P).readP rd = stored s.n P := s.writeP_readP_same rd P

theorem readP_writePz (rd : Reg) (v : Nat) : (s.writePz rd v).readP rd = { s.readP rd with z := v % 2 ^ s.n } :=
  (s.writePz_readP rd rd v).trans (if_pos rfl)

theorem readP_writePxy (rd : Reg) (x y : Nat) :
    (s.writePxy rd x y).readP rd = { s.readP rd with x := x % 2 ^ s.n, y := y % 2 ^ s.n } :=
  (s.writePxy_readP rd rd x y).trans (if_pos rfl)

theorem stored_of_lt {n : Nat} (hx : P.x < 2 ^ n) (hy : P.y < 2 ^ n) (hz : P.z < 2 ^ n) : stored n P = P := by
  rw [stored, Nat.mod_eq_of_lt hx, Nat.mod_eq_of_lt hy, Nat.mod_eq_of_lt hz]

variable (hs : Configured s)
include hs

theorem stored_of_below (hP : Below s P) : stored s.n P = P := by
  have hM := (modulus hs).lt
  obtain ⟨hx, hy, hz⟩ := hP
  exact stored_of_lt (hx.trans hM) (hy.trans hM) (hz.trans hM)

theorem readP_lt (r : Reg) : (s.readP r).x < 2 ^ s.n ∧ (s.readP r).y < 2 ^ s.n ∧ (s.readP r).z < 2 ^ s.n := by
  obtain ⟨⟨⟨_, _, _, hpoints, _⟩, _⟩, _⟩ := hs
  exact hpoints r

theorem stored_readP (r : Reg) : stored s.n (s.readP r) = s.readP r := by
  obtain ⟨hx, hy, hz⟩ := readP_lt hs r
  exact stored_of_lt hx hy hz
end

theorem point_ext {P Q : Point} (hx : P.x = Q.x) (hy : P.y = Q.y) (hz : P.z = Q.z) : P = Q := by
  cases P; cases Q; simp_all

/-! ### The contract -/

/-- Inside the contract of the point commands (R283, R281): coordinates below `M`, or infinity. -/
abbrev InContract (s : State) (P : Point) : Prop := Below s P ∨ P.z = 0

theorem isInf_iff {P : Point} : P.isInf = true ↔ P.z = 0 := seqIsZero_eq P.z

section
variable {s : State} {P Q : Point}

@[simp] theorem elem_zero : elem s 0 = 0 := elt_zero

variable (hs : Configured s)
include hs

theorem pointOk_iff : s.pointOk P = true ↔ InContract s P := by
  rw [State.pointOk, Bool.or_eq_true, coordsOk_iff hs, isInf_iff, or_comm]

theorem pointOk_both (hP : InContract s P) (hQ : InContract s Q) : (s.pointOk P && s.pointOk Q) = true := by
  rw [(pointOk_iff hs).2 hP, (pointOk_iff hs).2 hQ, Bool.and_self]

theorem coordsOk_both : (s.coordsOk P && s.coordsOk Q) = true ↔ Below s P ∧ Below s Q := by
  rw [Bool.and_eq_true, coordsOk_iff hs, coordsOk_iff hs]

theorem rone_lt : s.rone < s.mod := by
  obtain ⟨_, _, _, _, hrone, _⟩ := configSound hs
  exact hrone

/-- A point below `M` is infinite exactly when its `z` stands for 0. -/
theorem elem_z_eq_zero (hP : Below s P) : elem s P.z = 0 ↔ P.z = 0 := elt_eq_zero (modulus hs).odd hP.2.2
end

/-! ### Completing with a point, or with a Boolean -/

/-- Command `i` completes from `s` with `P` in `p[rd]` and changes nothing else, but for the `f` registers `fs`. -/
def Leaves (i : Instr) (s : State) (rd : Reg) (fs : List Reg) (P : Point) : Prop :=
  ∃ t, exec i s = .next t ∧ t.readP rd = P ∧ Footprint.Frame { f := fs, p := [rd] } s t

/-- Command `i` completes from `s` with `b` in `T` and changes nothing else, but for the `f` registers `fs`. -/
def Decides (i : Instr) (s : State) (fs : List Reg) (b : Bool) : Prop :=
  ∃ t, exec i s = .next t ∧ t.status.t = b ∧ Footprint.Frame { f := fs, t := true } s t

/-- A window that lies in `f`, of a command without `f` operands. -/
theorem windowGood_nil {ws : Reg} {k : Nat} (h : ws.val + k ≤ 16) : WindowGood ws k [] := ⟨h, by simp⟩

section
variable {i : Instr} {s u body : State} {rd ws : Reg} {k m : Nat} {operands fs : List Reg} {P Q : Point} {b c : Bool}

theorem Leaves.of_eq (h : Leaves i s rd fs P) (hPQ : P = Q) : Leaves i s rd fs Q := hPQ ▸ h

/-- A statement about the point that is left is one about the destination. -/
theorem Leaves.imp {Holds : Point → Prop} (h : Leaves i s rd fs P) (hP : Holds P) :
    ∃ t, exec i s = .next t ∧ Holds (t.readP rd) ∧ Footprint.Frame { f := fs, p := [rd] } s t := by
  obtain ⟨t, ht, hread, hframe⟩ := h
  exact ⟨t, ht, hread ▸ hP, hframe⟩

theorem Decides.iff {p : Prop} (h : Decides i s fs b) (hb : b = true ↔ p) :
    ∃ t, exec i s = .next t ∧ (t.status.t = true ↔ p) ∧ Footprint.Frame { f := fs, t := true } s t := by
  obtain ⟨t, ht, hread, hframe⟩ := h
  exact ⟨t, ht, hread ▸ hb, hframe⟩

variable (hs : Configured s)
include hs

/-- A configured command without a workspace, its body rewritten. -/
theorem exec_of_requireCfg (he : exec i s = requireCfg i s (body.tookDraws m)) (hu : body = u) :
    exec i s = .next (u.tookDraws m) := hu ▸ he.trans (requireCfg_on hs.2)

/-- A configured command with a window that is good, its body rewritten. -/
theorem exec_of_requireWs (hw : WindowGood ws k operands)
    (he : exec i s = requireCfg i s (requireWs i ws k operands s ((body.tookDraws m).scratch ws k))) (hu : body = u) :
    exec i s = .next ((u.tookDraws m).scratch ws k) := hu ▸ he.trans (require_both hs.2 hw)

theorem leaves_of_requireCfg (he : exec i s = requireCfg i s (body.tookDraws m)) (hu : body = u)
    (hframe : Footprint.Frame { p := [rd] } s u) : Leaves i s rd [] (u.readP rd) :=
  ⟨_, exec_of_requireCfg hs he hu, rfl, Frame.tookDraws m hframe⟩

theorem leaves_of_requireWs (hw : WindowGood ws k operands)
    (he : exec i s = requireCfg i s (requireWs i ws k operands s ((body.tookDraws m).scratch ws k))) (hu : body = u)
    (hframe : Footprint.Frame { p := [rd] } s u) : Leaves i s rd (window ws k) (u.readP rd) :=
  ⟨_, exec_of_requireWs hs hw he hu, rfl, Frame.scratch ws k (Frame.tookDraws m hframe)⟩

/-- A command without a workspace that writes a whole point. -/
theorem leaves_writeP (he : exec i s = requireCfg i s ((s.writeP rd Q).tookDraws m)) (hP : Q = P) :
    Leaves i s rd [] (stored s.n P) :=
  (leaves_of_requireCfg hs he (hP ▸ rfl) (frame_writeP s rd P)).of_eq (readP_writeP rd)

/-- A command with a workspace that writes a whole point. -/
theorem leaves_writeP_ws (hw : WindowGood ws k operands)
    (he : exec i s = requireCfg i s (requireWs i ws k operands s (((s.writeP rd Q).tookDraws m).scratch ws k)))
    (hP : Q = P) : Leaves i s rd (window ws k) (stored s.n P) :=
  (leaves_of_requireWs hs hw he (hP ▸ rfl) (frame_writeP s rd P)).of_eq (readP_writeP rd)

theorem decides_of_requireCfg (he : exec i s = requireCfg i s ((s.setT c).tookDraws m)) (hb : c = b) :
    Decides i s [] b :=
  ⟨_, exec_of_requireCfg hs he rfl, hb, Frame.tookDraws m (frame_setT s c)⟩

theorem decides_of_requireWs (hw : WindowGood ws k operands)
    (he : exec i s = requireCfg i s (requireWs i ws k operands s (((s.setT c).tookDraws m).scratch ws k)))
    (hb : c = b) : Decides i s (window ws k) b :=
  ⟨_, exec_of_requireWs hs hw he rfl, hb, Frame.scratch ws k (Frame.tookDraws m (frame_setT s c))⟩
end

/-! ### `PISINF`, `PSETINF`, `PNEG`, `PFROMAFF`, `PMOV` -/

section
variable {s : State} (hs : Configured s) (rd ra : Reg)
include hs

/-- `PISINF` outside the contract completes too, with a free `T`. -/
theorem pisinf_decides : ∃ b, Decides (.pisinf ra) s [] b ∧ (InContract s (s.readP ra) → b = (s.readP ra).isInf) :=
  ⟨_, decides_of_requireCfg hs rfl rfl, fun h => if_pos ((pointOk_iff hs).2 h)⟩

theorem psetinf_leaves : Leaves (.psetinf rd) s rd [] { s.readP rd with z := 0 } := by
  have h := leaves_of_requireCfg (i := .psetinf rd) (m := 0) hs rfl rfl (frame_writePz s rd 0)
  rwa [readP_writePz, Nat.zero_mod] at h

/-- Inside the contract `PNEG` copies `x` and `z`, and negates a `y` below `M`. -/
theorem pneg_leaves : ∃ P, Leaves (.pneg rd ra) s rd [] P ∧ (InContract s (s.readP ra) →
    P.x = (s.readP ra).x ∧ P.z = (s.readP ra).z ∧
      ((s.readP ra).y < s.mod → P.y = (s.mod - (s.readP ra).y) % s.mod)) := by
  have hM := (modulus hs).lt
  obtain ⟨hx, _, hz⟩ := readP_lt hs ra
  refine ⟨_, leaves_writeP hs rfl rfl, fun h => ?_⟩
  rw [if_pos ((pointOk_iff hs).2 h), stored]
  refine ⟨Nat.mod_eq_of_lt hx, Nat.mod_eq_of_lt hz, fun hy => ?_⟩
  rw [if_pos hy, Nat.mod_eq_of_lt ((gNeg_lt hM hy).trans hM), gNeg_eq hM hy]

/-- `PFROMAFF` keeps infinity; of any other point it writes `z`, inside the contract with `RONE`. -/
theorem pfromaff_leaves : ∃ P, Leaves (.pfromaff rd) s rd [] P ∧ ((s.readP rd).z = 0 → P = s.readP rd) ∧
    (Below s (s.readP rd) → (s.readP rd).z ≠ 0 → P = { s.readP rd with z := s.rone }) := by
  by_cases hz : (s.readP rd).z = 0
  · exact ⟨_, leaves_of_requireCfg hs rfl (if_pos (isInf_iff.2 hz)) Frame.of_refl, fun _ => rfl,
      fun _ h => absurd hz h⟩
  · refine ⟨_, leaves_of_requireCfg hs rfl (if_neg (isInf_iff.not.2 hz)) (frame_writePz ..), fun h => absurd h hz,
      fun hP _ => ?_⟩
    rw [readP_writePz, if_pos ((coordsOk_iff hs).2 hP), Nat.mod_eq_of_lt ((rone_lt hs).trans (modulus hs).lt)]

theorem pmov_leaves : ∃ P, Leaves (.pmov rd ra) s rd [] P ∧ (InContract s (s.readP ra) → P = s.readP ra) := by
  refine ⟨_, leaves_writeP hs rfl rfl, fun h => ?_⟩
  rw [if_pos ((pointOk_iff hs).2 h), stored_readP hs]
end

/-- Settles O41: each command by what it leaves, inside the contract and outside. -/
theorem pointTestsAndMoves : Obligations.PointTestsAndMoves := by
  intro rd ra s hs
  refine ⟨RoundTrip.pisinf ra rfl, RoundTrip.psetinf rd rfl, RoundTrip.pneg rd ra rfl, RoundTrip.pfromaff rd rfl,
    RoundTrip.pmov rd ra rfl, ?pisinf, psetinf_leaves hs rd, ?pneg, ?pfromaff, ?pmov⟩
  case pisinf =>
    obtain ⟨b, ⟨t, ht, rfl, hframe⟩, hb⟩ := pisinf_decides hs ra
    exact ⟨t, ht, fun h => by rw [hb h, isInf_iff], hframe⟩
  case pneg =>
    obtain ⟨P, ⟨t, ht, rfl, hframe⟩, hP⟩ := pneg_leaves hs rd ra
    refine ⟨t, ht, fun h => ?_, fun hz => ?_, hframe⟩
    · obtain ⟨hx, hz, hy⟩ := hP (.inl h)
      exact point_ext hx (hy h.2.1) hz
    · obtain ⟨hx, hz', hy⟩ := hP (.inr hz)
      exact ⟨hx, hz'.trans hz, hy⟩
  case pfromaff =>
    obtain ⟨P, ⟨t, ht, rfl, hframe⟩, hinf, hfin⟩ := pfromaff_leaves hs rd
    exact ⟨t, ht, hinf, hfin, hframe⟩
  case pmov =>
    obtain ⟨P, ⟨t, ht, rfl, hframe⟩, hP⟩ := pmov_leaves hs rd ra
    exact ⟨t, ht, hP, hframe⟩

/-! ### `PONC` and `PEQ` -/

section
variable {n M ca cb : Nat} {P Q : Point}

/-- The test of `PONC` on values below `M` is the curve equation in the residues. -/
theorem onCurve_eq_true_iff (h0 : 0 < M) (hM : M < 2 ^ n) (hodd : M % 2 = 1) :
    onCurve n M ca cb P = true ↔ elt n M P.y ^ 2 =
      elt n M P.x ^ 3 + elt n M ca * elt n M P.x * elt n M P.z ^ 4 + elt n M cb * elt n M P.z ^ 6 := by
  have hlt (a b : Nat) : montMul n M a b < M := montMul_lt h0 a b
  have hcube := montCube_lt (n := n) h0 P.x
  rw [onCurve, beq_iff_eq, ← elt_inj (n := n) hodd (montSq_lt h0 _) (gAdd_lt hM (gAdd_lt hM hcube (hlt _ _)) (hlt _ _)),
    elt_gAdd hM (gAdd_lt hM hcube (hlt _ _)) (hlt _ _), elt_gAdd hM hcube (hlt _ _)]
  simp only [elt_montMul, elt_montSq, elt_montCube]
  ring_nf
end

section
variable {s : State} {P Q : Point} (hs : Configured s)
include hs

/-- The products of R284 compare the affine `X`. -/
theorem sameX_iff : SameX s P Q ↔ (abcd s.n s.mod P Q).A = (abcd s.n s.mod P Q).B := by
  have hmod := modulus hs
  have hk := abcd_lt (n := s.n) (P := P) (Q := Q) hmod.pos
  obtain ⟨hA, hB, _, _⟩ := elt_abcd (n := s.n) (M := s.mod) (P := P) (Q := Q)
  rw [← elt_inj (n := s.n) hmod.odd hk.A hk.B, hA, hB]
  rfl

/-- The products of R284 compare the affine `Y`. -/
theorem sameY_iff : SameY s P Q ↔ (abcd s.n s.mod P Q).C = (abcd s.n s.mod P Q).D := by
  have hmod := modulus hs
  have hk := abcd_lt (n := s.n) (P := P) (Q := Q) hmod.pos
  obtain ⟨_, _, hC, hD⟩ := elt_abcd (n := s.n) (M := s.mod) (P := P) (Q := Q)
  rw [← elt_inj (n := s.n) hmod.odd hk.C hk.D, hC, hD]
  rfl

theorem oppositeY_iff :
    OppositeY s P Q ↔ (abcd s.n s.mod P Q).C = gNeg s.n s.mod (abcd s.n s.mod P Q).D := by
  have hmod := modulus hs
  have hk := abcd_lt (n := s.n) (P := P) (Q := Q) hmod.pos
  obtain ⟨_, _, hC, hD⟩ := elt_abcd (n := s.n) (M := s.mod) (P := P) (Q := Q)
  rw [← elt_inj (n := s.n) hmod.odd hk.C (gNeg_lt hmod.lt hk.D), elt_gNeg hmod.lt hk.D, hC, hD]
  rfl

/-- With one and the same `z`, not 0 in a field, the coordinates themselves compare the affine ones (R290). -/
theorem same_iff_of_z_eq (hp : s.mod.Prime) (hP : Below s P) (hQ : Below s Q) (hz : P.z ≠ 0) (hPQ : P.z = Q.z) :
    SameX s P Q ∧ SameY s P Q ↔ P.x = Q.x ∧ P.y = Q.y := by
  have : Fact s.mod.Prime := ⟨hp⟩
  have hodd := (modulus hs).odd
  have hz' : elem s P.z ≠ 0 := (elem_z_eq_zero hs hP).not.2 hz
  rw [← elt_inj (n := s.n) hodd hP.1 hQ.1, ← elt_inj (n := s.n) hodd hP.2.1 hQ.2.1, SameX, SameY, ← hPQ]
  exact and_congr (mul_left_inj' (pow_ne_zero 2 hz')) (mul_left_inj' (pow_ne_zero 3 hz'))

/-- The test of `PEQ` decides equality of the points (R290). -/
theorem pointEq_iff (hp : s.mod.Prime) (hP : InContract s P) (hQ : InContract s Q) :
    pointEq s.n s.mod P Q = true ↔
      (P.z = 0 ∧ Q.z = 0) ∨ (P.z ≠ 0 ∧ Q.z ≠ 0 ∧ SameX s P Q ∧ SameY s P Q) := by
  simp only [pointEq, Bool.and_eq_true, Bool.or_eq_true, isInf_iff]
  split_ifs with hboth hone hz
  · simp [hboth]
  · simp only [false_iff]
    tauto
  · obtain ⟨hPz, hQz⟩ := not_or.1 hone
    have h := same_iff_of_z_eq hs hp (hP.resolve_right hPz) (hQ.resolve_right hQz) hPz hz
    simp [h, hPz, hQz]
  · obtain ⟨hPz, hQz⟩ := not_or.1 hone
    simp [sameX_iff hs, sameY_iff hs, hPz, hQz]

variable (ra rb ws : Reg)

/-- `T` after `PONC`, for a point inside the contract. -/
theorem ponc_decides (hw : ws.val + 4 ≤ 16) (hP : InContract s (s.readP ra)) :
    ∃ b, Decides (.ponc ra ws) s (window ws 4) b ∧ (b = true ↔ OnCurve s (s.readP ra)) := by
  obtain ⟨_, h0, hM, hodd⟩ := modulus hs
  refine ⟨_, decides_of_requireWs hs (windowGood_nil hw) rfl rfl, ?_⟩
  rw [onCurve_iff, ← onCurve_eq_true_iff h0 hM hodd]
  by_cases hz : (s.readP ra).z = 0
  · rw [if_pos (isInf_iff.2 hz)]
    simp [hz]
  · rw [if_neg (isInf_iff.not.2 hz), if_pos ((coordsOk_iff hs).2 (hP.resolve_right hz))]
    simp [hz]

theorem peq_decides (hw : ws.val + 4 ≤ 16) (hP : InContract s (s.readP ra)) (hQ : InContract s (s.readP rb)) :
    Decides (.peq ra rb ws) s (window ws 4) (pointEq s.n s.mod (s.readP ra) (s.readP rb)) :=
  decides_of_requireWs hs (windowGood_nil hw) rfl (if_pos (pointOk_both hs hP hQ))
end

/-- Settles O42: the test of R288, read in the residues. -/
theorem curveEquationTest : Obligations.CurveEquationTest := by
  intro ra ws s hs hw
  refine ⟨RoundTrip.ponc ra ws rfl, fun hP => ?_⟩
  obtain ⟨b, hdecides, hb⟩ := ponc_decides hs ra ws hw hP
  exact hdecides.iff hb

/-- Settles O43: the test of R290, read in the residues. -/
theorem pointEquality : Obligations.PointEquality := fun ra rb ws _ hs hp hw hP hQ =>
  ⟨RoundTrip.peq ra rb ws rfl, (peq_decides hs ra rb ws hw hP hQ).iff (pointEq_iff hs hp hP hQ)⟩

/-! ### `PDBL` and `PADDD` -/

section
variable {s : State} {P Q : Point} (hs : Configured s)
include hs

theorem below_dbl (P : Point) : Below s (dbl s.n s.mod s.ca P) := by
  obtain ⟨hn, h0, hM, _⟩ := modulus hs
  exact dbl_lt hn h0 hM

theorem below_addInner (P Q : Point) : Below s (addInner s.n s.mod P Q (abcd s.n s.mod P Q)) := by
  obtain ⟨_, h0, hM, _⟩ := modulus hs
  exact addInner_lt h0 hM

/-- The residues of the doubling formula. -/
theorem elem_dbl {S T x' : ZMod s.mod} (P : Point) (hS : S = 4 * elem s P.x * elem s P.y ^ 2)
    (hT : T = 3 * elem s P.x ^ 2 + elem s s.ca * elem s P.z ^ 4) (hx : x' = T ^ 2 - 2 * S) :
    elem s (dbl s.n s.mod s.ca P).x = x' ∧
    elem s (dbl s.n s.mod s.ca P).y = T * (S - x') - 8 * elem s P.y ^ 4 ∧
    elem s (dbl s.n s.mod s.ca P).z = 2 * elem s P.y * elem s P.z := by
  obtain ⟨hn, h0, hM, _⟩ := modulus hs
  have hS' : S = elt s.n s.mod (dblS s.n s.mod P) := hS.trans (elt_dblS hn h0 hM).symm
  have hT' : T = elt s.n s.mod (dblT s.n s.mod s.ca P) := hT.trans (elt_dblT h0 hM).symm
  have hx' : x' = elt s.n s.mod (dblX s.n s.mod s.ca P) := by rw [elt_dblX hn h0 hM, hx, hT', hS']
  refine ⟨hx'.symm, ?_, elt_dbl_z hn h0 hM⟩
  rw [hT', hS', hx']
  exact elt_dbl_y hn h0 hM

/-- The residues of the chord formula. -/
theorem elem_addInner {A C E F x : ZMod s.mod} (P Q : Point) (hA : A = elem s P.x * elem s Q.z ^ 2)
    (hC : C = elem s P.y * elem s Q.z ^ 3) (hE : E = elem s Q.x * elem s P.z ^ 2 - A)
    (hF : F = elem s Q.y * elem s P.z ^ 3 - C) (hx : x = F ^ 2 - 2 * A * E ^ 2 - E ^ 3) :
    elem s (addInner s.n s.mod P Q (abcd s.n s.mod P Q)).x = x ∧
    elem s (addInner s.n s.mod P Q (abcd s.n s.mod P Q)).y = F * (A * E ^ 2 - x) - C * E ^ 3 ∧
    elem s (addInner s.n s.mod P Q (abcd s.n s.mod P Q)).z = elem s P.z * elem s Q.z * E := by
  obtain ⟨_, h0, hM, _⟩ := modulus hs
  have hk := abcd_lt (n := s.n) (P := P) (Q := Q) h0
  obtain ⟨hkA, hkB, hkC, hkD⟩ := elt_abcd (n := s.n) (M := s.mod) (P := P) (Q := Q)
  have hx3 := elt_chordX h0 hM hk
  have hy3 := elt_addInner_y (P := P) (Q := Q) h0 hM hk
  have hz3 := elt_addInner_z (P := P) (Q := Q) hM hk
  rw [hkA, hkB, hkC, hkD] at hx3 hy3
  rw [hkA, hkB] at hz3
  rw [hx3] at hy3
  subst hF hE hC hA hx
  exact ⟨hx3, hy3, hz3⟩

variable (rd ra rb ws : Reg)

theorem pdbl_leaves (hw : ws.val + 2 ≤ 16) (hP : Below s (s.readP ra)) :
    Leaves (.pdbl rd ra ws) s rd (window ws 2) (dbl s.n s.mod s.ca (s.readP ra)) :=
  (leaves_writeP_ws hs (windowGood_nil hw) rfl (if_pos ((coordsOk_iff hs).2 hP))).of_eq
    (stored_of_below hs (below_dbl hs _))

theorem pdbl_leaves_infinite (hw : ws.val + 2 ≤ 16) (hz : (s.readP ra).z = 0) :
    ∃ R, R.z = 0 ∧ Leaves (.pdbl rd ra ws) s rd (window ws 2) R := by
  by_cases hP : Below s (s.readP ra)
  · refine ⟨_, (elem_z_eq_zero hs (below_dbl hs _)).1 ?_, pdbl_leaves hs rd ra ws hw hP⟩
    obtain ⟨_, _, hz'⟩ := elem_dbl hs (s.readP ra) rfl rfl rfl
    rw [hz', hz, elem_zero, mul_zero]
  · exact ⟨_, Nat.zero_mod _, leaves_writeP_ws hs (windowGood_nil hw) rfl
      ((if_neg ((coordsOk_iff hs).not.2 hP)).trans (if_pos (isInf_iff.2 hz)))⟩

theorem paddd_leaves (hw : ws.val + 5 ≤ 16) (hP : Below s (s.readP ra)) (hQ : Below s (s.readP rb)) :
    Leaves (.paddd rd ra rb ws) s rd (window ws 5)
      (addInner s.n s.mod (s.readP ra) (s.readP rb) (abcd s.n s.mod (s.readP ra) (s.readP rb))) :=
  (leaves_writeP_ws hs (windowGood_nil hw) rfl (if_pos ((coordsOk_both hs).2 ⟨hP, hQ⟩))).of_eq
    (stored_of_below hs (below_addInner hs _ _))

theorem paddd_leaves_infinite (hw : ws.val + 5 ≤ 16) (hP : InContract s (s.readP ra)) (hQ : InContract s (s.readP rb))
    (hz : (s.readP ra).z = 0 ∨ (s.readP rb).z = 0) :
    ∃ R, R.z = 0 ∧ Leaves (.paddd rd ra rb ws) s rd (window ws 5) R := by
  by_cases hb : Below s (s.readP ra) ∧ Below s (s.readP rb)
  · refine ⟨_, (elem_z_eq_zero hs (below_addInner hs _ _)).1 ?_, paddd_leaves hs rd ra rb ws hw hb.1 hb.2⟩
    obtain ⟨_, _, hz'⟩ := elem_addInner hs (s.readP ra) (s.readP rb) rfl rfl rfl rfl rfl
    rw [hz']
    rcases hz with hz | hz <;> simp [hz]
  · exact ⟨_, Nat.zero_mod _, leaves_writeP_ws hs (windowGood_nil hw) rfl
      ((if_neg ((coordsOk_both hs).not.2 hb)).trans (if_pos (pointOk_both hs hP hQ)))⟩
end

/-- Settles O44: the doubling formula in the residues. -/
theorem doublingFormula : Obligations.DoublingFormula := by
  intro rd ra ws s hs hw
  refine ⟨RoundTrip.pdbl rd ra ws rfl, fun hz => ?infinite, fun hP => ?finite⟩
  case infinite =>
    obtain ⟨R, hR, hleaves⟩ := pdbl_leaves_infinite hs rd ra ws hw hz
    exact hleaves.imp (Holds := (·.z = 0)) hR
  case finite =>
    obtain ⟨t, ht, hread, hframe⟩ := pdbl_leaves hs rd ra ws hw hP
    refine ⟨t, ht, hread ▸ below_dbl hs _, ?_, hframe⟩
    rw [hread]
    exact elem_dbl hs _ rfl rfl rfl

/-- Settles O45: the chord formula in the residues. -/
theorem distinctAdditionFormula : Obligations.DistinctAdditionFormula := by
  intro rd ra rb ws s hs hw
  refine ⟨RoundTrip.paddd rd ra rb ws rfl, fun hz hP hQ => ?infinite, fun hP hQ => ?finite⟩
  case infinite =>
    obtain ⟨R, hR, hleaves⟩ := paddd_leaves_infinite hs rd ra rb ws hw hP hQ hz
    exact hleaves.imp (Holds := (·.z = 0)) hR
  case finite =>
    obtain ⟨t, ht, hread, hframe⟩ := paddd_leaves hs rd ra rb ws hw hP hQ
    refine ⟨t, ht, hread ▸ below_addInner hs _ _, ?_, hframe⟩
    rw [hread]
    exact elem_addInner hs _ _ rfl rfl rfl rfl rfl

/-! ### `PADD` -/

section
variable {n M ca : Nat} {P Q : Point}

theorem addFull_left_infinite (hP : P.z = 0) : addFull n M ca P Q = some Q := if_pos (isInf_iff.2 hP)

theorem addFull_right_infinite (hP : P.z ≠ 0) (hQ : Q.z = 0) : addFull n M ca P Q = some P :=
  (if_neg (isInf_iff.not.2 hP)).trans (if_pos (isInf_iff.2 hQ))

/-- `Add` of finite points, by their cross products (R322). -/
theorem addFull_finite (hP : P.z ≠ 0) (hQ : Q.z ≠ 0) : addFull n M ca P Q =
    if (abcd n M P Q).A = (abcd n M P Q).B ∧ (abcd n M P Q).C = (abcd n M P Q).D then some (dbl n M ca P)
    else if (abcd n M P Q).A = (abcd n M P Q).B ∧ (abcd n M P Q).C = gNeg n M (abcd n M P Q).D then none
    else some (addInner n M P Q (abcd n M P Q)) :=
  (if_neg (isInf_iff.not.2 hP)).trans (if_neg (isInf_iff.not.2 hQ))
end

section
variable {s : State} {P Q : Point} (hs : Configured s)
include hs

/-- The three branches of `Add` on finite points, by their affine coordinates (R294). -/
theorem addFull_branches (hP : P.z ≠ 0) (hQ : Q.z ≠ 0) :
    (SameX s P Q → SameY s P Q → addFull s.n s.mod s.ca P Q = some (dbl s.n s.mod s.ca P)) ∧
    (SameX s P Q → ¬ SameY s P Q → OppositeY s P Q → addFull s.n s.mod s.ca P Q = none) ∧
    (¬ (SameX s P Q ∧ (SameY s P Q ∨ OppositeY s P Q)) →
      addFull s.n s.mod s.ca P Q = some (addInner s.n s.mod P Q (abcd s.n s.mod P Q))) := by
  rw [addFull_finite hP hQ, sameX_iff hs, sameY_iff hs, oppositeY_iff hs]
  refine ⟨fun hX hY => if_pos ⟨hX, hY⟩, fun hX hY hO => (if_neg (fun h => hY h.2)).trans (if_pos ⟨hX, hO⟩),
    fun h => ?_⟩
  rw [not_and, not_or] at h
  rw [if_neg (fun hXY => (h hXY.1).1 hXY.2), if_neg (fun hXO => (h hXO.1).2 hXO.2)]

variable (rd ra rb ws : Reg) (hw : ws.val + 5 ≤ 16)
include hw

/-- `PADD` where `Add` answers a point. -/
theorem padd_leaves_some {R : Point} (hP : InContract s (s.readP ra)) (hQ : InContract s (s.readP rb))
    (h : addFull s.n s.mod s.ca (s.readP ra) (s.readP rb) = some R) :
    Leaves (.padd rd ra rb ws) s rd (window ws 5) (stored s.n R) :=
  (leaves_of_requireWs hs (windowGood_nil hw) rfl ((if_pos (pointOk_both hs hP hQ)).trans (by rw [h]))
    (frame_writeP s rd R)).of_eq (readP_writeP rd)

/-- `PADD` where `Add` answers the explicit infinity: only `z` is written (R281). -/
theorem padd_leaves_none (hP : InContract s (s.readP ra)) (hQ : InContract s (s.readP rb))
    (h : addFull s.n s.mod s.ca (s.readP ra) (s.readP rb) = none) :
    Leaves (.padd rd ra rb ws) s rd (window ws 5) { s.readP rd with z := 0 } :=
  (leaves_of_requireWs hs (windowGood_nil hw) rfl ((if_pos (pointOk_both hs hP hQ)).trans (by rw [h]))
    (frame_writePz s rd 0)).of_eq (by rw [readP_writePz, Nat.zero_mod])

theorem padd_leaves (hP : InContract s (s.readP ra)) (hQ : InContract s (s.readP rb)) :
    Leaves (.padd rd ra rb ws) s rd (window ws 5)
      ((addFull s.n s.mod s.ca (s.readP ra) (s.readP rb)).elim { s.readP rd with z := 0 } (stored s.n)) := by
  cases h : addFull s.n s.mod s.ca (s.readP ra) (s.readP rb) with
  | none => exact padd_leaves_none hs rd ra rb ws hw hP hQ h
  | some R => exact padd_leaves_some hs rd ra rb ws hw hP hQ h
end

/-- Settles O46: the branches of `Add`, each with what the command of the branch leaves. -/
theorem genericAdditionBranches : Obligations.GenericAdditionBranches := by
  intro rd ra rb ws s hs hw P Q hP hQ
  obtain ⟨t, ht, hR, hframe⟩ := padd_leaves hs rd ra rb ws hw hP hQ
  refine ⟨RoundTrip.padd rd ra rb ws rfl, t, ht, fun hz => ?left, fun hPz hQz => ?right,
    fun hPz hQz hX hY => ?double, fun hPz hQz hX hY hO => ?opposite, fun hPz hQz h => ?chord, hframe⟩
  case left => rw [hR, addFull_left_infinite hz]; exact stored_readP hs rb
  case right => rw [hR, addFull_right_infinite hPz hQz]; exact stored_readP hs ra
  case double =>
    obtain ⟨hdouble, _, _⟩ := addFull_branches hs hPz hQz
    obtain ⟨u, hu, hread, _⟩ := pdbl_leaves hs rd ra ws (by omega) (hP.resolve_right hPz)
    refine ⟨u, hu, ?_⟩
    rw [hR, hdouble hX hY, hread]
    exact stored_of_below hs (below_dbl hs _)
  case opposite =>
    obtain ⟨_, hopposite, _⟩ := addFull_branches hs hPz hQz
    rw [hR, hopposite hX hY hO]
    rfl
  case chord =>
    obtain ⟨_, _, hchord⟩ := addFull_branches hs hPz hQz
    obtain ⟨u, hu, hread, _⟩ := paddd_leaves hs rd ra rb ws hw (hP.resolve_right hPz) (hQ.resolve_right hQz)
    refine ⟨u, hu, ?_⟩
    rw [hR, hchord h, hread]
    exact stored_of_below hs (below_addInner hs _ _)

/-! ### `PTOAFF` -/

section
variable {s : State} (hs : Configured s) (rd ws : Reg) (hw : ws.val + 5 ≤ 16)
include hs hw

theorem ptoaff_unchanged (h : (s.readP rd).z = 0 ∨ (s.readP rd).z = s.rone) :
    ∃ t, exec (.ptoaff rd ws) s = .next t ∧ t.readP rd = s.readP rd ∧ Footprint.Frame { f := window ws 5 } s t := by
  have hcond : ((s.readP rd).isInf || (s.readP rd).z == s.rone) = true := by simpa [isInf_iff] using h
  exact ⟨_, exec_of_requireWs hs (windowGood_nil hw) rfl (if_pos hcond), rfl,
    Frame.scratch ws 5 (Frame.tookDraws 2 (frame_refl s))⟩
end

/-- The affine coordinates in Montgomery form, `z` kept (R295). -/
def toAffine (n M : Nat) (P : Point) : Point :=
  { P with
    x := montMul n M P.x (montSq n M (montInv n M P.z))
    y := montMul n M P.y (montCube n M (montInv n M P.z)) }

section
variable {s : State} {P : Point} (hs : ValidConfig s)
include hs

theorem prime_of_valid : s.mod.Prime := by
  obtain ⟨_, hprime, _⟩ := hs
  exact hprime

theorem gcd_eq_one (hP : Below s P) (hz : P.z ≠ 0) : Nat.gcd P.z s.mod = 1 :=
  gcd_eq_one_of_lt_prime (prime_of_valid hs) (Nat.pos_of_ne_zero hz) hP.2.2

theorem below_toAffine (hP : Below s P) : Below s (toAffine s.n s.mod P) :=
  have h0 := (modulus hs.1).pos
  ⟨montMul_lt h0 .., montMul_lt h0 .., hP.2.2⟩

theorem elem_toAffine (hP : Below s P) (hz : P.z ≠ 0) :
    elem s (toAffine s.n s.mod P).x * elem s P.z ^ 2 = elem s P.x ∧
    elem s (toAffine s.n s.mod P).y * elem s P.z ^ 3 = elem s P.y := by
  have hinv : elem s (montInv s.n s.mod P.z) * elem s P.z = 1 :=
    elt_montInv (modulus hs.1).odd (prime_of_valid hs).one_lt (gcd_eq_one hs hP hz)
  have hx : elem s (toAffine s.n s.mod P).x = elem s P.x * elem s (montInv s.n s.mod P.z) ^ 2 := by
    rw [elem, toAffine]; exact (elt_montMul ..).trans (by rw [elt_montSq]; rfl)
  have hy : elem s (toAffine s.n s.mod P).y = elem s P.y * elem s (montInv s.n s.mod P.z) ^ 3 := by
    rw [elem, toAffine]; exact (elt_montMul ..).trans (by rw [elt_montCube]; rfl)
  rw [hx, hy, mul_assoc, mul_assoc, ← mul_pow, ← mul_pow, hinv]
  simp

theorem ptoaff_leaves (rd ws : Reg) (hw : ws.val + 5 ≤ 16) (hP : Below s (s.readP rd)) (hz : (s.readP rd).z ≠ 0)
    (hone : (s.readP rd).z ≠ s.rone) :
    Leaves (.ptoaff rd ws) s rd (window ws 5) (toAffine s.n s.mod (s.readP rd)) := by
  obtain ⟨hcfg, _, hrr, _⟩ := id hs
  have hcond : ¬ ((s.readP rd).isInf || (s.readP rd).z == s.rone) = true := by simpa [isInf_iff] using ⟨hz, hone⟩
  have hok : (s.coordsOk (s.readP rd) && s.invOk (s.readP rd).z) = true := by
    rw [(coordsOk_iff hcfg).2 hP, State.invOk, (fieldOk_iff hcfg).2 hP.2.2, gcd_eq_one hs hP hz, hrr, montRR]
    simp
  refine (leaves_of_requireWs hcfg (windowGood_nil hw) rfl ((if_neg hcond).trans (if_pos hok))
    (frame_writePxy ..)).of_eq ?_
  have hM := (modulus hcfg).lt
  have hbelow := below_toAffine hs hP
  rw [readP_writePxy]
  exact point_ext (Nat.mod_eq_of_lt (hbelow.1.trans hM)) (Nat.mod_eq_of_lt (hbelow.2.1.trans hM)) rfl
end

/-- Settles O47: infinity and a `z` of one are left alone, any other `z` is divided out. -/
theorem toAffineInPlace : Obligations.ToAffineInPlace := by
  intro rd ws s hs hw
  refine ⟨RoundTrip.ptoaff rd ws rfl, ptoaff_unchanged hs.1 rd ws hw, fun hP hz hone => ?_⟩
  obtain ⟨t, ht, hread, hframe⟩ := ptoaff_leaves hs rd ws hw hP hz hone
  obtain ⟨hx, hy⟩ := elem_toAffine hs hP hz
  refine ⟨t, ht, ?_⟩
  rw [hread]
  exact ⟨below_toAffine hs hP, hx, hy, rfl, hframe⟩

end Sys2Proof.Proofs.PointCommands
end

section
/-!
PROOFS. The affine group law (46_point.md R301) over a prime `M`: the reference law is that of a short Weierstrass curve
over `ZMod M`, read in the residues, and so are the doubling and the addition formula on Jacobian coordinates (R300).
-/

namespace Sys2Proof.Proofs.AffineLaw

open Sys2Proof.Machine Sys2Proof.Safety Sys2Proof.Proofs.Curve Sys2Proof.Proofs.PointCommands
open Sys2Proof.Proofs.Effects (executes)
open Sys2Proof.Proofs.Steps (inv_effect)
open WeierstrassCurve (Affine)

/-! ### The law of a curve over a field, on coordinates -/

/-- The curve `y² = x³ + a*x + b`. -/
def shortCurve {R : Type} [CommRing R] (a b : R) : Affine R := ⟨0, 0, 0, a, b⟩

section
variable {F : Type} [Field F] {a b x x₁ x₂ y y₁ y₂ l : F}

theorem shortCurve_negY : (shortCurve a b).negY x y = -y := by simp [shortCurve, Affine.negY]

theorem shortCurve_addX : (shortCurve a b).addX x₁ x₂ l = l ^ 2 - x₁ - x₂ := by simp [shortCurve]

theorem shortCurve_addY :
    (shortCurve a b).addY x₁ x₂ y₁ l = l * (x₁ - (shortCurve a b).addX x₁ x₂ l) - y₁ := by
  rw [Affine.addY, shortCurve_negY, Affine.negAddY]; ring

theorem shortCurve_equation : (shortCurve a b).Equation x y ↔ y ^ 2 = x ^ 3 + a * x + b := by
  rw [Affine.equation_iff]; simp [shortCurve]

variable [DecidableEq F]

theorem shortCurve_slope_tangent (hy : y ≠ -y) : (shortCurve a b).slope x x y y = (3 * x ^ 2 + a) / (2 * y) := by
  rw [Affine.slope_of_Y_ne rfl (by rwa [shortCurve_negY]), shortCurve_negY]
  simp [shortCurve, two_mul]

/-- The sum of two points of a curve by their coordinates, `none` for infinity. -/
def lineSum (W : Affine F) : Option (F × F) → Option (F × F) → Option (F × F)
  | none, Q => Q
  | some P, none => some P
  | some P, some Q =>
    if P.1 = Q.1 ∧ P.2 = W.negY Q.1 Q.2 then none
    else some (W.addX P.1 Q.1 (W.slope P.1 Q.1 P.2 Q.2), W.addY P.1 Q.1 P.2 (W.slope P.1 Q.1 P.2 Q.2))

theorem lineSum_none (W : Affine F) (P : Option (F × F)) : lineSum W P none = P := by cases P <;> rfl

/-- A vertical line has infinity as its third point. -/
theorem lineSum_vertical (hx : x₁ = x₂) (hy : y₁ = -y₂) :
    lineSum (shortCurve a b) (some (x₁, y₁)) (some (x₂, y₂)) = none :=
  if_pos ⟨hx, hy.trans shortCurve_negY.symm⟩

/-- The sum along a tangent that is not vertical. -/
theorem lineSum_tangent (hy : y ≠ -y) (hl : l = (3 * x ^ 2 + a) / (2 * y)) :
    lineSum (shortCurve a b) (some (x, y)) (some (x, y)) =
      some (l ^ 2 - x - x, l * (x - (l ^ 2 - x - x)) - y) := by
  rw [lineSum, if_neg fun h => hy (h.2.trans shortCurve_negY), shortCurve_slope_tangent hy, ← hl, shortCurve_addY,
    shortCurve_addX]

/-- The sum along a chord. -/
theorem lineSum_chord (hx : x₁ ≠ x₂) (hl : l = (y₁ - y₂) / (x₁ - x₂)) :
    lineSum (shortCurve a b) (some (x₁, y₁)) (some (x₂, y₂)) =
      some (l ^ 2 - x₁ - x₂, l * (x₁ - (l ^ 2 - x₁ - x₂)) - y₁) := by
  rw [lineSum, if_neg fun h => hx h.1, Affine.slope_of_X_ne hx, ← hl, shortCurve_addY, shortCurve_addX]
end

/-! ### The formulas on Jacobian coordinates, divided out -/

section
variable {F : Type} [Field F] {a x y z A C E D l x' S T : F}

/-- The doubling formula, with the slope of the tangent in affine coordinates. -/
theorem tangent_divided (h2 : (2 : F) ≠ 0) (hy : y ≠ 0) (hz : z ≠ 0) (hS : S = 4 * x * y ^ 2)
    (hT : T = 3 * x ^ 2 + a * z ^ 4) (hx' : x' = T ^ 2 - 2 * S)
    (hl : l = (3 * (x / z ^ 2) ^ 2 + a) / (2 * (y / z ^ 3))) :
    x' / (2 * y * z) ^ 2 = l ^ 2 - x / z ^ 2 - x / z ^ 2 ∧
    (T * (S - x') - 8 * y ^ 4) / (2 * y * z) ^ 3 = l * (x / z ^ 2 - (l ^ 2 - x / z ^ 2 - x / z ^ 2)) - y / z ^ 3 := by
  have hl' : l = T / (2 * y * z) := by rw [hl, hT]; field_simp
  have hX : x' / (2 * y * z) ^ 2 = l ^ 2 - x / z ^ 2 - x / z ^ 2 := by rw [hl', hx', hS]; field_simp; ring
  refine ⟨hX, ?_⟩
  rw [← hX, hl', hS]
  field_simp
  ring

/-- The chord formula, with the slope of the chord in affine coordinates over the common denominator `z`. -/
theorem chord_divided (hz : z ≠ 0) (hE : E ≠ 0) (hx' : x' = D ^ 2 - 2 * A * E ^ 2 - E ^ 3)
    (hl : l = (C / z ^ 3 - (C + D) / z ^ 3) / (A / z ^ 2 - (A + E) / z ^ 2)) :
    x' / (z * E) ^ 2 = l ^ 2 - A / z ^ 2 - (A + E) / z ^ 2 ∧
    (D * (A * E ^ 2 - x') - C * E ^ 3) / (z * E) ^ 3 =
      l * (A / z ^ 2 - (l ^ 2 - A / z ^ 2 - (A + E) / z ^ 2)) - C / z ^ 3 := by
  have hl' : l = D / (z * E) := by
    rw [hl, ← sub_div, ← sub_div, sub_add_cancel_left, sub_add_cancel_left]; field_simp
  have hX : x' / (z * E) ^ 2 = l ^ 2 - A / z ^ 2 - (A + E) / z ^ 2 := by rw [hl', hx']; field_simp; ring
  refine ⟨hX, ?_⟩
  rw [← hX, hl']
  field_simp
end

/-- Coordinates that satisfy the equation of the curve, or infinity. -/
def OnShortCurve {F : Type} [Field F] (a b : F) (P : Option (F × F)) : Prop :=
  ∀ p ∈ P, p.2 ^ 2 = p.1 ^ 3 + a * p.1 + b

/-- Two points of a curve on one vertical line are equal or opposite. -/
theorem eq_or_eq_neg_of_sq {F : Type} [Field F] {a b x y₁ y₂ : F} (h₁ : y₁ ^ 2 = x ^ 3 + a * x + b)
    (h₂ : y₂ ^ 2 = x ^ 3 + a * x + b) : y₁ = y₂ ∨ y₁ = -y₂ := sq_eq_sq_iff_eq_or_eq_neg.1 (h₁.trans h₂.symm)

/-! ### Affine points and their residues -/

/-- Both coordinates are below `M`. -/
def Reduced (M : Nat) (P : AffPoint) : Prop := ∀ p ∈ P, p.1 < M ∧ p.2 < M

/-- The coordinates as residues. -/
def residues (M : Nat) (P : AffPoint) : Option (ZMod M × ZMod M) := P.map fun p => ((p.1 : ZMod M), (p.2 : ZMod M))

section
variable {M : Nat}

theorem cast_inj {x y : Nat} (hx : x < M) (hy : y < M) : (x : ZMod M) = y ↔ x = y := by
  rw [ZMod.natCast_eq_natCast_iff', Nat.mod_eq_of_lt hx, Nat.mod_eq_of_lt hy]

theorem residues_inj {P Q : AffPoint} (hP : Reduced M P) (hQ : Reduced M Q) (h : residues M P = residues M Q) :
    P = Q := by
  match P, Q with
  | none, none => rfl
  | some p, some q =>
    obtain ⟨hp1, hp2⟩ := hP p rfl
    obtain ⟨hq1, hq2⟩ := hQ q rfl
    simp only [residues, Option.map_some, Option.some.injEq, Prod.mk.injEq, cast_inj hp1 hq1, cast_inj hp2 hq2] at h
    rw [Prod.ext h.1 h.2]

/-- The third point of the line of slope `lam` through `P` and `Q`, mirrored (R301). -/
def affThird (M : Nat) (P Q : Nat × Nat) (lam : Nat) : Nat × Nat :=
  let x3 := (lam * lam + 2 * M - P.1 - Q.1) % M
  (x3, (lam * (P.1 + M - x3) + M - P.2) % M)

variable {A : Nat} {P Q : Nat × Nat}

theorem affAdd_vertical (hx : P.1 = Q.1) (hy : (P.2 + Q.2) % M = 0) : affAdd M A (some P) (some Q) = none :=
  if_pos ⟨hx, hy⟩

theorem affAdd_tangent (hy : ¬ (P.2 + P.2) % M = 0) : affAdd M A (some P) (some P) =
    some (affThird M P P ((3 * P.1 * P.1 + A) * modInv M (2 * P.2 % M) % M)) := by
  rw [affAdd, if_neg fun h => hy h.2, if_pos ⟨rfl, rfl⟩]
  rfl

theorem affAdd_chord (hx : P.1 ≠ Q.1) : affAdd M A (some P) (some Q) =
    some (affThird M P Q ((Q.2 + M - P.2) * modInv M ((Q.1 + M - P.1) % M) % M)) := by
  rw [affAdd, if_neg fun h => hx h.1, if_neg fun h => hx h.1]
  rfl

theorem reduced_affThird (h0 : 0 < M) (lam : Nat) : Reduced M (some (affThird M P Q lam)) := by
  rintro _ ⟨⟩
  exact ⟨Nat.mod_lt _ h0, Nat.mod_lt _ h0⟩

theorem reduced_affAdd {P Q : AffPoint} (h0 : 0 < M) (hP : Reduced M P) (hQ : Reduced M Q) :
    Reduced M (affAdd M A P Q) := by
  match P, Q with
  | none, _ => exact hQ
  | some _, none => exact hP
  | some p, some q =>
    rw [affAdd]
    split
    · exact nofun
    · exact reduced_affThird h0 _

theorem residues_affThird {l : ZMod M} {lam : Nat} (hl : (lam : ZMod M) = l) (hP : P.1 < M ∧ P.2 < M)
    (hQ : Q.1 < M) : residues M (some (affThird M P Q lam)) =
      some (l ^ 2 - P.1 - Q.1, l * (P.1 - (l ^ 2 - P.1 - Q.1)) - P.2) := by
  have h0 : 0 < M := Nat.zero_lt_of_lt hQ
  have hx : (((affThird M P Q lam).1 : Nat) : ZMod M) = l ^ 2 - P.1 - Q.1 := by
    rw [affThird, ZMod.natCast_mod, Nat.sub_sub, Nat.cast_sub (by omega)]
    push_cast
    rw [ZMod.natCast_self, hl]
    ring
  have hlt : (affThird M P Q lam).1 < M := Nat.mod_lt _ h0
  have hy : (((affThird M P Q lam).2 : Nat) : ZMod M) = l * (P.1 - (l ^ 2 - P.1 - Q.1)) - P.2 := by
    rw [← hx, show (affThird M P Q lam).2 = (lam * (P.1 + M - (affThird M P Q lam).1) + M - P.2) % M from rfl,
      ZMod.natCast_mod, Nat.cast_sub (by omega)]
    push_cast
    rw [Nat.cast_sub (by omega)]
    push_cast
    rw [ZMod.natCast_self, hl]
    ring
  rw [residues, Option.map_some, hx, hy]

variable [hp : Fact M.Prime]

/-- `modInv` is the inverse of the field of `M` elements. -/
theorem cast_modInv {d : Nat} (hd : (d : ZMod M) ≠ 0) : ((modInv M (d % M) : Nat) : ZMod M) = (d : ZMod M)⁻¹ := by
  have hg : Nat.gcd (d % M) M = 1 := by
    rw [← Nat.gcd_rec, Nat.gcd_comm]
    exact ((Nat.Prime.coprime_iff_not_dvd hp.out).2 fun h => hd ((ZMod.natCast_eq_zero_iff d M).2 h)).symm
  have h := (modInv_spec hp.out.one_lt hg).2
  rw [ZMod.natCast_mod] at h
  exact eq_inv_of_mul_eq_one_left h

/-- The slope of the tangent, as the reference law computes it. -/
theorem cast_tangentSlope (hy : (P.2 : ZMod M) ≠ -P.2) :
    (((3 * P.1 * P.1 + A) * modInv M (2 * P.2 % M) % M : Nat) : ZMod M) = (3 * (P.1 : ZMod M) ^ 2 + A) / (2 * P.2) := by
  have hd : ((2 * P.2 : Nat) : ZMod M) ≠ 0 := by
    rw [Nat.cast_mul, Nat.cast_two, two_mul]
    exact fun h => hy (add_eq_zero_iff_eq_neg.1 h)
  rw [ZMod.natCast_mod, Nat.cast_mul, cast_modInv hd, div_eq_mul_inv]
  push_cast
  ring

/-- The slope of the chord, as the reference law computes it. -/
theorem cast_chordSlope (hP : P.1 < M ∧ P.2 < M) (hx : (P.1 : ZMod M) ≠ Q.1) :
    (((Q.2 + M - P.2) * modInv M ((Q.1 + M - P.1) % M) % M : Nat) : ZMod M) =
      ((P.2 : ZMod M) - Q.2) / (P.1 - Q.1) := by
  have hnum : ((Q.2 + M - P.2 : Nat) : ZMod M) = -((P.2 : ZMod M) - Q.2) := by
    rw [Nat.cast_sub (by omega), Nat.cast_add, ZMod.natCast_self]; ring
  have hden : ((Q.1 + M - P.1 : Nat) : ZMod M) = -((P.1 : ZMod M) - Q.1) := by
    rw [Nat.cast_sub (by omega), Nat.cast_add, ZMod.natCast_self]; ring
  have hd : ((Q.1 + M - P.1 : Nat) : ZMod M) ≠ 0 := by rw [hden]; exact neg_ne_zero.2 (sub_ne_zero.2 hx)
  rw [ZMod.natCast_mod, Nat.cast_mul, cast_modInv hd, hnum, hden, ← div_eq_mul_inv, neg_div_neg_eq]

/-- The reference law is the law of the curve, on points of the curve. -/
theorem residues_affAdd {P Q : AffPoint} {b : ZMod M} (hP : Reduced M P) (hQ : Reduced M Q)
    (hPc : OnShortCurve (A : ZMod M) b (residues M P)) (hQc : OnShortCurve (A : ZMod M) b (residues M Q)) :
    residues M (affAdd M A P Q) = lineSum (shortCurve (A : ZMod M) b) (residues M P) (residues M Q) := by
  match P, Q with
  | none, _ => rfl
  | some _, none => rfl
  | some p, some q =>
    have hp := hP p rfl
    have hq := hQ q rfl
    have hsum : (p.2 + q.2) % M = 0 ↔ (p.2 : ZMod M) = -q.2 := by
      rw [← Nat.dvd_iff_mod_eq_zero, ← ZMod.natCast_eq_zero_iff, Nat.cast_add, add_eq_zero_iff_eq_neg]
    by_cases hx : p.1 = q.1
    · by_cases hy : (p.2 + q.2) % M = 0
      · rw [affAdd_vertical hx hy]
        exact (lineSum_vertical (congrArg Nat.cast hx) (hsum.1 hy)).symm
      · have hqc : (q.2 : ZMod M) ^ 2 = (p.1 : ZMod M) ^ 3 + A * p.1 + b := by rw [hx]; exact hQc _ rfl
        have hpq : (p.2 : ZMod M) = q.2 := (eq_or_eq_neg_of_sq (hPc _ rfl) hqc).resolve_right (hsum.not.1 hy)
        obtain rfl : p = q := Prod.ext hx ((cast_inj hp.2 hq.2).1 hpq)
        have hy' := hsum.not.1 hy
        rw [affAdd_tangent hy, residues_affThird (cast_tangentSlope hy') hp hp.1]
        exact (lineSum_tangent hy' rfl).symm
    · have hx' : (p.1 : ZMod M) ≠ q.1 := (cast_inj hp.1 hq.1).not.2 hx
      rw [affAdd_chord hx, residues_affThird (cast_chordSlope hp hx') hp hq.1]
      exact (lineSum_chord hx' rfl).symm
end

/-! ### The affine point of a register's value -/

section
variable {s : State} {P Q : Point}

theorem affine_infinite (hz : P.z = 0) : affine s P = none := if_pos (isInf_iff.2 hz)

theorem affine_finite (hz : P.z ≠ 0) : affine s P =
    some (unmont s.n s.mod P.x * (modInv s.mod (unmont s.n s.mod P.z) * modInv s.mod (unmont s.n s.mod P.z)) % s.mod,
      unmont s.n s.mod P.y * (modInv s.mod (unmont s.n s.mod P.z) * modInv s.mod (unmont s.n s.mod P.z) *
        modInv s.mod (unmont s.n s.mod P.z)) % s.mod) := if_neg (isInf_iff.not.2 hz)

theorem reduced_affine (h0 : 0 < s.mod) : Reduced s.mod (affine s P) := by
  by_cases hz : P.z = 0
  · rw [affine_infinite hz]; exact nofun
  · rw [affine_finite hz]
    rintro _ ⟨⟩
    exact ⟨Nat.mod_lt _ h0, Nat.mod_lt _ h0⟩

/-- The curve of the configuration, over the field of `M` elements. -/
def curve (s : State) : Affine (ZMod s.mod) := shortCurve (elem s s.ca) (elem s s.cb)

theorem residues_affine_infinite (hz : P.z = 0) : residues s.mod (affine s P) = none := by
  rw [affine_infinite hz]; rfl

variable [hp : Fact s.mod.Prime]

/-- The affine point of a finite one: the Jacobian coordinates divided out (R280). -/
theorem residues_affine_finite (hz : elem s P.z ≠ 0) : residues s.mod (affine s P) =
    some (elem s P.x / elem s P.z ^ 2, elem s P.y / elem s P.z ^ 3) := by
  have hinv : ((modInv s.mod (unmont s.n s.mod P.z) : Nat) : ZMod s.mod) = (elem s P.z)⁻¹ := by
    have hlt : unmont s.n s.mod P.z < s.mod := Nat.mod_lt _ hp.out.pos
    have h := cast_modInv (M := s.mod) (d := unmont s.n s.mod P.z) hz
    rwa [Nat.mod_eq_of_lt hlt] at h
  have hz' : P.z ≠ 0 := fun h => hz (by rw [h, elem_zero])
  rw [affine_finite hz', residues, Option.map_some]
  simp only [ZMod.natCast_mod, Nat.cast_mul, hinv, ← mul_inv]
  rw [div_eq_mul_inv, div_eq_mul_inv, pow_three', sq]
  rfl

theorem sameX_iff_div (hP : elem s P.z ≠ 0) (hQ : elem s Q.z ≠ 0) :
    SameX s P Q ↔ elem s P.x / elem s P.z ^ 2 = elem s Q.x / elem s Q.z ^ 2 :=
  (div_eq_div_iff (pow_ne_zero 2 hP) (pow_ne_zero 2 hQ)).symm

theorem sameY_iff_div (hP : elem s P.z ≠ 0) (hQ : elem s Q.z ≠ 0) :
    SameY s P Q ↔ elem s P.y / elem s P.z ^ 3 = elem s Q.y / elem s Q.z ^ 3 :=
  (div_eq_div_iff (pow_ne_zero 3 hP) (pow_ne_zero 3 hQ)).symm

theorem oppositeY_iff_div (hP : elem s P.z ≠ 0) (hQ : elem s Q.z ≠ 0) :
    OppositeY s P Q ↔ elem s P.y / elem s P.z ^ 3 = -(elem s Q.y / elem s Q.z ^ 3) := by
  rw [← neg_div, div_eq_div_iff (pow_ne_zero 3 hP) (pow_ne_zero 3 hQ), neg_mul]
  rfl

variable (hs : Configured s)
include hs

/-- A point on the curve stands for an affine point of the curve (R280). -/
theorem onShortCurve_affine (hP : Sound s P) :
    OnShortCurve (elem s s.ca) (elem s s.cb) (residues s.mod (affine s P)) := by
  by_cases hz : P.z = 0
  · rw [residues_affine_infinite hz]; exact nofun
  · have hz' : elem s P.z ≠ 0 := (elem_z_eq_zero hs hP.1).not.2 hz
    have h : elem s P.y ^ 2 =
        elem s P.x ^ 3 + elem s s.ca * elem s P.x * elem s P.z ^ 4 + elem s s.cb * elem s P.z ^ 6 :=
      (onCurve_iff.1 hP.2).resolve_left hz
    rw [residues_affine_finite hz']
    rintro _ ⟨⟩
    field_simp
    linear_combination h

/-- The reference law on the affine points of two points of the curve. Its coefficient `coeffA` and that of `curve` are
one by definition: both are `unmont` of `CA`. -/
theorem residues_affAdd_affine (hP : Sound s P) (hQ : Sound s Q) :
    residues s.mod (affAdd s.mod (coeffA s) (affine s P) (affine s Q)) =
      lineSum (curve s) (residues s.mod (affine s P)) (residues s.mod (affine s Q)) :=
  residues_affAdd (reduced_affine hp.out.pos) (reduced_affine hp.out.pos) (onShortCurve_affine hs hP)
    (onShortCurve_affine hs hQ)

theorem two_ne_zero_of_odd : (2 : ZMod s.mod) ≠ 0 := by
  intro h
  have h' := two_mul_half (modulus hs).odd
  rw [h, zero_mul] at h'
  exact zero_ne_one h'

/-- The doubling formula is the tangent law (R300). -/
theorem residues_affine_dbl (hP : Below s P) :
    residues s.mod (affine s (dbl s.n s.mod s.ca P)) =
      lineSum (curve s) (residues s.mod (affine s P)) (residues s.mod (affine s P)) := by
  obtain ⟨hx', hy', hz'⟩ := elem_dbl hs P rfl rfl rfl
  have h2 := two_ne_zero_of_odd hs
  have hinf : elem s (dbl s.n s.mod s.ca P).z = 0 → residues s.mod (affine s (dbl s.n s.mod s.ca P)) = none :=
    fun h => residues_affine_infinite ((elem_z_eq_zero hs (below_dbl hs P)).1 h)
  by_cases hz : elem s P.z = 0
  · rw [residues_affine_infinite ((elem_z_eq_zero hs hP).1 hz), hinf (by rw [hz', hz, mul_zero])]
    rfl
  by_cases hy : elem s P.y = 0
  · rw [hinf (by rw [hz', hy, mul_zero, zero_mul]), residues_affine_finite hz, hy, zero_div]
    exact (lineSum_vertical rfl neg_zero.symm).symm
  · have hY : elem s P.y / elem s P.z ^ 3 ≠ -(elem s P.y / elem s P.z ^ 3) := by
      intro h
      rw [eq_neg_iff_add_eq_zero, ← two_mul, mul_eq_zero, div_eq_zero_iff] at h
      simp [h2, hy, hz] at h
    have hz3 : elem s (dbl s.n s.mod s.ca P).z ≠ 0 := by rw [hz']; simp [h2, hy, hz]
    rw [residues_affine_finite hz3, residues_affine_finite hz, curve, lineSum_tangent hY rfl, hx', hy', hz']
    obtain ⟨hX, hY⟩ := tangent_divided (a := elem s s.ca) (x := elem s P.x) h2 hy hz rfl rfl rfl rfl
    rw [hX, hY]

/-- The chord formula is the chord law, where the affine `X` differ (R300). -/
theorem residues_affine_addInner (hPz : elem s P.z ≠ 0) (hQz : elem s Q.z ≠ 0) (hX : ¬ SameX s P Q) :
    residues s.mod (affine s (addInner s.n s.mod P Q (abcd s.n s.mod P Q))) =
      lineSum (curve s) (residues s.mod (affine s P)) (residues s.mod (affine s Q)) := by
  generalize hA : elem s P.x * elem s Q.z ^ 2 = A
  generalize hC : elem s P.y * elem s Q.z ^ 3 = C
  obtain ⟨E, hE⟩ : ∃ E, elem s Q.x * elem s P.z ^ 2 = A + E := ⟨_, (add_sub_cancel _ _).symm⟩
  obtain ⟨D, hD⟩ : ∃ D, elem s Q.y * elem s P.z ^ 3 = C + D := ⟨_, (add_sub_cancel _ _).symm⟩
  obtain ⟨hx', hy', hz'⟩ := elem_addInner hs P Q hA.symm hC.symm (eq_sub_of_add_eq' hE.symm)
    (eq_sub_of_add_eq' hD.symm) rfl
  have hE0 : E ≠ 0 := by
    rintro rfl
    exact hX (by rw [SameX, hA, hE, add_zero])
  have hz : elem s P.z * elem s Q.z ≠ 0 := mul_ne_zero hPz hQz
  have hz3 : elem s (addInner s.n s.mod P Q (abcd s.n s.mod P Q)).z ≠ 0 := by rw [hz']; exact mul_ne_zero hz hE0
  have hPaff : residues s.mod (affine s P) =
      some (A / (elem s P.z * elem s Q.z) ^ 2, C / (elem s P.z * elem s Q.z) ^ 3) := by
    rw [residues_affine_finite hPz, ← hA, ← hC, mul_pow, mul_pow, mul_div_mul_right _ _ (pow_ne_zero 2 hQz),
      mul_div_mul_right _ _ (pow_ne_zero 3 hQz)]
  have hQaff : residues s.mod (affine s Q) =
      some ((A + E) / (elem s P.z * elem s Q.z) ^ 2, (C + D) / (elem s P.z * elem s Q.z) ^ 3) := by
    rw [residues_affine_finite hQz, ← hE, ← hD, mul_comm (elem s P.z), mul_pow, mul_pow,
      mul_div_mul_right _ _ (pow_ne_zero 2 hPz), mul_div_mul_right _ _ (pow_ne_zero 3 hPz)]
  have hx : A / (elem s P.z * elem s Q.z) ^ 2 ≠ (A + E) / (elem s P.z * elem s Q.z) ^ 2 := by
    rw [Ne, div_left_inj' (pow_ne_zero 2 hz), left_eq_add]
    exact hE0
  obtain ⟨hX', hY'⟩ := chord_divided (A := A) (C := C) (D := D) hz hE0 rfl rfl
  rw [residues_affine_finite hz3, hPaff, hQaff, curve, lineSum_chord hx rfl, hx', hy', hz', hX', hY']

/-- `Add` on points of the curve is the law of the curve on the affine points (R300). -/
theorem residues_addFull (hP : Sound s P) (hQ : Sound s Q) :
    residues s.mod ((addFull s.n s.mod s.ca P Q).elim none (affine s)) =
      lineSum (curve s) (residues s.mod (affine s P)) (residues s.mod (affine s Q)) := by
  by_cases hPz : P.z = 0
  · rw [addFull_left_infinite hPz, residues_affine_infinite hPz]
    rfl
  by_cases hQz : Q.z = 0
  · rw [addFull_right_infinite hPz hQz, residues_affine_infinite hQz, lineSum_none]
    rfl
  have hPz' := (elem_z_eq_zero hs hP.1).not.2 hPz
  have hQz' := (elem_z_eq_zero hs hQ.1).not.2 hQz
  have hPaff := residues_affine_finite hPz'
  have hQaff := residues_affine_finite hQz'
  obtain ⟨hdouble, hopposite, hchord⟩ := addFull_branches hs hPz hQz
  by_cases hX : SameX s P Q
  · have hX' := (sameX_iff_div hPz' hQz').1 hX
    by_cases hY : SameY s P Q
    · have hPQ : residues s.mod (affine s Q) = residues s.mod (affine s P) := by
        rw [hPaff, hQaff, hX', (sameY_iff_div hPz' hQz').1 hY]
      rw [hdouble hX hY, hPQ]
      exact residues_affine_dbl hs hP.1
    · have hPc := onShortCurve_affine hs hP _ hPaff
      have hQc := onShortCurve_affine hs hQ _ hQaff
      rw [← hX'] at hQc
      have hO := (eq_or_eq_neg_of_sq hPc hQc).resolve_left ((sameY_iff_div hPz' hQz').not.1 hY)
      rw [hopposite hX hY ((oppositeY_iff_div hPz' hQz').2 hO), hPaff, hQaff]
      exact (lineSum_vertical hX' hO).symm
  · rw [hchord fun h => hX h.1]
    exact residues_affine_addInner hs hPz' hQz' hX
end

/-! ### `PADD` and `PDBL` -/

section
variable {s : State} {P Q : Point} (hs : ValidConfig s)
include hs

/-- `Add` answers the sum of the affine points by the reference law (R300, R301). -/
theorem affine_addFull (hP : Sound s P) (hQ : Sound s Q) :
    (addFull s.n s.mod s.ca P Q).elim none (affine s) = affAdd s.mod (coeffA s) (affine s P) (affine s Q) := by
  have : Fact s.mod.Prime := ⟨prime_of_valid hs⟩
  have h0 := (prime_of_valid hs).pos
  refine residues_inj ?_ (reduced_affAdd h0 (reduced_affine h0) (reduced_affine h0))
    ((residues_addFull hs.1 hP hQ).trans (residues_affAdd_affine hs.1 hP hQ).symm)
  cases addFull s.n s.mod s.ca P Q with
  | none => exact nofun
  | some R => exact reduced_affine h0

/-- The doubling formula gives the double of the affine point by the reference law (R300, R301). -/
theorem affine_dbl (hP : Sound s P) :
    affine s (dbl s.n s.mod s.ca P) = affAdd s.mod (coeffA s) (affine s P) (affine s P) := by
  have : Fact s.mod.Prime := ⟨prime_of_valid hs⟩
  have h0 := (prime_of_valid hs).pos
  exact residues_inj (reduced_affine h0) (reduced_affAdd h0 (reduced_affine h0) (reduced_affine h0))
    ((residues_affine_dbl hs.1 hP.1).trans (residues_affAdd_affine hs.1 hP hP).symm)

/-- The point `PADD` leaves stands for what `Add` answers. -/
theorem affine_padd (hP : Sound s P) (hQ : Sound s Q) (old : Point) :
    affine s ((addFull s.n s.mod s.ca P Q).elim { old with z := 0 } (stored s.n)) =
      (addFull s.n s.mod s.ca P Q).elim none (affine s) := by
  cases h : addFull s.n s.mod s.ca P Q with
  | none => exact affine_infinite rfl
  | some R =>
    have hR := stored_of_below hs.1 (sound_addFull hs.1 hP hQ h).1
    exact congrArg (affine s) hR
end

/-- Settles O50: the formulas in the residues are those of the affine law. -/
theorem additionAgreesWithAffineLaw : Obligations.AdditionAgreesWithAffineLaw := by
  intro rd ra rb ws s hs hw hP hQ hPc hQc
  refine ⟨?padd, ?pdbl⟩
  case padd =>
    obtain ⟨t, ht, hread, _⟩ := padd_leaves hs.1 rd ra rb ws hw (.inl hP) (.inl hQ)
    refine ⟨t, ht, ?_⟩
    rw [hread, affine_padd hs ⟨hP, hPc⟩ ⟨hQ, hQc⟩, affine_addFull hs ⟨hP, hPc⟩ ⟨hQ, hQc⟩]
  case pdbl =>
    obtain ⟨t, ht, hread, _⟩ := pdbl_leaves hs.1 rd ra ws (by omega) hP
    refine ⟨t, ht, ?_⟩
    rw [hread, affine_dbl hs ⟨hP, hPc⟩]

/-! ### `PTOAFF` and `PFROMAFF` as a pair -/

theorem frame_naming_point {s t : State} {fs : List Reg} (rd : Reg) (h : Footprint.Frame { f := fs } s t) :
    Footprint.Frame { f := fs, p := [rd] } s t :=
  Frame.weaken h (by simp) (by simp) (by simp) (by simp) (by simp) (by simp) (by simp) (by simp)

section
variable {s : State} (hs : ValidConfig s) (rd ws : Reg)
include hs

theorem elem_rone : elem s s.rone = 1 := by
  obtain ⟨hcfg, _, _, hrone⟩ := hs
  rw [hrone]
  exact elt_montOne (modulus hcfg).odd

/-- `PTOAFF` on a finite point, `z` one or not: the coordinates become the affine ones in Montgomery form. -/
theorem ptoaff_finite (hw : ws.val + 5 ≤ 16) (hP : Below s (s.readP rd)) (hz : (s.readP rd).z ≠ 0) :
    ∃ R, Leaves (.ptoaff rd ws) s rd (window ws 5) R ∧ Below s R ∧ R.z = (s.readP rd).z ∧
      elem s R.x * elem s (s.readP rd).z ^ 2 = elem s (s.readP rd).x ∧
      elem s R.y * elem s (s.readP rd).z ^ 3 = elem s (s.readP rd).y := by
  by_cases hone : (s.readP rd).z = s.rone
  · obtain ⟨t, ht, hread, hframe⟩ := ptoaff_unchanged hs.1 rd ws hw (.inr hone)
    refine ⟨_, ⟨t, ht, hread, frame_naming_point rd hframe⟩, hP, rfl, ?_, ?_⟩ <;> rw [hone, elem_rone hs, one_pow, mul_one]
  · exact ⟨_, ptoaff_leaves hs rd ws hw hP hz hone, below_toAffine hs hP, rfl, elem_toAffine hs hP hz⟩

/-- A command that leaves a point keeps the configuration committed. -/
theorem configured_of_leaves {i : Instr} {t : State} {fp : Footprint} (ht : exec i s = .next t)
    (hframe : fp.Frame s t) (hfp : fp.cfgok = false) : Configured t := by
  obtain ⟨⟨hinv, hok⟩, _⟩ := hs
  obtain ⟨t', ht', heffect⟩ := executes s i
  cases ht.symm.trans ht'
  obtain ⟨_, _, _, _, _, _, hcfgok, _⟩ := hframe
  exact ⟨inv_effect hinv heffect, (hcfgok hfp).trans hok⟩
end

/-- Settles O48: after the pair `z` is one and the coordinates are the affine ones. -/
theorem affineConversionPair : Obligations.AffineConversionPair := by
  intro rd ws s hs hw hP hz
  have : Fact s.mod.Prime := ⟨prime_of_valid hs⟩
  have h0 := (prime_of_valid hs).pos
  have hz' := (elem_z_eq_zero hs.1 hP).not.2 hz
  obtain ⟨R, ⟨u, hu, rfl, hframe⟩, hR, hRz, hx, hy⟩ := ptoaff_finite hs rd ws hw hP hz
  have hcfg := configured_of_leaves hs hu hframe rfl
  obtain ⟨_, _, _, _, _, _, _, _, _, hmod, _, _, hrone, _⟩ := hframe
  obtain ⟨S, ⟨t, ht, rfl, _⟩, _, hfinite⟩ := pfromaff_leaves hcfg rd
  have hread : t.readP rd = { u.readP rd with z := s.rone } := by
    rw [hfinite (by rw [Below, hmod]; exact hR) (by rw [hRz]; exact hz), hrone]
  have hone : elem s s.rone ≠ 0 := by rw [elem_rone hs]; exact one_ne_zero
  have hnew : residues s.mod (affine s (t.readP rd)) = some (elem s (u.readP rd).x, elem s (u.readP rd).y) := by
    rw [hread, residues_affine_finite hone, elem_rone hs]
    simp
  have hold : residues s.mod (affine s (s.readP rd)) = some (elem s (u.readP rd).x, elem s (u.readP rd).y) := by
    rw [residues_affine_finite hz', ← hx, ← hy, mul_div_cancel_right₀ _ (pow_ne_zero 2 hz'),
      mul_div_cancel_right₀ _ (pow_ne_zero 3 hz')]
  refine ⟨t, ⟨u, hu, t, ht, rfl⟩, ?below, by rw [hread], ?same, ?coordinates⟩
  case below =>
    rw [hread]
    exact ⟨hR.1, hR.2.1, rone_lt hs.1⟩
  case same => exact residues_inj (reduced_affine h0) (reduced_affine h0) (hnew.trans hold.symm)
  case coordinates =>
    rw [hread]
    refine residues_inj (reduced_affine h0) ?_ hold
    rintro _ ⟨⟩
    exact ⟨Nat.mod_lt _ h0, Nat.mod_lt _ h0⟩

end Sys2Proof.Proofs.AffineLaw
end

section
/-!
PROOFS. The scalar multiplication (47_scalar_mul.md R321, R324) on a curve that is not singular: its points form a group
under the law of R301, Mathlib's group of the Weierstrass curve, and the loop of `PSMUL` computes a multiple in it.
-/

namespace Sys2Proof.Proofs.ScalarMultiplication

open Sys2Proof.Machine Sys2Proof.Safety Sys2Proof.Laws Sys2Proof.Proofs.Curve Sys2Proof.Proofs.PointCommands
open Sys2Proof.Proofs.AffineLaw
open WeierstrassCurve (Affine)

/-! ### The group of the curve -/

section
variable {F : Type} [Field F] {W : Affine F}

/-- The coordinates of a point of the group, `none` for its zero. -/
def coords : W.Point → Option (F × F)
  | .zero => none
  | .some x y _ => some (x, y)

/-- Every point of a short curve that is not singular is a point of the group. -/
theorem exists_coords {a b : F} (h2 : (2 : F) ≠ 0) (hsing : 4 * a ^ 3 + 27 * b ^ 2 ≠ 0) {P : Option (F × F)}
    (hP : OnShortCurve a b P) : ∃ p : (shortCurve a b).Point, coords p = P := by
  cases P with
  | none => exact ⟨0, rfl⟩
  | some p =>
    have hΔ : (shortCurve a b).Δ ≠ 0 := by
      have h : (shortCurve a b).Δ = -2 ^ 4 * (4 * a ^ 3 + 27 * b ^ 2) := by
        simp only [WeierstrassCurve.Δ, WeierstrassCurve.b₂, WeierstrassCurve.b₄, WeierstrassCurve.b₆,
          WeierstrassCurve.b₈, shortCurve]
        ring
      rw [h]
      exact mul_ne_zero (neg_ne_zero.2 (pow_ne_zero 4 h2)) hsing
    have hns := (Affine.equation_iff_nonsingular_of_Δ_ne_zero hΔ).1 (shortCurve_equation.2 (hP p rfl))
    exact ⟨.some p.1 p.2 hns, rfl⟩

theorem onShortCurve_coords {a b : F} (p : (shortCurve a b).Point) : OnShortCurve a b (coords p) := by
  match p with
  | .zero => exact nofun
  | .some x y h =>
    rintro _ ⟨⟩
    exact shortCurve_equation.1 h.1

variable [DecidableEq F]

/-- The group law on coordinates. -/
theorem coords_add (p q : W.Point) : coords (p + q) = lineSum W (coords p) (coords q) := by
  match p, q with
  | .zero, q => exact congrArg coords (zero_add q)
  | .some x y h, .zero => exact congrArg coords (add_zero (Affine.Point.some x y h))
  | .some x₁ y₁ h₁, .some x₂ y₂ h₂ =>
    by_cases hxy : x₁ = x₂ ∧ y₁ = W.negY x₂ y₂
    · rw [Affine.Point.add_of_Y_eq hxy.1 hxy.2]
      exact (if_pos hxy).symm
    · rw [Affine.Point.add_some hxy]
      exact (if_neg hxy).symm
end

/-! ### The multiple by the reference law -/

theorem affMul_none (M A : Nat) : ∀ k, affMul M A none k = none
  | 0 => rfl
  | k + 1 => by rw [affMul, affMul_none M A k]; rfl

section
variable {M A : Nat} [hp : Fact M.Prime] {b : ZMod M} {P : AffPoint} {p : (shortCurve (A : ZMod M) b).Point}

/-- The reference multiple is the multiple of the group. -/
theorem affMul_spec (hP : Reduced M P) (h : residues M P = coords p) (k : Nat) :
    Reduced M (affMul M A P k) ∧ residues M (affMul M A P k) = coords (k • p) := by
  induction k with
  | zero =>
    rw [zero_nsmul]
    exact ⟨nofun, rfl⟩
  | succ k ih =>
    obtain ⟨hred, hres⟩ := ih
    refine ⟨reduced_affAdd hp.out.pos hred hP, ?_⟩
    rw [affMul, residues_affAdd hred hP (hres ▸ onShortCurve_coords _) (h ▸ onShortCurve_coords _), hres, h,
      succ_nsmul, coords_add]
end

/-! ### The loop -/

/-- The exponent bits above bit `i`, and bit `i`. -/
theorem div_two_pow_eq (k i : Nat) : k / 2 ^ i = 2 * (k / 2 ^ (i + 1)) + (k.testBit i).toNat := by
  rw [Nat.toNat_testBit, Nat.pow_succ, ← Nat.div_div_eq_div_mul, Nat.div_add_mod]

theorem div_two_pow_bitLength_pred {k : Nat} (hk : k ≠ 0) : k / 2 ^ (bitLength k - 1) = 1 := by
  have hpos : bitLength k - 1 + 1 = bitLength k := by rw [bitLength_pos hk]; omega
  refine Nat.div_eq_of_lt_le (by rw [Nat.one_mul]; exact two_pow_le_of_bitLength hk) ?_
  rw [Nat.mul_comm, ← Nat.pow_succ, Nat.succ_eq_add_one, hpos]
  exact lt_two_pow_bitLength k

section
variable {n M ca : Nat} {P : Point} {acc : Option Point}

theorem smulStep_false : smulStep n M ca P false acc = acc.map (dbl n M ca) := rfl

theorem smulStep_true :
    smulStep n M ca P true acc = (acc.map (dbl n M ca)).elim (some P) (addFull n M ca · P) := by
  cases acc <;> rfl
end

section
variable {s : State} {P : Point} [hp : Fact s.mod.Prime]

/-- The accumulator `acc` of the loop, `none` for infinity, stands for the point `q` of the group. -/
structure StandsFor (acc : Option Point) (q : (curve s).Point) : Prop where
  sound : ∀ a ∈ acc, Sound s a
  residues_eq : residues s.mod (acc.elim none (affine s)) = coords q

variable {acc : Option Point} {p q : (curve s).Point} (hs : Configured s)
include hs

theorem standsFor_dbl (h : StandsFor acc q) : StandsFor (acc.map (dbl s.n s.mod s.ca)) (q + q) := by
  obtain ⟨hsound, hq⟩ := h
  cases acc with
  | none => exact ⟨nofun, by rw [coords_add, ← hq]; rfl⟩
  | some a =>
    refine ⟨?_, ?_⟩
    · rintro _ ⟨⟩
      exact sound_dbl hs (hsound a rfl)
    · rw [coords_add, ← hq]
      exact residues_affine_dbl hs (hsound a rfl).1

theorem standsFor_addFull (hP : StandsFor (some P) p) (h : StandsFor acc q) :
    StandsFor (acc.elim (some P) (addFull s.n s.mod s.ca · P)) (q + p) := by
  obtain ⟨hPsound, hp⟩ := hP
  obtain ⟨hsound, hq⟩ := h
  cases acc with
  | none => exact ⟨hPsound, by rw [coords_add, ← hq, ← hp]; rfl⟩
  | some a =>
    refine ⟨fun R hR => sound_addFull hs (hsound a rfl) (hPsound P rfl) hR, ?_⟩
    rw [coords_add, ← hq, ← hp]
    exact residues_addFull hs (hsound a rfl) (hPsound P rfl)

theorem standsFor_smulStep (hP : StandsFor (some P) p) (bit : Bool) (h : StandsFor acc q) :
    StandsFor (smulStep s.n s.mod s.ca P bit acc) (2 • q + bit.toNat • p) := by
  have hdbl := standsFor_dbl hs h
  rw [two_nsmul]
  cases bit with
  | false =>
    rw [smulStep_false, Bool.toNat_false, zero_nsmul, add_zero]
    exact hdbl
  | true =>
    rw [smulStep_true, Bool.toNat_true, one_nsmul]
    exact standsFor_addFull hs hP hdbl

/-- The loop has computed the multiple by the bits of `k` read so far. -/
theorem standsFor_smulLoop (hP : StandsFor (some P) p) (k : Nat) : ∀ (i : Nat) {acc : Option Point},
    StandsFor acc ((k / 2 ^ i) • p) → StandsFor (smulLoop s.n s.mod s.ca P k acc i) (k • p)
  | 0, _, h => by
    rw [pow_zero, Nat.div_one] at h
    exact h
  | i + 1, _, h => by
    refine standsFor_smulLoop hP k i ?_
    rw [div_two_pow_eq, add_nsmul, mul_nsmul']
    exact standsFor_smulStep hs hP _ h

theorem standsFor_smul (hP : StandsFor (some P) p) (k : Nat) : StandsFor (smul s.n s.mod s.ca P k) (k • p) := by
  by_cases hk : k = 0
  · subst hk
    rw [zero_nsmul]
    exact ⟨nofun, rfl⟩
  · have hmsb : ¬ seqMsb k = 0 := by rw [seqMsb, bitLength_pos hk]; omega
    rw [smul, if_neg hmsb]
    refine standsFor_smulLoop hs hP k _ ?_
    rw [seqMsb, div_two_pow_bitLength_pred hk, one_nsmul]
    exact hP
end

/-! ### The command -/

section
variable {s : State} (hs : ValidConfig s) (rd ra rb ws : Reg) (hw : WindowGood ws 5 [rb])
include hs hw

/-- `PSMUL` of a point of the curve leaves what stands for the end of the loop (R321). -/
theorem psmul_leaves (hP : Sound s (s.readP ra)) : ∃ R, Leaves (.psmul rd ra rb ws) s rd (window ws 5) R ∧
    affine s R = if (s.readP ra).z = 0 then none
      else (smul s.n s.mod s.ca (s.readP ra) (s.readF rb)).elim none (affine s) := by
  refine ⟨_, leaves_writeP_ws hs.1 hw rfl (if_pos ((pointOk_iff hs.1).2 (.inl hP.1))), ?_⟩
  have hinf : affine s (stored s.n { s.freePoint 0 with z := 0 }) = none := affine_infinite (Nat.zero_mod _)
  by_cases hz : (s.readP ra).z = 0
  · rw [if_pos (by simp [isInf_iff.2 hz]), if_pos hz, hinf]
  rw [if_neg hz]
  by_cases hk : s.readF rb = 0
  · rw [if_pos (by simp [seqIsZero, hk]), hinf, hk]
    rfl
  · rw [if_neg (by simp [isInf_iff, seqIsZero, hz, hk])]
    split
    · next h => rw [hinf, h]; rfl
    · next q h =>
      have hq := sound_smul hs.1 hP _ q h
      rw [h]
      split_ifs with hqz
      · exact hinf.trans (affine_infinite (isInf_iff.1 hqz)).symm
      · exact congrArg (affine s) (stored_of_below hs.1 hq.1)

/-- The point `PSMUL` leaves stands for the multiple by the reference law. -/
theorem affine_psmul (hns : NonSingular s) (hP : Sound s (s.readP ra)) :
    ∃ R, Leaves (.psmul rd ra rb ws) s rd (window ws 5) R ∧
      affine s R = affMul s.mod (coeffA s) (affine s (s.readP ra)) (s.readF rb) := by
  have : Fact s.mod.Prime := ⟨prime_of_valid hs⟩
  obtain ⟨R, hleaves, hR⟩ := psmul_leaves hs rd ra rb ws hw hP
  refine ⟨R, hleaves, ?_⟩
  by_cases hz : (s.readP ra).z = 0
  · rw [hR, if_pos hz, affine_infinite hz, affMul_none]
  · obtain ⟨p, hp⟩ := exists_coords (two_ne_zero_of_odd hs.1) hns (onShortCurve_affine hs.1 hP)
    have hloop := standsFor_smul (p := p) hs.1 ⟨by rintro _ ⟨⟩; exact hP, hp.symm⟩ (s.readF rb)
    have hred := reduced_affine (s := s) (P := s.readP ra) (prime_of_valid hs).pos
    obtain ⟨hmulred, hmul⟩ := affMul_spec (A := coeffA s) (b := elem s s.cb) hred hp.symm (s.readF rb)
    refine residues_inj (reduced_affine (prime_of_valid hs).pos) hmulred (Eq.trans ?_ hmul.symm)
    rw [hR, if_neg hz]
    exact hloop.residues_eq
end

/-- Settles O51: the loop and the reference multiple stand for one point of the group of the curve. -/
theorem scalarMultiplicationIsRepeatedAddition : Obligations.ScalarMultiplicationIsRepeatedAddition := by
  intro rd ra rb ws s hs hns hw hP hPc
  obtain ⟨R, ⟨t, ht, rfl, hframe⟩, hR⟩ := affine_psmul hs rd ra rb ws hw hns ⟨hP, hPc⟩
  exact ⟨RoundTrip.psmul rd ra rb ws rfl, t, ht, hR, hframe⟩

end Sys2Proof.Proofs.ScalarMultiplication
end

section
/-!
PROOFS. Faults (60_exceptions.md R340 to R347) and the system commands (48_system.md R330 to R333): what is dropped,
which fault a command records, and what `NOP`, `CFG` and `CLRERR` leave.
-/

namespace Sys2Proof.Proofs.Faults

open Sys2Proof.Machine Sys2Proof.Safety Sys2Proof.Laws
open Sys2Proof.Proofs.Effects (Effect executes)
open Sys2Proof.Proofs.HostAccess (issue_decoded)
open Sys2Proof.Proofs.Encoding (issue_illegal encodeAfterDecode)

/-! ### The system commands (R330 to R333) -/

theorem clrerrWord_eq : clrerrWord = 0x02000000#32 := by decide

theorem exec_clrerr (s : State) : exec .clrerr s = .next s.clearErr := rfl

/-- Settles O9: the two words are the encoder's words of the two commands. -/
theorem nopAndClearError : Obligations.NopAndClearError := fun s =>
  ⟨RoundTrip.nop rfl, rfl, RoundTrip.clrerr rfl, exec_clrerr s⟩

section
variable {s : State}

theorem exec_cfg_sound (h : ConfigSound s) : exec .cfg s = .next (s.setCfgok true) :=
  congrArg Host.Outcome.next (if_pos ((configChecks_iff s).2 h))

theorem exec_cfg_unsound (h : ¬ ConfigSound s) :
    exec .cfg s = .next (recorded 7 (encode .cfg) (s.setCfgok false)) :=
  congrArg Host.Outcome.next (if_neg fun hc => h ((configChecks_iff s).1 hc))
end

/-- Settles O10: the seven checks the model makes are `ConfigSound`. -/
theorem configurationCommit : Obligations.ConfigurationCommit := fun _ =>
  ⟨RoundTrip.cfg rfl, exec_cfg_sound, exec_cfg_unsound⟩

/-! ### While a fault is recorded (R343) -/

theorem issue_dropped {w : Word32} {s : State} (herr : s.status.err ≠ 0) (hw : w ≠ clrerrWord) :
    issue w s = .next s := if_pos ⟨herr, hw⟩

/-- The word of `CLRERR` is executed whether or not a fault is recorded. -/
theorem issue_clrerr (s : State) : issue clrerrWord s = .next s.clearErr := by
  rw [issue, if_neg (fun h => h.2 rfl), clrerrWord, RoundTrip.clrerr rfl]
  exact exec_clrerr s

/-- Settles O6: `issue` drops every word but that of `CLRERR`, which it executes. -/
theorem droppedWhileFaultRecorded : Obligations.DroppedWhileFaultRecorded := by
  intro w s herr
  rw [← clrerrWord_eq]
  exact ⟨issue_dropped herr, fun hw => hw ▸ issue_clrerr s⟩

/-! ### Which fault is recorded (R342, R345, R346) -/

section
variable {i : Instr} {s t : State}

theorem code_eq_badcfg {e : FaultCode} : e.code = 7 ↔ e = .badcfg := by cases e <;> decide

/-- The only fault `CFG` can meet is `BADCFG`: it is behind neither gate. -/
theorem faultOf_cfg {code : BitVec 8} (h : faultOf .cfg s = some code) : code = 7 := by
  have hcause : faultIf (¬ ConfigSound s) 7 = some code := h
  unfold faultIf at hcause
  split at hcause <;> cases hcause
  rfl

/-- What recording a fault of command `i` writes: `BADCFG` is the fault that clears `CFGOK`, and `CFG` the command. -/
theorem raise_faultOf {e : FaultCode} (only : e = .badcfg → i = .cfg) (cause : faultOf i s = some e.code)
    (w : Word32) : s.raise e w = recorded e.code w (if i = .cfg then s.setCfgok false else s) := by
  by_cases hi : i = .cfg
  · subst hi
    obtain rfl := code_eq_badcfg.1 (faultOf_cfg cause)
    exact raise_badcfg w s
  · rw [if_neg hi, raise_eq e w s fun he => hi (only he)]

/-- A command that has a fault cause records that fault. -/
theorem exec_faults (hs : InRange s) {code : BitVec 8} (h : faultOf i s = some code) :
    exec i s = .next (recorded code (encode i) (if i = .cfg then s.setCfgok false else s)) := by
  obtain ⟨t, hexec, heffect⟩ := executes s i
  cases heffect with
  | faults e only cause =>
    obtain rfl : e.code = code := Option.some.inj ((cause hs).symm.trans h)
    rw [hexec, raise_faultOf only h]
  | completes noCause _ => simp [noCause hs] at h

theorem foot_err (h : i ≠ .clrerr) : (profile i).foot.err = false := by
  cases i with
  | clrerr => exact absurd rfl h
  | _ => rfl

/-- A command without a fault cause leaves `ERR` 0: it completes inside its footprint, which names `ERR` for `CLRERR`
alone. -/
theorem exec_completes (hs : InRange s) (herr : s.status.err = 0) (h : faultOf i s = none) :
    ∃ t, exec i s = .next t ∧ t.status.err = 0 := by
  by_cases hi : i = .clrerr
  · subst hi
    exact ⟨_, exec_clrerr s, rfl⟩
  obtain ⟨t, hexec, heffect⟩ := executes s i
  refine ⟨t, hexec, ?_⟩
  cases heffect with
  | faults e _ cause => simp [cause hs] at h
  | completes _ keeps =>
    obtain ⟨_, _, _, _, _, _, _, hkept, _⟩ := keeps.frame
    exact (hkept (foot_err hi)).trans herr
end

/-- Settles O7: an illegal word is recorded by `issue`, and the effect of a legal one is told from `faultOf`. -/
theorem faultCausesAndPriority : Obligations.FaultCausesAndPriority := by
  intro w s ⟨hs, _⟩ herr
  refine ⟨issue_illegal herr, fun i hdecode => ?_⟩
  obtain ⟨_, rfl⟩ := encodeAfterDecode w i hdecode
  rw [issue_decoded hdecode herr]
  exact ⟨fun _ => exec_faults hs, exec_completes hs herr⟩

end Sys2Proof.Proofs.Faults
end

section
/-!
PROOFS. The workspace (70_reset_and_hazards.md R380 to R383): a command with a window reads nothing in it and overwrites
all of it, so two states that agree outside the window have the same outcome.
-/

namespace Sys2Proof.Proofs.Workspace

open Sys2Proof.Machine Sys2Proof.Safety
open Sys2Proof.Proofs.Effects (Passes)

/-! ### States that agree outside a window -/

/-- `t` is `s` but for the registers in the window. -/
structure SameOutside (ws : Reg) (k : Nat) (s t : State) : Prop where
  f : ∀ r : Reg, inWindow ws k r = false → t.f[r] = s.f[r]
  rest : t = { s with f := t.f }

section
variable {ws : Reg} {k : Nat} {s t u v : State} (h : SameOutside ws k s t)
include h

theorem SameOutside.readF {r : Reg} (hr : inWindow ws k r = false) : t.readF r = s.readF r := h.f r hr

/-- Once every slot of the window holds a free value, nothing is left that differs. -/
theorem SameOutside.scratch_eq : t.scratch ws k = s.scratch ws k := by
  obtain ⟨hf, hrest⟩ := h
  have hslots : (t.scratch ws k).f = (s.scratch ws k).f := by
    rw [hrest]
    refine congrArg Vector.ofFn (funext fun r => ?_)
    cases hr : inWindow ws k r with
    | true => rfl
    | false => exact hf r hr
  rw [hrest] at hslots ⊢
  exact congrArg (fun f => { s.scratch ws k with f := f }) hslots

/-- A write of one value to one `f` register. -/
theorem SameOutside.writeF (rd : Reg) {x y : Nat} (hxy : y = x) :
    SameOutside ws k (s.writeF rd x) (t.writeF rd y) := by
  subst hxy
  have hn : t.n = s.n := by rw [h.rest]; rfl
  refine ⟨fun r hr => ?_, by rw [h.rest]; rfl⟩
  change (t.writeF rd y).readF r = (s.writeF rd y).readF r
  rw [State.writeF_readF, State.writeF_readF, hn, h.readF hr]

theorem SameOutside.setT (b : Bool) : SameOutside ws k (s.setT b) (t.setT b) :=
  ⟨h.f, by rw [h.rest]; rfl⟩

theorem SameOutside.tookDraws (m : Nat) : SameOutside ws k (s.tookDraws m) (t.tookDraws m) :=
  ⟨h.f, by rw [h.rest]; rfl⟩

theorem SameOutside.writeP (rd : Reg) (P : Point) : SameOutside ws k (s.writeP rd P) (t.writeP rd P) :=
  ⟨h.f, by rw [h.rest]; rfl⟩

theorem SameOutside.writePz (rd : Reg) (x : Nat) : SameOutside ws k (s.writePz rd x) (t.writePz rd x) :=
  ⟨h.f, by rw [h.rest]; rfl⟩

theorem SameOutside.writePxy (rd : Reg) (x y : Nat) : SameOutside ws k (s.writePxy rd x y) (t.writePxy rd x y) :=
  ⟨h.f, by rw [h.rest]; rfl⟩

/-- `PADD` writes the explicit infinity as a `z` of 0, and any other sum as a point. -/
theorem SameOutside.writeSum (rd : Reg) (R : Option Point) :
    SameOutside ws k (match R with | none => s.writePz rd 0 | some P => s.writeP rd P)
      (match R with | none => t.writePz rd 0 | some P => t.writeP rd P) := by
  cases R with
  | none => exact h.writePz rd 0
  | some P => exact h.writeP rd P

theorem SameOutside.ite {p : Prop} [Decidable p] (h' : SameOutside ws k u v) :
    SameOutside ws k (if p then s else u) (if p then t else v) := by split <;> assumption
end

theorem sameOutside_set {ws : Reg} {k : Nat} {s : State} {g : Vector Nat 16}
    (hg : ∀ r : Reg, r.val < ws.val ∨ ws.val + k ≤ r.val → g[r] = s.f[r]) :
    SameOutside ws k s { s with f := g } := by
  refine ⟨fun r hr => hg r ?_, rfl⟩
  have hout : ¬ (ws.val ≤ r.val ∧ r.val < ws.val + k) := fun hin => by simp [inWindow_iff.2 hin] at hr
  omega

/-! ### The commands with a window -/

/-- An `f` operand of a command whose window is good lies outside it. -/
theorem operand_outside {ws : Reg} {k : Nat} {operands : List Reg} (hw : WindowGood ws k operands) {r : Reg}
    (hr : r ∈ operands) : inWindow ws k r = false := by
  obtain ⟨_, hout⟩ := hw
  have hr' := hout r hr
  exact Bool.eq_false_iff.2 fun hin => by have := inWindow_iff.1 hin; omega

section
variable {i : Instr} {ws : Reg} {k : Nat} {operands : List Reg} {s t body body' : State}

/-- Behind the two gates, which look at no `f` register, only the command's own effect can differ. -/
theorem exec_congr (hs : Passes i s) (ht : Passes i t) (hc : (profile i).config = true)
    (hw : (profile i).ws = some (ws, k, operands))
    (he : exec i s = requireCfg i s (requireWs i ws k operands s body))
    (he' : exec i t = requireCfg i t (requireWs i ws k operands t body')) (hbody : body' = body) :
    exec i t = exec i s := by
  rw [he, he', require_both (hs.config hc) (hs.window _ _ _ hw), require_both (ht.config hc) (ht.window _ _ _ hw),
    hbody]
end

/-- A command with a window has the same outcome in states that agree outside it: the one way a command reads the value
registers is `readF` of its operands, so its values agree once these do. -/
theorem exec_sameOutside {i : Instr} {ws : Reg} {k : Nat} {operands : List Reg} {s : State} {g : Vector Nat 16}
    (hp : (profile i).ws = some (ws, k, operands)) (hnone : faultOf i s = none)
    (h : SameOutside ws k s { s with f := g }) : exec i { s with f := g } = exec i s := by
  obtain ⟨hconfig, hwindow, hcause⟩ := faultOf_eq_none.1 hnone
  have hs : Passes i s := ⟨hconfig, hwindow⟩
  have ht : Passes i { s with f := g } := ⟨hconfig, hwindow⟩
  have read {r : Reg} (hr : r ∈ operands) : State.readF { s with f := g } r = s.readF r :=
    h.readF (operand_outside (hwindow _ _ _ hp) hr)
  cases i with
  | fpow rd ra rb ws =>
    cases hp
    exact exec_congr hs ht rfl rfl rfl rfl
      ((h.writeF rd (congrArg₂ s.powOrFree (read (by simp)) (read (by simp)))).tookDraws 1).scratch_eq
  | fpowl rd ra rb ws =>
    cases hp
    exact exec_congr hs ht rfl rfl rfl rfl
      ((h.writeF rd (congrArg (s.powOrFree · (s.readL rb)) (read (by simp)))).tookDraws 1).scratch_eq
  | finv rd ra ws =>
    cases hp
    have hz : ¬ seqIsZero (s.readF ra) = true := (seqIsZero_eq _).not.2 (faultIf_eq_none.1 hcause)
    refine exec_congr hs ht rfl rfl rfl rfl ?_
    rw [read (by simp), if_neg hz, if_neg hz]
    exact ((h.writeF rd rfl).tookDraws 1).scratch_eq
  | fsqrt rd ra ws =>
    cases hp
    refine exec_congr hs ht rfl rfl rfl rfl ?_
    rw [read (by simp)]
    exact ((((h.writeF rd rfl).setT _).ite ((((h.writeF rd rfl).setT _).ite ((h.writeF rd rfl).setT _)).ite
      ((h.writeF rd rfl).setT _))).tookDraws 2).scratch_eq
  | ponc | peq =>
    cases hp
    exact exec_congr hs ht rfl rfl rfl rfl ((h.setT _).tookDraws 1).scratch_eq
  | paddd | pdbl =>
    cases hp
    exact exec_congr hs ht rfl rfl rfl rfl ((h.writeP _ _).tookDraws 3).scratch_eq
  | padd rd ra rb ws =>
    cases hp
    exact exec_congr hs ht rfl rfl rfl rfl
      (((h.writeSum rd (addFull s.n s.mod s.ca (s.readP ra) (s.readP rb))).ite (h.writeP rd _)).tookDraws 3).scratch_eq
  | psmul rd ra rb ws =>
    cases hp
    refine exec_congr hs ht rfl rfl rfl rfl ?_
    rw [read (by simp)]
    exact ((h.writeP rd _).tookDraws 3).scratch_eq
  | ptoaff rd ws =>
    cases hp
    exact exec_congr hs ht rfl rfl rfl rfl
      ((h.ite ((h.writePxy rd _ _).ite (h.writePxy rd _ _))).tookDraws 2).scratch_eq
  | _ => cases hp

/-- Settles O60: another content of the window is a state that agrees outside it. -/
theorem workspaceContentsUnobservable : Obligations.WorkspaceContentsUnobservable :=
  fun _ _ _ _ _ _ hp hnone hg => exec_sameOutside hp hnone (sameOutside_set hg)

end Sys2Proof.Proofs.Workspace
end

section
/-!
PROOFS. The corners of the scalar multiplication (47_scalar_mul.md R321): the scalars 0 and 1, and an infinite point.
-/

namespace Sys2Proof.Proofs.ScalarCorners

open Sys2Proof.Machine Sys2Proof.Safety Sys2Proof.Proofs.PointCommands

/-- The loop has no bit below the top one to read. -/
theorem smul_one (n M ca : Nat) (P : Point) : smul n M ca P 1 = some P := by
  have hmsb : seqMsb 1 = 1 := by decide
  rw [smul, hmsb, if_neg one_ne_zero]
  rfl

section
variable {s : State} (hs : Configured s) (rd ra rb ws : Reg) (hw : WindowGood ws 5 [rb])
include hs hw

/-- `PSMUL` inside the contract leaves infinity for a scalar 0 or an infinite point, and the point itself for the scalar
1; it completes outside the contract too. -/
theorem psmul_leaves_corners : ∃ R, Leaves (.psmul rd ra rb ws) s rd (window ws 5) R ∧
    (InContract s (s.readP ra) → s.readF rb = 0 ∨ (s.readP ra).z = 0 → R.z = 0) ∧
    (Below s (s.readP ra) → (s.readP ra).z ≠ 0 → s.readF rb = 1 → R = s.readP ra) := by
  refine ⟨_, leaves_writeP_ws hs hw rfl rfl, fun hP hcorner => ?infinite, fun hP hz hk => ?one⟩
  case infinite =>
    rw [if_pos ((pointOk_iff hs).2 hP), if_pos (by simpa [isInf_iff, seqIsZero] using hcorner)]
    exact Nat.zero_mod _
  case one =>
    have hinf : ¬ (s.readP ra).isInf = true := isInf_iff.not.2 hz
    rw [if_pos ((pointOk_iff hs).2 (.inl hP)), if_neg (by simp [seqIsZero, hinf, hk]), hk, smul_one]
    exact (congrArg (stored s.n) (if_neg hinf)).trans (stored_readP hs ra)
end

/-- Settles O52 by `psmul_leaves_corners`: an infinite point is inside the contract whatever `x` and `y` hold. -/
theorem scalarMultiplicationCorners : Obligations.ScalarMultiplicationCorners := by
  intro rd ra rb ws s hs hw
  obtain ⟨_, ⟨t, ht, rfl, hframe⟩, hinfinite, hone⟩ := psmul_leaves_corners hs rd ra rb ws hw
  exact ⟨t, ht, fun hk hP => hinfinite (.inl hP) (.inl hk), fun hz => hinfinite (.inr hz) (.inr hz),
    fun hk hz hP => hone hP hz hk, hframe⟩

end Sys2Proof.Proofs.ScalarCorners
end
